-- ==== Sys2Proof/Word.lean ====
section
/-! DEFINITION. The word types of the bus transaction engine (BTE).

Every value of the BTE is unsigned, bit 0 is the least significant bit (spec/00_scope.md R7), and the widths are
those of spec/10_state.md R21, R22, R27 and spec/30_encoding.md R71. -/

namespace Sys2Proof

/-- A byte: a register address, a data byte, a bit index as presented, a byte of a stream. -/
abbrev Byte := BitVec 8

/-- A 16-bit value: the latch `ARG` and the index `IDX`. -/
abbrev Half := BitVec 16

/-- A value of a time counter: `W_TIME = 32` bits (R5, R172). -/
abbrev Ticks := BitVec 32

/-- A command word (R71). -/
abbrev Word := BitVec 64

end Sys2Proof
end

