-- ==== Sys2Proof/Config.lean ====
section
/-! DEFINITION. The configuration of one BTE instance (spec/00_scope.md R5, spec/10_state.md R27) and the free
values the spec leaves to the environment. -/

namespace Sys2Proof

/-- `MODE`: which bus the handle drives; it also names the engine a command belongs to (R2, R5, R76). -/
inductive Mode where
  | byte
  | line
  deriving DecidableEq, Repr

/-- The device handle: the control registers of R27, fixed before reset is released.  `CS_ID`, `XFER_PARAMS` and
`BAUD` are opaque in the spec and no rule reads them; they are carried as numbers (log 3). -/
structure DeviceHandle where
  mode              : Mode
  csId              : Nat
  xferParams        : Nat
  baud              : Nat
  lineTerm          : List Byte
  responseTimeoutMs : Ticks
  cmdRead           : Byte
  cmdWrite          : Byte
  filler            : Byte
  debugEn           : Bool
  selActiveLevel    : BitVec 1
  deriving DecidableEq, Repr

/-- The handle `State.reset` is configured with: the defaults and suggestions of R5; `MODE`, `DEBUG_EN` and the
three opaque parameters have none there and are chosen here.  DESIGN CHOICE, log 2 and log 3. -/
def Config.defaultHandle : DeviceHandle where
  mode              := .byte
  csId              := 0
  xferParams        := 0
  baud              := 0
  lineTerm          := [0x0D, 0x0A]
  responseTimeoutMs := 1000
  cmdRead           := 0x00
  cmdWrite          := 0x80
  filler            := 0x00
  debugEn           := true
  selActiveLevel    := 0

/-- `CHECK_WINDOW_DEFAULT_US`: the window the assembler supplies when `SETBF` is written without one (R5, R81). -/
def Config.checkWindowDefaultUs : Nat := 2000

/-- The byte `DEV_B` answers an `Xfer` with when no answer is listed for it: any byte (R11, R58).  A free value,
applied to the number of the draw.  Log 5. -/
opaque Config.freeByte : Nat → Byte

/-- The two counters of the timing source (spec/60_exceptions.md R172). -/
inductive TickUnit where
  | us
  | ms
  deriving DecidableEq, Repr

/-- How time passes at a counter (spec/60_exceptions.md R173): for each passage, by how much more than one tick it advances, and
how many readings after it see no further one.  A free value, applied to the counter and the number of the passage.  Log 19. -/
opaque Config.freePassage : TickUnit → Nat → Nat × Nat

end Sys2Proof
end

