-- ==== Sys2Proof/Syntax.lean ====
section
/-! DEFINITION. The nine commands of the command set `BTE-CS v1` (spec/30_encoding.md R74), one constructor per row of
spec/opcode_table.json, with the operands of R80; and the lines of the assembler (R80, R81). -/

namespace Sys2Proof

/-- A command with the operands its format uses (R72).  The byte count of a `wrburst` and the payload length of a
`sendcmd` or `senddata` are the length of the carried list: the assembler sets `arg16` to it (R80). -/
inductive Instr where
  | rdreg    (addr : Byte)
  | wrreg    (addr byte : Byte)
  | rdburst  (addr : Byte) (count : Half)
  | wrburst  (addr : Byte) (bytes : List Byte)
  | getbf    (addr msb lsb : Byte)
  | setbf    (addr value msb lsb : Byte) (win : Half)
  | flush
  | sendcmd  (text : List Byte)
  | senddata (bytes : List Byte)
  deriving DecidableEq, Repr

/-- The engine a command belongs to: the mode in which it is a command at all (R74, R76). -/
def Instr.engine : Instr → Mode
  | .rdreg _ | .wrreg _ _ | .rdburst _ _ | .wrburst _ _ | .getbf _ _ _ | .setbf _ _ _ _ _ => .byte
  | .flush | .sendcmd _ | .senddata _ => .line

/-- One line of assembler text, its operands as written: numbers, a quoted string, a list of bytes (R80).  The window of
`setbf` may be left out (R81). -/
inductive AsmLine where
  | rdreg    (addr : Nat)
  | wrreg    (addr byte : Nat)
  | rdburst  (addr count : Nat)
  | wrburst  (addr : Nat) (bytes : List Nat)
  | getbf    (addr msb lsb : Nat)
  | setbf    (addr value msb lsb : Nat) (win : Option Nat)
  | flush
  | sendcmd  (text : String)
  | senddata (bytes : List Nat)
  deriving DecidableEq, Repr

end Sys2Proof
end

