-- ==== Sys2Proof/WellFormed.lean ====
section
/-! DEFINITION. Which terms of `Instr` a command word can spell: a payload's length must fit the 16-bit field `arg16`
(spec/30_encoding.md R73, R78).  Every other operand has the width of its field, so no other check exists; `msb` and
`lsb` above 7 are legal encodings that end in `InvalidBitRange` (R73). -/

namespace Sys2Proof

/-- A payload that `arg16` can count. -/
def payloadFits (bytes : List Byte) : Bool := decide (bytes.length < 65536)

/-- The command has an encoding. -/
def Instr.wellFormed : Instr → Bool
  | .rdreg _ => true
  | .wrreg _ _ => true
  | .rdburst _ _ => true
  | .wrburst _ bytes => payloadFits bytes
  | .getbf _ _ _ => true
  | .setbf _ _ _ _ _ => true
  | .flush => true
  | .sendcmd text => payloadFits text
  | .senddata bytes => payloadFits bytes

end Sys2Proof
end

