-- ==== Sys2Proof/Decode.lean ====
section
/-! DEFINITION. The command word, the decoder, the encoder and the assembler (spec/30_encoding.md R70 to R81).

A command is the pair of a 64-bit word and a payload (R70).  Decoding is total: every pair is one of the nine commands
or is refused for one of the five reasons of R77 (R75). -/

namespace Sys2Proof

/-! ## The fields of the word (R71) -/

def opField (w : Word) : Byte := w.extractLsb' 56 8
def addrField (w : Word) : Byte := w.extractLsb' 48 8
def dataField (w : Word) : Byte := w.extractLsb' 40 8
def msbField (w : Word) : Byte := w.extractLsb' 32 8
def lsbField (w : Word) : Byte := w.extractLsb' 24 8
def arg16Field (w : Word) : Half := w.extractLsb' 8 16
def zeroField (w : Word) : Byte := w.extractLsb' 0 8

/-- `word = op << 56 | addr << 48 | data << 40 | msb << 32 | lsb << 24 | arg16 << 8` (R71). -/
def packWord (op addr data msb lsb : Byte) (arg16 : Half) : Word :=
  (op.setWidth 64 <<< 56) ||| (addr.setWidth 64 <<< 48) ||| (data.setWidth 64 <<< 40) |||
    (msb.setWidth 64 <<< 32) ||| (lsb.setWidth 64 <<< 24) ||| (arg16.setWidth 64 <<< 8)

/-! ## The opcode map (R74) -/

/-- The nine rows of the opcode map. -/
inductive Opcode where
  | rdreg
  | wrreg
  | rdburst
  | wrburst
  | getbf
  | setbf
  | flush
  | sendcmd
  | senddata
  deriving DecidableEq, Repr

/-- The rows in the order of R74. -/
def Opcode.all : List Opcode :=
  [.rdreg, .wrreg, .rdburst, .wrburst, .getbf, .setbf, .flush, .sendcmd, .senddata]

/-- Column `op`. -/
def Opcode.code : Opcode → Byte
  | .rdreg => 0x01
  | .wrreg => 0x02
  | .rdburst => 0x03
  | .wrburst => 0x04
  | .getbf => 0x05
  | .setbf => 0x06
  | .flush => 0x10
  | .sendcmd => 0x11
  | .senddata => 0x12

/-- Column `engine`, as the mode that selects it (R76). -/
def Opcode.engine : Opcode → Mode
  | .rdreg | .wrreg | .rdburst | .wrburst | .getbf | .setbf => .byte
  | .flush | .sendcmd | .senddata => .line

/-- Column `match`. -/
def Opcode.matchWord : Opcode → Word
  | .rdreg => 0x0100000000000000
  | .wrreg => 0x0200000000000000
  | .rdburst => 0x0300000000000000
  | .wrburst => 0x0400000000000000
  | .getbf => 0x0500000000000000
  | .setbf => 0x0600000000000000
  | .flush => 0x1000000000000000
  | .sendcmd => 0x1100000000000000
  | .senddata => 0x1200000000000000

/-- Column `mask`: ones in `op`, in `zero` and in every field the command does not use. -/
def Opcode.mask : Opcode → Word
  | .rdreg => 0xFF00FFFFFFFFFFFF
  | .wrreg => 0xFF0000FFFFFFFFFF
  | .rdburst => 0xFF00FFFFFF0000FF
  | .wrburst => 0xFF00FFFFFF0000FF
  | .getbf => 0xFF00FF0000FFFFFF
  | .setbf => 0xFF000000000000FF
  | .flush => 0xFFFFFFFFFFFFFFFF
  | .sendcmd => 0xFFFFFFFFFF0000FF
  | .senddata => 0xFFFFFFFFFF0000FF

/-- Whether the command carries a payload of `arg16` bytes (R78). -/
def Opcode.carriesPayload : Opcode → Bool
  | .wrburst | .sendcmd | .senddata => true
  | .rdreg | .wrreg | .rdburst | .getbf | .setbf | .flush => false

/-- The payload length a word of this row requires (R78). -/
def Opcode.payloadLength (k : Opcode) (w : Word) : Nat :=
  if k.carriesPayload then (arg16Field w).toNat else 0

/-- The row an `op` value names; none for the reserved opcodes of R79. -/
def Opcode.ofCode (b : Byte) : Option Opcode := Opcode.all.find? (fun k => k.code == b)

/-! ## The decoder -/

/-- Why a pair spells no command: the five tests of R77, in its order. -/
inductive IllegalReason where
  /-- (a) `op` is none of the nine. -/
  | reservedOpcode
  /-- (b) the opcode belongs to the engine `MODE` does not select. -/
  | wrongEngine
  /-- (c) `word[7:0]` is not zero. -/
  | zeroField
  /-- (d) a field the command does not use is not zero. -/
  | unusedField
  /-- (e) the payload has not the length R78 requires. -/
  | payloadLength
  deriving DecidableEq, Repr

/-- The command a row makes of a word and payload that pass the tests: operands taken as they stand (R73). -/
def Opcode.build (k : Opcode) (w : Word) (payload : List Byte) : Instr :=
  match k with
  | .rdreg => .rdreg (addrField w)
  | .wrreg => .wrreg (addrField w) (dataField w)
  | .rdburst => .rdburst (addrField w) (arg16Field w)
  | .wrburst => .wrburst (addrField w) payload
  | .getbf => .getbf (addrField w) (msbField w) (lsbField w)
  | .setbf => .setbf (addrField w) (dataField w) (msbField w) (lsbField w) (arg16Field w)
  | .flush => .flush
  | .sendcmd => .sendcmd payload
  | .senddata => .senddata payload

/-- The decoder: total on every pair and mode (R75 to R79).  The order of the five tests is not observable (R77). -/
def decode (mode : Mode) (w : Word) (payload : List Byte) : Except IllegalReason Instr :=
  match Opcode.ofCode (opField w) with
  | none => .error .reservedOpcode
  | some k =>
    if k.engine ≠ mode then .error .wrongEngine
    else if zeroField w ≠ 0 then .error .zeroField
    else if w &&& k.mask ≠ k.matchWord then .error .unusedField
    else if payload.length ≠ k.payloadLength w then .error .payloadLength
    else .ok (k.build w payload)

/-! ## The encoder -/

/-- The row of a command. -/
def Instr.opcode : Instr → Opcode
  | .rdreg _ => .rdreg
  | .wrreg _ _ => .wrreg
  | .rdburst _ _ => .rdburst
  | .wrburst _ _ => .wrburst
  | .getbf _ _ _ => .getbf
  | .setbf _ _ _ _ _ => .setbf
  | .flush => .flush
  | .sendcmd _ => .sendcmd
  | .senddata _ => .senddata

/-- The command word: each operand in its field, every unused field zero (R71, R72, R80). -/
def encodeWord : Instr → Word
  | .rdreg addr => packWord 0x01 addr 0 0 0 0
  | .wrreg addr byte => packWord 0x02 addr byte 0 0 0
  | .rdburst addr count => packWord 0x03 addr 0 0 0 count
  | .wrburst addr bytes => packWord 0x04 addr 0 0 0 (BitVec.ofNat 16 bytes.length)
  | .getbf addr msb lsb => packWord 0x05 addr 0 msb lsb 0
  | .setbf addr value msb lsb win => packWord 0x06 addr value msb lsb win
  | .flush => packWord 0x10 0 0 0 0 0
  | .sendcmd text => packWord 0x11 0 0 0 0 (BitVec.ofNat 16 text.length)
  | .senddata bytes => packWord 0x12 0 0 0 0 (BitVec.ofNat 16 bytes.length)

/-- The payload handed over with the word (R78). -/
def encodePayload : Instr → List Byte
  | .rdreg _ | .wrreg _ _ | .rdburst _ _ | .getbf _ _ _ | .setbf _ _ _ _ _ | .flush => []
  | .wrburst _ bytes => bytes
  | .sendcmd text => text
  | .senddata bytes => bytes

/-- The pair of R70 that spells a command. -/
def encode (i : Instr) : Word × List Byte := (encodeWord i, encodePayload i)

/-! ## The host's view of the table -/

/-- The payload that stands for "every bit above the word is zero": `arg16` zero bytes where the row carries a payload,
none elsewhere (log 7). -/
def tablePayload (w : Word) : List Byte :=
  match Opcode.ofCode (opField w) with
  | some k => List.replicate (k.payloadLength w) 0
  | none => []

/-- The mode in which a word can be a command: its opcode's engine (R76); `byte` for a reserved opcode. -/
def tableMode (w : Word) : Mode :=
  match Opcode.ofCode (opField w) with
  | some k => k.engine
  | none => .byte

/-- The command the decoder reads from an instruction whose bits are `w`, numbered as spec/opcode_table.json numbers them,
on an instance whose `MODE` selects the opcode's engine (log 7). -/
def decodeTableWord (nbits w : Nat) : Option Instr :=
  let word : Word := BitVec.ofNat 64 (w % 2 ^ nbits)
  (decode (tableMode word) word (tablePayload word)).toOption

/-! ## The assembler (R80, R81) -/

/-- A number as a field of `n` bits; a number that does not fit is an assembler error (R80). -/
def asmField (n : Nat) (v : Nat) : Option (BitVec n) := if v < 2 ^ n then some (BitVec.ofNat n v) else none

/-- A list of numbers as payload bytes, refused where one is no byte or where `arg16` cannot count them. -/
def asmBytes (vs : List Nat) : Option (List Byte) :=
  if vs.length < 65536 then vs.mapM (asmField 8) else none

/-- A quoted string as its characters' byte values, one byte a character, no terminator added (R80).  The spec gives the values
of the ASCII characters (spec/93_implementation_defined.md GK4); a character from 128 to 255 stands for the byte of its Unicode
code point, and one above is an assembler error.  DESIGN CHOICE, log 22. -/
def asmText (text : String) : Option (List Byte) := asmBytes (text.toList.map Char.toNat)

/-- One assembler line as a command; none is an assembler error.  A `setbf` with its window left out gets
`CHECK_WINDOW_DEFAULT_US` (R81). -/
def assemble : AsmLine → Option Instr
  | .rdreg addr => do return .rdreg (← asmField 8 addr)
  | .wrreg addr byte => do return .wrreg (← asmField 8 addr) (← asmField 8 byte)
  | .rdburst addr count => do return .rdburst (← asmField 8 addr) (← asmField 16 count)
  | .wrburst addr bytes => do return .wrburst (← asmField 8 addr) (← asmBytes bytes)
  | .getbf addr msb lsb => do return .getbf (← asmField 8 addr) (← asmField 8 msb) (← asmField 8 lsb)
  | .setbf addr value msb lsb win => do
      return .setbf (← asmField 8 addr) (← asmField 8 value) (← asmField 8 msb) (← asmField 8 lsb)
        (← asmField 16 (win.getD Config.checkWindowDefaultUs))
  | .flush => some .flush
  | .sendcmd text => do return .sendcmd (← asmText text)
  | .senddata bytes => do return .senddata (← asmBytes bytes)

end Sys2Proof
end

