-- ==== Sys2Proof/Machine/State.lean ====
section
/-! DEFINITION. The state of the BTE and of the environment it is tested against, as plain data, and the state after reset.

The registers are those of spec/10_state.md R20; the environment is that of R31, held beside them and reached through
the port events of spec/00_scope.md R10 only; the trace is the sequence of port events so far, which is the whole
observable behaviour (R10). -/

namespace Sys2Proof.Machine

open Sys2Proof

/-! ## Enumerated registers -/

/-- `RB_PHASE` (R24, R25). -/
inductive RbPhase where
  | idle
  | plain
  | bfRead
  | bfWrite
  | bfPoll
  deriving DecidableEq, Repr

/-- `TXN_STEP`: the place inside one bus transaction (R24, spec/40_register_bus.md R97). -/
inductive TxnStep where
  | none
  | acq
  | sel
  | addr
  | data
  | desel
  | rel
  deriving DecidableEq, Repr

/-- `LP_STATE` (R24, R26). -/
inductive LpState where
  | idle
  | sending
  | awaiting
  | success
  | failure
  deriving DecidableEq, Repr

/-- `SEL`, the select line (R29). -/
inductive Sel where
  | inactive
  | active
  deriving DecidableEq, Repr

/-- The outcome of a command (spec/30_encoding.md R83). -/
inductive Status where
  | ok
  | invalidBitRange
  | writeVerificationFailed
  | lineFailure
  | illegalCommand
  deriving DecidableEq, Repr

/-- The port event `SEQ` performs next, where `RB_PHASE`, `TXN_STEP` and `LP_STATE` leave more than one: the model's own
part of the program counter, whose coding R24 leaves to the implementation.  DESIGN CHOICE, log 6. -/
inductive Point where
  /-- no command in progress, or one just accepted -/
  | idle
  /-- the bus event `TXN_STEP` names -/
  | txn
  /-- `T0 <- NowUs()` of `SETBF`, `T0 <- NowMs()` of `await` -/
  | sample
  /-- `t <- NowUs()` or `t <- NowMs()` and the window test on it -/
  | window
  /-- `n <- Avail()` of `flush` -/
  | flushAvail
  /-- `_ <- RdByte()` of `flush` -/
  | flushRead
  /-- `WrByte` of the first of the payload bytes still to send -/
  | send (rest : List Byte)
  /-- `WrByte` of the first of the terminator bytes still to send -/
  | term (rest : List Byte)
  /-- `n <- Avail()` of `await` -/
  | poll
  /-- `b <- RdByte()` of `await` -/
  | read
  /-- `DbgByte(b)` of `await` -/
  | mirror (b : Byte)
  /-- `DbgDiag(rec)` of `SETBF` -/
  | diag
  /-- `Result` with this status -/
  | owe (status : Status)
  deriving DecidableEq, Repr

/-! ## Port events (R10) -/

/-- The record of `DbgDiag`: eight bytes in the order of R88. -/
structure DiagRecord where
  addr  : Byte
  msb   : Byte
  lsb   : Byte
  value : Byte
  cur   : Byte
  mask  : Byte
  new   : Byte
  last  : Byte
  deriving DecidableEq, Repr

/-- One port event with its arguments and, where it has one, its answer (R10). -/
inductive Event where
  | cmdAccept (word : Word) (payload : List Byte)
  | result (status value : Byte) (data : List Byte)
  | beginTxn
  | selAssert
  | xfer (tx rx : Byte)
  | selDeassert
  | endTxn
  | avail (n : Nat)
  | rdByte (b : Byte)
  | wrByte (b : Byte)
  | dbgByte (b : Byte)
  | dbgDiag (record : DiagRecord)
  | nowMs (t : Ticks)
  | nowUs (t : Ticks)
  deriving DecidableEq, Repr

/-! ## The environment (R31; spec/20_memory.md R58, R65, R66; spec/60_exceptions.md R178) -/

/-- A command as the caller hands it over (R70). -/
structure Command where
  word    : Word
  payload : List Byte
  deriving DecidableEq, Repr

/-- The register memory of `RefDevice`, in canonical form: addresses strictly rising and no entry zero, since an unlisted
address reads as zero (log 8). -/
abbrev Memory := List Host.Cell

/-- The three variants of `RefDevice` (R65). -/
inductive RefVariant where
  | ideal
  /-- a store to one of these addresses does nothing -/
  | stuck (addrs : List Nat)
  /-- after a store the next `k` loads of the address still give the value it held before -/
  | slow (k : Nat)
  deriving DecidableEq, Repr

/-- A store of a slow `RefDevice` that loads do not show yet (R65). -/
structure Unsettled where
  addr : Nat
  old  : Byte
  left : Nat
  deriving DecidableEq, Repr

/-- `RefDevice` (R65): the registers, the pointer `a`, the flag `w`, `first`, the transaction counter and the variant. -/
structure RefDevice where
  reg       : Memory
  a         : BitVec 7
  w         : Bool
  first     : Bool
  ntxn      : Nat
  variant   : RefVariant
  unsettled : List Unsettled
  deriving DecidableEq, Repr

/-- `DEV_B`: the oracle of R58, answering with the listed bytes and then with free ones, or the test device of R65. -/
inductive Device where
  | oracle (answers : List Byte)
  | ref (device : RefDevice)
  deriving DecidableEq, Repr

/-- One counter of the timing source: the underlying tick count, how many more readings the next passage of time is away, and
how many passages there have been (R172, R173; log 19). -/
structure Counter where
  ticks    : Nat
  still    : Nat
  passages : Nat
  deriving DecidableEq, Repr

/-- `CLOCK`: two unrelated counters (R172, R173), or `RefClock` with its two costs (R66).  That a cost may be 0, where `tau`
stands still and R173 (b) is not met, is the model's: R66 does not say that the costs are positive.  DESIGN CHOICE, log 24. -/
inductive Clock where
  | counters (us ms : Counter)
  | ref (tau xferCost pollCost : Nat)
  deriving DecidableEq, Repr

/-- When an arrival of `RefChannel`'s script is due (R66): at a time, or a while after the `n`-th outbound byte (log 12). -/
inductive Trigger where
  | at (tau : Nat)
  | afterOut (n delay : Nat)
  deriving DecidableEq, Repr

/-- An arrival of the script (R66). -/
structure Arrival where
  trigger : Trigger
  bytes   : List Byte
  deriving DecidableEq, Repr

/-- The serial transport with `DEV_L`: the inbound queue, the outbound log, the script of arrivals still to come, and
the bytes a device that never falls silent puts in the queue before every `Avail` (R66, R178, R197 (b)). -/
structure Channel where
  inbound : List Byte
  out     : List Byte
  script  : List Arrival
  chatter : List Byte
  deriving DecidableEq, Repr

/-- One liberty of the environment (R178). -/
inductive Move where
  /-- `CALLER` offers a command -/
  | offer (command : Command)
  /-- `CALLER`'s side asserts reset -/
  | assertReset
  /-- and releases it -/
  | releaseReset
  /-- the oracle `DEV_B` settles its next answers -/
  | devAnswers (answers : List Byte)
  /-- a register of `RefDevice` changes by itself or by another bus user -/
  | devStore (a : BitVec 7) (b : Byte)
  /-- `OTHER` takes the bus, where it is free -/
  | otherBegin
  /-- and gives it back -/
  | otherEnd
  /-- `DEV_L` puts bytes in the inbound queue -/
  | arrive (bytes : List Byte)
  /-- `CLOCK` advances by these amounts -/
  | tick (us ms : Nat)
  deriving DecidableEq, Repr

/-- Whose step is next: a step of `SEQ` or a move of the environment.  When no turn is listed it is `SEQ`'s (log 4). -/
inductive Turn where
  | seq
  | env (move : Move)
  deriving DecidableEq, Repr

/-- Everything outside the BTE that it observes (R31), and the turns to come (log 18, log 20). -/
structure Env where
  offers    : List Command
  resetLine : Bool
  device    : Device
  draws     : Nat
  otherOwns : Bool
  channel   : Channel
  clock     : Clock
  turns     : List Turn
  deriving DecidableEq, Repr

/-! ## The machine -/

/-- The state: the registers of R20 under their own names, the model's own program counter part `point`, the handle, the
environment and the trace of port events, oldest first (log 16). -/
structure State where
  op       : Byte
  addr     : Byte
  data     : Byte
  msb      : Byte
  lsb      : Byte
  arg      : Half
  payload  : List Byte
  cur      : Byte
  mask     : Byte
  new      : Byte
  last     : Byte
  t0       : Ticks
  idx      : Half
  rxdata   : List Byte
  rbuf     : List Byte
  busy     : Bool
  rbPhase  : RbPhase
  txnStep  : TxnStep
  lpState  : LpState
  point    : Point
  busOwned : Bool
  sel      : Sel
  cfg      : DeviceHandle
  env      : Env
  trace    : List Event
  deriving DecidableEq, Repr

/-- Why a step stops.  No command of the spec stops the machine (R12: "There is no fourth outcome"), so both reasons name
states that no run from reset reaches (log 17). -/
inductive Fault where
  /-- Raised by a meaning, a shared operation or the sequencer where the control registers stand at no point of the
  rule of the command in progress (R25, R26: the listed transitions are the only ones).  Safe: the model stops where
  the spec has no step. -/
  | offSequence
  /-- Raised by `RdByte` on an empty inbound queue, which the transport's duties rule out (R175, R178).  Safe: the
  model stops where the spec has no step. -/
  | emptyRead
  deriving DecidableEq, Repr

/-- Why an instruction has no meaning. -/
inductive Refusal where
  /-- Raised by an arm of `exec` whose instruction has no meaning yet.  Safe.  No arm of this model does. -/
  | notModelled (mnemonic : String)
  deriving DecidableEq, Repr

/-- What a step answers. -/
abbrev StepResult := Host.Outcome State Fault Refusal

/-- The environment beside a BTE just reset: nothing offered, listed, queued or elapsed, and the bus free.  The spec says
of it only that reset does not touch it (R33, R187).  DESIGN CHOICE, log 4. -/
def Env.quiet : Env where
  offers    := []
  resetLine := false
  device    := .oracle []
  draws     := 0
  otherOwns := false
  channel   := { inbound := [], out := [], script := [], chatter := [] }
  clock     := .counters ⟨0, 0, 0⟩ ⟨0, 0, 0⟩
  turns     := []

/-- The machine right after reset (R33, R185).  The latches and working registers have no reset value in the spec and
hold zero here.  DESIGN CHOICE, log 1. -/
def State.reset : State where
  op       := 0
  addr     := 0
  data     := 0
  msb      := 0
  lsb      := 0
  arg      := 0
  payload  := []
  cur      := 0
  mask     := 0
  new      := 0
  last     := 0
  t0       := 0
  idx      := 0
  rxdata   := []
  rbuf     := []
  busy     := false
  rbPhase  := .idle
  txnStep  := .none
  lpState  := .idle
  point    := .idle
  busOwned := false
  sel      := .inactive
  cfg      := Config.defaultHandle
  env      := Env.quiet
  trace    := []

end Sys2Proof.Machine
end

