-- ==== Sys2Proof/Machine/Memory.lean ====
section
/-! DEFINITION. The register memory of `RefDevice` (spec/20_memory.md R65): one byte a location, a list of cells in one
canonical form, so that equal memories are equal lists. -/

namespace Sys2Proof.Machine

open Sys2Proof

/-- What an unlisted address reads as.  The spec gives `RefDevice`'s registers no start value of their own; its vectors
start from zero unless they say otherwise (spec/95_test_vectors.md V2).  DESIGN CHOICE, log 8. -/
def Memory.unlisted : Byte := 0

/-- The byte at an address. -/
def Memory.read : Memory → Nat → Byte
  | [], _ => Memory.unlisted
  | (a, b) :: rest, x => if a = x then b else Memory.read rest x

/-- Lists a byte at an address in its place, dropping the cell that stood there. -/
def Memory.insert : Memory → Nat → Byte → Memory
  | [], x, v => [(x, v)]
  | (a, b) :: rest, x, v =>
    if x < a then (x, v) :: (a, b) :: rest
    else if x = a then (x, v) :: rest
    else (a, b) :: Memory.insert rest x v

/-- Drops the cell at an address. -/
def Memory.erase : Memory → Nat → Memory
  | [], _ => []
  | (a, b) :: rest, x => if a = x then rest else (a, b) :: Memory.erase rest x

/-- Stores a byte: writing what an unlisted address reads as removes the cell. -/
def Memory.write (m : Memory) (x : Nat) (v : Byte) : Memory :=
  if v = Memory.unlisted then m.erase x else m.insert x v

/-- The address lies above the bound, if there is one. -/
def Memory.above : Option Nat → Nat → Bool
  | none, _ => true
  | some low, a => decide (low < a)

/-- Every address listed lies above `low`, they rise strictly, and no cell holds the unlisted byte. -/
def Memory.wfAbove : Option Nat → Memory → Bool
  | _, [] => true
  | low, (a, b) :: rest => Memory.above low a && decide (b ≠ Memory.unlisted) && Memory.wfAbove (some a) rest

/-- The canonical form. -/
def Memory.wf (m : Memory) : Bool := Memory.wfAbove none m

end Sys2Proof.Machine
end

