-- ==== Sys2Proof/Machine/Environment.lean ====
section
/-! DEFINITION. The environment's side of each port event and its moves of its own (spec/00_scope.md R10, R11;
spec/20_memory.md R58, R65, R66; spec/60_exceptions.md R172 to R178). -/

namespace Sys2Proof.Machine

open Sys2Proof

/-! ## `RefDevice` (R65) -/

/-- `load(a)`: the register; on a slow device the old value of a store that loads do not show yet. -/
def RefDevice.load (d : RefDevice) (a : Nat) : Byte × RefDevice :=
  match d.variant with
  | .ideal => (d.reg.read a, d)
  | .stuck _ => (d.reg.read a, d)
  | .slow _ =>
    match d.unsettled.find? (fun u => u.addr == a && u.left != 0) with
    | some u =>
      (u.old, { d with unsettled := d.unsettled.map (fun v => if v.addr = a then { v with left := v.left - 1 } else v) })
    | none => (d.reg.read a, d)

/-- `store(a, b)` of the three variants; a second store to an unsettled address, log 11. -/
def RefDevice.store (d : RefDevice) (a : Nat) (b : Byte) : RefDevice :=
  match d.variant with
  | .ideal => { d with reg := d.reg.write a b }
  | .stuck addrs => if a ∈ addrs then d else { d with reg := d.reg.write a b }
  | .slow k =>
    { d with
      reg := d.reg.write a b
      unsettled := { addr := a, old := d.reg.read a, left := k } :: d.unsettled.filter (fun u => u.addr ≠ a) }

/-- On `BeginTxn()`. -/
def RefDevice.beginTxn (d : RefDevice) : RefDevice := { d with ntxn := d.ntxn + 1 }

/-- On `SelAssert()`. -/
def RefDevice.selAssert (d : RefDevice) : RefDevice := { d with first := true }

/-- The address the next `Xfer` stores to: the pointer, once an address byte that asks for a write has been taken. -/
def RefDevice.target (d : RefDevice) : Option Nat := if !d.first && d.w then some d.a.toNat else none

/-- On `rx <- Xfer(tx)`: the address byte first, then data stored or loaded, the pointer advancing modulo 128. -/
def RefDevice.xfer (d : RefDevice) (tx : Byte) : Byte × RefDevice :=
  if d.first then
    (0, { d with w := tx.getLsbD 7, a := tx.setWidth 7, first := false })
  else
    match d.target with
    | some x => (0, { d.store x tx with a := d.a + 1 })
    | none => ((d.load d.a.toNat).1, { (d.load d.a.toNat).2 with a := d.a + 1 })

/-! ## `CLOCK` (R172, R173, R66) -/

/-- A reading of a counter, once it is answered: time passes (R173 (b)).  The count stands still for the readings its last
passage left to it, and then advances by one tick or more; both are free, so the sequences of readings are those of the laws
of R173 and no others (log 19). -/
def Counter.read (unit : TickUnit) (c : Counter) : Counter :=
  match c.still with
  | k + 1 => { c with still := k }
  | 0 =>
    { ticks := c.ticks + 1 + (Config.freePassage unit c.passages).1
      still := (Config.freePassage unit c.passages).2
      passages := c.passages + 1 }

/-- Time that passes otherwise than at a reading. -/
def Counter.advance (n : Nat) (c : Counter) : Counter := { c with ticks := c.ticks + n }

/-- `NowUs()`: the microsecond count modulo `2^32`. -/
def Clock.nowUs : Clock → Ticks
  | .counters us _ => BitVec.ofNat 32 us.ticks
  | .ref tau _ _ => BitVec.ofNat 32 tau

/-- `NowMs()`: the millisecond count modulo `2^32`. -/
def Clock.nowMs : Clock → Ticks
  | .counters _ ms => BitVec.ofNat 32 ms.ticks
  | .ref tau _ _ => BitVec.ofNat 32 (tau / 1000)

/-- The microsecond count a channel's script is timed by. -/
def Clock.tau : Clock → Nat
  | .counters us _ => us.ticks
  | .ref tau _ _ => tau

/-- The clock after it has answered `NowUs()`: `RefClock` does not move (R66). -/
def Clock.afterNowUs : Clock → Clock
  | .counters us ms => .counters (us.read .us) ms
  | .ref tau xferCost pollCost => .ref tau xferCost pollCost

/-- The clock after it has answered `NowMs()`. -/
def Clock.afterNowMs : Clock → Clock
  | .counters us ms => .counters us (ms.read .ms)
  | .ref tau xferCost pollCost => .ref tau xferCost pollCost

/-- What an `Xfer` adds after answering: nothing, or `XFER_COST`. -/
def Clock.afterXfer : Clock → Clock
  | .counters us ms => .counters us ms
  | .ref tau xferCost pollCost => .ref (tau + xferCost) xferCost pollCost

/-- What an `Avail` adds after answering: nothing, or `POLL_COST`. -/
def Clock.afterAvail : Clock → Clock
  | .counters us ms => .counters us ms
  | .ref tau xferCost pollCost => .ref (tau + pollCost) xferCost pollCost

/-- A move of the clock: each count advances by any amount (R178).  `RefClock` has no such move: no event but `Xfer` and
`Avail` changes its `tau` (R66). -/
def Clock.tick (us ms : Nat) : Clock → Clock
  | .counters u m => .counters (u.advance us) (m.advance ms)
  | .ref tau xferCost pollCost => .ref tau xferCost pollCost

/-! ## The serial channel (R66, R175) -/

/-- The arrival is due at time `tau`. -/
def Arrival.due (tau : Nat) (x : Arrival) : Bool :=
  match x.trigger with
  | .at t => decide (t ≤ tau)
  | .afterOut _ _ => false

/-- A trigger that waits for the `n`-th outbound byte, once `sent` bytes have been written at time `tau`. -/
def Arrival.armed (sent tau : Nat) (x : Arrival) : Arrival :=
  match x.trigger with
  | .at _ => x
  | .afterOut n delay => if n ≤ sent then { x with trigger := .at (tau + delay) } else x

/-- What reaches the queue before an `Avail` at time `tau`: the chatter, then every arrival that is due (log 12). -/
def Channel.receive (tau : Nat) (c : Channel) : Channel :=
  { c with
    inbound := c.inbound ++ c.chatter ++ (c.script.filter (Arrival.due tau)).flatMap (fun x => x.bytes)
    script := c.script.filter (fun x => !Arrival.due tau x) }

/-- `WrByte(b)`: the byte joins the outbound log. -/
def Channel.write (tau : Nat) (b : Byte) (c : Channel) : Channel :=
  { c with
    out := c.out ++ [b]
    script := c.script.map (Arrival.armed (c.out.length + 1) tau) }

/-! ## The port events the environment answers -/

/-- The bus is free: `BeginTxn()` is enabled (spec/40_register_bus.md R100). -/
def Env.busFree (e : Env) : Bool := !e.otherOwns

/-- On `BeginTxn()`. -/
def Env.beginTxn (e : Env) : Env :=
  match e.device with
  | .oracle _ => e
  | .ref d => { e with device := .ref d.beginTxn }

/-- On `SelAssert()`. -/
def Env.selAssert (e : Env) : Env :=
  match e.device with
  | .oracle _ => e
  | .ref d => { e with device := .ref d.selAssert }

/-- `DEV_B`'s answer to an `Xfer`: its next listed answer, else a free byte (R58), or `RefDevice`'s. -/
def Env.answer (e : Env) (tx : Byte) : Byte × Env :=
  match e.device with
  | .oracle [] => (Config.freeByte e.draws, { e with draws := e.draws + 1 })
  | .oracle (b :: answers) => (b, { e with device := .oracle answers })
  | .ref d => ((d.xfer tx).1, { e with device := .ref (d.xfer tx).2 })

/-- `rx <- Xfer(tx)`. -/
def Env.xfer (e : Env) (tx : Byte) : Byte × Env :=
  ((e.answer tx).1, { (e.answer tx).2 with clock := (e.answer tx).2.clock.afterXfer })

/-- `t <- NowUs()`. -/
def Env.nowUs (e : Env) : Ticks × Env := (e.clock.nowUs, { e with clock := e.clock.afterNowUs })

/-- `t <- NowMs()`. -/
def Env.nowMs (e : Env) : Ticks × Env := (e.clock.nowMs, { e with clock := e.clock.afterNowMs })

/-- `n <- Avail()`: the number of bytes queued once what was due has arrived. -/
def Env.avail (e : Env) : Nat × Env :=
  ((e.channel.receive e.clock.tau).inbound.length,
    { e with channel := e.channel.receive e.clock.tau, clock := e.clock.afterAvail })

/-- `b <- RdByte()`: the oldest queued byte; none on an empty queue (R175). -/
def Env.rdByte (e : Env) : Option (Byte × Env) :=
  match e.channel.inbound with
  | [] => none
  | b :: rest => some (b, { e with channel := { e.channel with inbound := rest } })

/-- `WrByte(b)`. -/
def Env.wrByte (e : Env) (b : Byte) : Env := { e with channel := e.channel.write e.clock.tau b }

/-! ## The environment's own moves (R178), less reset, which is the machine's -/

/-- The oracle settles further answers; `RefDevice` has its own. -/
def Device.settleAnswers (answers : List Byte) : Device → Device
  | .oracle pending => .oracle (pending ++ answers)
  | .ref d => .ref d

/-- A register of `RefDevice` changes; the oracle has none.  DESIGN CHOICE, log 14. -/
def Device.change (a : BitVec 7) (b : Byte) : Device → Device
  | .oracle answers => .oracle answers
  | .ref d => .ref { d with reg := d.reg.write a.toNat b }

/-- A move as a change of the environment.  `OTHER` may begin only while `SEQ` does not own the bus (R178, R100);
the two reset moves change the line alone here.  DESIGN CHOICE, log 13. -/
def Env.move (e : Env) (busOwned : Bool) : Move → Env
  | .offer c => { e with offers := e.offers ++ [c] }
  | .assertReset => { e with resetLine := true }
  | .releaseReset => { e with resetLine := false }
  | .devAnswers answers => { e with device := e.device.settleAnswers answers }
  | .devStore a b => { e with device := e.device.change a b }
  | .otherBegin => { e with otherOwns := e.otherOwns || !busOwned }
  | .otherEnd => { e with otherOwns := false }
  | .arrive bytes => { e with channel := { e.channel with inbound := e.channel.inbound ++ bytes } }
  | .tick us ms => { e with clock := e.clock.tick us ms }

end Sys2Proof.Machine
end

