-- ==== Sys2Proof/Machine/Operands.lean ====
section
/-! DEFINITION. Operand latches, the wire address, and the bit-field arithmetic (spec/10_state.md R21; spec/20_memory.md
R47; spec/41_bitfield.md R110 to R114). -/

namespace Sys2Proof.Machine

open Sys2Proof

/-! ## The latches (R21) -/

/-- `CmdAccept(word, payload)`: every latch is loaded at once. -/
def State.latch (c : Command) (s : State) : State :=
  { s with
    op := opField c.word
    addr := addrField c.word
    data := dataField c.word
    msb := msbField c.word
    lsb := lsbField c.word
    arg := arg16Field c.word
    payload := c.payload }

/-- The command word the latches hold; its `zero` field is zero, as in every legal word. -/
def State.latchedWord (s : State) : Word := packWord s.op s.addr s.data s.msb s.lsb s.arg

/-- The command in progress, decoded from the latches (R21: `OP` is used by the "decode of every command"). -/
def State.latched (s : State) : Except IllegalReason Instr := decode s.cfg.mode s.latchedWord s.payload

/-! ## The wire address (R47) -/

/-- `wire_addr(read) = ADDR | CMD_READ`. -/
def wireRead (cfg : DeviceHandle) (addr : Byte) : Byte := addr ||| cfg.cmdRead

/-- `wire_addr(write) = ADDR | CMD_WRITE`. -/
def wireWrite (cfg : DeviceHandle) (addr : Byte) : Byte := addr ||| cfg.cmdWrite

/-! ## Bit fields -/

/-- `valid(msb, lsb)` (R110). -/
def validRange (msb lsb : Byte) : Bool :=
  decide (msb.toNat ≤ 7) && decide (lsb.toNat ≤ 7) && decide (lsb.toNat ≤ msb.toNat)

/-- `trunc_8` (R8). -/
def trunc8 (n : Nat) : Byte := BitVec.ofNat 8 n

/-- `M(msb, lsb)`: shifts on naturals, without loss, truncated at the end (R111, R112). -/
def fieldMask (msb lsb : Byte) : Byte :=
  trunc8 ((1 <<< (msb.toNat + 1)) - 1) &&& ~~~ trunc8 ((1 <<< lsb.toNat) - 1)

/-- `field(cur, msb, lsb)` (R113). -/
def extractField (cur msb lsb : Byte) : Byte := (cur &&& fieldMask msb lsb) >>> lsb.toNat

/-- `merge(cur, value, msb, lsb)`: `value` right-aligned (R114; spec/90_conflicts.md C1). -/
def mergeField (cur value msb lsb : Byte) : Byte :=
  (cur &&& ~~~ fieldMask msb lsb) ||| (trunc8 (value.toNat <<< lsb.toNat) &&& fieldMask msb lsb)

end Sys2Proof.Machine
end

