-- ==== Sys2Proof/Machine/Flags.lean ====
section
/-! DEFINITION. What stands in the place of flags.  The BTE has no flags register (spec/10_state.md R28); its conditions
are the status of a result, the window test and the classification of a response. -/

namespace Sys2Proof.Machine

open Sys2Proof

/-- The status codes (spec/30_encoding.md R83). -/
def Status.code : Status → Byte
  | .ok => 0x00
  | .invalidBitRange => 0x01
  | .writeVerificationFailed => 0x02
  | .lineFailure => 0x03
  | .illegalCommand => 0x04

/-- `(t - T0) mod 2^32 >= limit`, unsigned (spec/41_bitfield.md R118, spec/42_line_protocol.md R143). -/
def windowElapsed (t t0 limit : Ticks) : Bool := decide (limit.toNat ≤ (t - t0).toNat)

/-- `KW_OK`, the bytes of "OK" (spec/30_encoding.md R87). -/
def kwOk : List Byte := [0x4F, 0x4B]

/-- `KW_ERR`, the bytes of "ERROR" (R87). -/
def kwErr : List Byte := [0x45, 0x52, 0x52, 0x4F, 0x52]

/-- `contains(s, k)` (R145): the keyword stands at the front, or further on. -/
def contains : List Byte → List Byte → Bool
  | [], k => k.isPrefixOf []
  | b :: s, k => k.isPrefixOf (b :: s) || contains s k

/-- The verdict on a response buffer. -/
inductive Verdict where
  | success
  | failure
  | pending
  deriving DecidableEq, Repr

/-- `classify(RBUF)`: `KW_OK` is tested first (R144). -/
def classify (rbuf : List Byte) : Verdict :=
  if contains rbuf kwOk then .success
  else if contains rbuf kwErr then .failure
  else .pending

end Sys2Proof.Machine
end

