-- ==== Sys2Proof/Machine/Ops.lean ====
section
/-! DEFINITION. The shared operations: performing a port event, ending a command (the one place an error is raised and a
result returned), the bus transaction, the inbound flush, the outbound write and the response wait.

Each operation performs the ONE port event that is next, so a step of the machine is one port event of `SEQ`
(spec/10_state.md R24: only runs of steps without a port event may be fused; log 21). -/

namespace Sys2Proof.Machine

open Sys2Proof

/-- The event joins the trace (spec/20_memory.md R60: all port events form one total order). -/
def State.emit (e : Event) (s : State) : State := { s with trace := s.trace ++ [e] }

/-! ## Ending a command (spec/60_exceptions.md R161) -/

/-- The end of a command with a result: the phases return to `IDLE`, `RBUF` is cleared, the `Result` is delivered and `BUSY`
is cleared; nothing is saved.  `TXN_STEP` is `T_NONE` already. -/
def State.finish (status : Status) (value : Byte) (data : List Byte) (s : State) : State :=
  { s with
    rbPhase := .idle
    lpState := .idle
    rbuf := []
    point := .idle
    busy := false
    trace := s.trace ++ [.result status.code value data] }

/-- `return Result(OK, value, data)`. -/
def State.deliver (value : Byte) (data : List Byte) (s : State) : State := s.finish .ok value data

/-- `raise E`: the error status, value `0x00` and no data (R161, spec/30_encoding.md R84).  What a command's rule places
before the raise (the `DbgDiag` of R120) has its own step before it. -/
def State.raise (status : Status) (s : State) : State := s.finish status 0x00 []

/-- Reset is asserted (spec/70_reset_and_hazards.md R185, R186): the command in progress is abandoned without a `Result`;
`SelDeassert()` and `EndTxn()` are performed if owed, in that order; the registers take their reset values; the handle,
the trace and the environment (but for its reset line) stay.  DESIGN CHOICE, log 15. -/
def State.assertReset (s : State) : State :=
  { State.reset with
    cfg := s.cfg
    env := { s.env with resetLine := true }
    trace := s.trace ++ (if s.sel = .active then [.selDeassert] else [])
      ++ (if s.busOwned then [.endTxn] else []) }

/-! ## The bus transaction (spec/40_register_bus.md R97 to R101) -/

/-- `TXN_STEP <- T_ACQ` at the head of `Txn`; the hold for the bus comes next. -/
def State.openTxn (s : State) : State := { s with txnStep := .acq, point := .txn }

/-- Where the received payload bytes of a transaction go. -/
inductive Capture where
  /-- nowhere: a write discards what it receives (R99, spec/20_memory.md R56) -/
  | discard
  /-- `RXDATA`, in the order received (R98) -/
  | rxdata
  /-- `CUR` -/
  | cur
  /-- `LAST` -/
  | last
  deriving DecidableEq, Repr

/-- A received payload byte goes where the command keeps it.  DEDUCED, log 9. -/
def State.capture (c : Capture) (b : Byte) (s : State) : State :=
  match c with
  | .discard => s
  | .rxdata => { s with rxdata := s.rxdata ++ [b] }
  | .cur => { s with cur := b }
  | .last => { s with last := b }

/-- One port event of `Txn(cmd, n, tx)`, with `wire` the address-plus-command byte and `n` the length of `tx`.  Every received
data byte goes to `capture` as it arrives; the byte received with the address is discarded (spec/20_memory.md R56);
`released` is what the command does, without a port event, once `EndTxn` has happened.  Held unchanged while another
user owns the bus (R100).  `IDX`: log 10. -/
def busStep (wire : Byte) (tx : List Byte) (capture : Capture) (released : State → State)
    (s : State) : StepResult :=
  match s.txnStep with
  | .none => .fault .offSequence
  | .acq =>
    if s.env.busFree then
      .next ({ s with busOwned := true, txnStep := .sel, env := s.env.beginTxn }.emit .beginTxn)
    else .next s
  | .sel => .next ({ s with sel := .active, txnStep := .addr, env := s.env.selAssert }.emit .selAssert)
  | .addr =>
    let s' := { s with env := (s.env.xfer wire).2 }.emit (.xfer wire (s.env.xfer wire).1)
    .next (if tx = [] then { s' with txnStep := .desel } else { s' with txnStep := .data, idx := 0 })
  | .data =>
    match tx[s.idx.toNat]? with
    | none => .fault .offSequence
    | some b =>
      let s' := ({ s with env := (s.env.xfer b).2 }.emit (.xfer b (s.env.xfer b).1)).capture capture (s.env.xfer b).1
      .next (if s.idx.toNat + 1 < tx.length then { s' with idx := s.idx + 1 } else { s' with txnStep := .desel })
  | .desel => .next ({ s with sel := .inactive, txnStep := .rel }.emit .selDeassert)
  | .rel => .next (released ({ s with busOwned := false, txnStep := .none }.emit .endTxn))

/-- The `Result` is the next event. -/
def State.owe (status : Status) (s : State) : State := { s with point := .owe status }

/-- The payload positions of `MemRead(addr, n)`: `n` fillers (R98). -/
def fillers (cfg : DeviceHandle) (n : Nat) : List Byte := List.replicate n cfg.filler

/-- One port event of `MemRead(addr, n)` (R98). -/
def readStep (addr : Byte) (n : Nat) (capture : Capture) (released : State → State) (s : State) :
    StepResult :=
  busStep (wireRead s.cfg addr) (fillers s.cfg n) capture released s

/-- One port event of `MemWrite(addr, n, v)` (R99). -/
def writeStep (addr : Byte) (v : List Byte) (released : State → State) (s : State) : StepResult :=
  busStep (wireWrite s.cfg addr) v .discard released s

/-! ## Time -/

/-- `T0 <- NowUs()`. -/
def State.sampleUs (s : State) : State := { s with t0 := s.env.nowUs.1, env := s.env.nowUs.2 }.emit (.nowUs s.env.nowUs.1)

/-- `T0 <- NowMs()`. -/
def State.sampleMs (s : State) : State := { s with t0 := s.env.nowMs.1, env := s.env.nowMs.2 }.emit (.nowMs s.env.nowMs.1)

/-! ## The inbound flush (spec/42_line_protocol.md R132) -/

/-- `n <- Avail()` of `flush`; at zero the flush is over and `drained` says what the command does then. -/
def flushAvailStep (drained : State → State) (s : State) : StepResult :=
  let s' := { s with env := s.env.avail.2 }.emit (.avail s.env.avail.1)
  .next (if s.env.avail.1 = 0 then drained s' else { s' with point := .flushRead })

/-- `_ <- RdByte()` of `flush`: discarded, neither buffered nor mirrored. -/
def flushReadStep (s : State) : StepResult :=
  match s.env.rdByte with
  | none => .fault .emptyRead
  | some (b, env') => .next ({ s with env := env', point := .flushAvail }.emit (.rdByte b))

/-! ## The outbound write (R136) -/

/-- The sending is over: `LP_STATE <- AWAITING`, `RBUF <- []`, and `T0` is sampled next (R142, R143). -/
def State.enterAwait (s : State) : State := { s with lpState := .awaiting, rbuf := [], point := .sample }

/-- Where the sending stands with these payload and terminator bytes still to send; over when none is left (R134, R139). -/
def State.toSend (payload term : List Byte) (s : State) : State :=
  if payload ≠ [] then { s with point := .send payload }
  else if term ≠ [] then { s with point := .term term }
  else s.enterAwait

/-- `IDX <- i; WrByte(bytes[i])`, with `i` the number of bytes of `whole` sent before (log 10). -/
def State.sendByte (whole rest : List Byte) (b : Byte) (s : State) : State :=
  { s with env := s.env.wrByte b, idx := BitVec.ofNat 16 (whole.length - (rest.length + 1)) }.emit (.wrByte b)

/-! ## The response wait (R142) -/

/-- `RBUF <- RBUF ++ [b]` and its classification: a verdict ends the wait and clears `RBUF` (R142, R144, R148). -/
def State.receive (b : Byte) (s : State) : State :=
  match classify (s.rbuf ++ [b]) with
  | .success => { s with lpState := .success, rbuf := [], point := .owe .ok }
  | .failure => { s with lpState := .failure, rbuf := [], point := .owe .lineFailure }
  | .pending => { s with rbuf := s.rbuf ++ [b], point := .window }

/-- `t <- NowMs()` and the timeout test, made before every `Avail()` (R143). -/
def awaitWindowStep (s : State) : StepResult :=
  let t := s.env.nowMs.1
  let s' := { s with env := s.env.nowMs.2 }.emit (.nowMs t)
  .next (if windowElapsed t s.t0 s.cfg.responseTimeoutMs then
      { s' with lpState := .failure, rbuf := [], point := .owe .lineFailure }
    else { s' with point := .poll })

/-- `n <- Avail()` of the wait. -/
def awaitPollStep (s : State) : StepResult :=
  let s' := { s with env := s.env.avail.2 }.emit (.avail s.env.avail.1)
  .next (if s.env.avail.1 = 0 then { s' with point := .window } else { s' with point := .read })

/-- `b <- RdByte()` of the wait; the mirror comes before the classification when `DEBUG_EN` is set (R147). -/
def awaitReadStep (s : State) : StepResult :=
  match s.env.rdByte with
  | none => .fault .emptyRead
  | some (b, env') =>
    let s' := { s with env := env' }.emit (.rdByte b)
    .next (if s.cfg.debugEn then { s' with point := .mirror b } else s'.receive b)

/-- One port event of an exchange: flush, payload, terminator, wait (R131, R134, R135). -/
def exchangeStep (payload : List Byte) (s : State) : StepResult :=
  match s.lpState, s.point with
  | .idle, .idle => .next { s with lpState := .sending, point := .flushAvail }
  | .sending, .flushAvail => flushAvailStep (State.toSend payload s.cfg.lineTerm) s
  | .sending, .flushRead => flushReadStep s
  | .sending, .send (b :: rest) => .next ((s.sendByte payload rest b).toSend rest s.cfg.lineTerm)
  | .sending, .term (b :: rest) => .next ((s.sendByte s.cfg.lineTerm rest b).toSend [] rest)
  | .awaiting, .sample => .next { s.sampleMs with point := .window }
  | .awaiting, .window => awaitWindowStep s
  | .awaiting, .poll => awaitPollStep s
  | .awaiting, .read => awaitReadStep s
  | .awaiting, .mirror b => .next ((s.emit (.dbgByte b)).receive b)
  | .success, .owe .ok => .next (s.deliver 0x00 [])
  | .failure, .owe .lineFailure => .next (s.raise .lineFailure)
  | _, _ => .fault .offSequence

end Sys2Proof.Machine
end

