-- ==== Sys2Proof/Machine/BitField.lean ====
section
/-! DEFINITION. The bit-field commands (spec/41_bitfield.md R115 to R125). -/

namespace Sys2Proof.Machine

open Sys2Proof

/-- The range check of R110 comes first: an invalid range leaves `RB_PHASE` at `IDLE` and owes `InvalidBitRange`; a valid one
starts the read. -/
def fieldStart (msb lsb : Byte) (s : State) : State :=
  if validRange msb lsb then { s with rbPhase := .bfRead }.openTxn else s.owe .invalidBitRange

/-- `GETBF addr, msb, lsb` (R115). -/
def execGetbf (addr msb lsb : Byte) (s : State) : StepResult :=
  match s.rbPhase, s.point with
  | .idle, .idle => .next (fieldStart msb lsb s)
  | .idle, .owe .invalidBitRange => .next (s.raise .invalidBitRange)
  | .bfRead, .txn => readStep addr 1 .cur (fun u => { u with mask := fieldMask msb lsb }.owe .ok) s
  | .bfRead, .owe .ok => .next (s.deliver ((s.cur &&& s.mask) >>> lsb.toNat) [])
  | _, _ => .fault .offSequence

/-- The read of `SETBF` has released the bus: `MASK` and `NEW` are computed and the write begins (R116, R123). -/
def setbfMerge (value msb lsb : Byte) (s : State) : State :=
  { s with
    mask := fieldMask msb lsb
    new := mergeField s.cur value msb lsb
    rbPhase := .bfWrite }.openTxn

/-- `T0 <- NowUs(); LAST <- 0x00` (R119). -/
def setbfSample (s : State) : State := { s.sampleUs with last := 0x00, rbPhase := .bfPoll, point := .window }

/-- `t <- NowUs()` and the window test, made before every poll read (R118). -/
def setbfWindow (win : Half) (s : State) : State :=
  let t := s.env.nowUs.1
  let s' := { s with env := s.env.nowUs.2 }.emit (.nowUs t)
  if windowElapsed t s.t0 (win.setWidth 32) then
    if s.cfg.debugEn then { s' with point := .diag } else s'.owe .writeVerificationFailed
  else s'.openTxn

/-- A poll read has released the bus: the whole byte is compared (R124). -/
def setbfCompare (s : State) : State := if s.last = s.new then s.owe .ok else { s with point := .window }

/-- The record of `DbgDiag` (R120). -/
def setbfRecord (addr value msb lsb : Byte) (s : State) : DiagRecord where
  addr  := addr
  msb   := msb
  lsb   := lsb
  value := value
  cur   := s.cur
  mask  := s.mask
  new   := s.new
  last  := s.last

/-- `SETBF addr, value, msb, lsb, win` (R116). -/
def execSetbf (addr value msb lsb : Byte) (win : Half) (s : State) : StepResult :=
  match s.rbPhase, s.point with
  | .idle, .idle => .next (fieldStart msb lsb s)
  | .idle, .owe .invalidBitRange => .next (s.raise .invalidBitRange)
  | .bfRead, .txn => readStep addr 1 .cur (setbfMerge value msb lsb) s
  | .bfWrite, .txn => writeStep addr [s.new] (fun u => { u with point := .sample }) s
  | .bfWrite, .sample => .next (setbfSample s)
  | .bfPoll, .window => .next (setbfWindow win s)
  | .bfPoll, .txn => readStep addr 1 .last setbfCompare s
  | .bfPoll, .diag =>
    .next ((s.emit (.dbgDiag (setbfRecord addr value msb lsb s))).owe .writeVerificationFailed)
  | .bfPoll, .owe .ok => .next (s.deliver 0x00 [])
  | .bfPoll, .owe .writeVerificationFailed => .next (s.raise .writeVerificationFailed)
  | _, _ => .fault .offSequence

end Sys2Proof.Machine
end

