-- ==== Sys2Proof/Machine/LineProtocol.lean ====
section
/-! DEFINITION. The line commands (spec/42_line_protocol.md R133 to R151). -/

namespace Sys2Proof.Machine

open Sys2Proof

/-- `FLUSH` (R133): `LP_STATE` stays `IDLE` throughout (spec/10_state.md R26). -/
def execFlush (s : State) : StepResult :=
  match s.lpState, s.point with
  | .idle, .idle => .next { s with point := .flushAvail }
  | .idle, .flushAvail => flushAvailStep (State.owe .ok) s
  | .idle, .flushRead => flushReadStep s
  | .idle, .owe .ok => .next (s.deliver 0x00 [])
  | _, _ => .fault .offSequence

/-- `SENDCMD "text"` (R134): the text is bytes, written as they are (R137, R138). -/
def execSendcmd (text : List Byte) (s : State) : StepResult := exchangeStep text s

/-- `SENDDATA [bytes]` (R135): the same exchange on the wire (R131). -/
def execSenddata (bytes : List Byte) (s : State) : StepResult := exchangeStep bytes s

end Sys2Proof.Machine
end

