-- ==== Sys2Proof/Machine/RegisterBus.lean ====
section
/-! DEFINITION. The plain register commands (spec/40_register_bus.md R102 to R107): one transaction each, no retry, no
verification.  A meaning is one port event of the command, at the point where `SEQ` stands in it. -/

namespace Sys2Proof.Machine

open Sys2Proof

/-- `RDREG addr` (R102). -/
def execRdreg (addr : Byte) (s : State) : StepResult :=
  match s.rbPhase, s.point with
  | .idle, .idle => .next { s with rbPhase := .plain, rxdata := [] }.openTxn
  | .plain, .txn => readStep addr 1 .rxdata (State.owe .ok) s
  | .plain, .owe .ok =>
    match s.rxdata with
    | b :: _ => .next (s.deliver b [])
    | [] => .fault .offSequence
  | _, _ => .fault .offSequence

/-- `WRREG addr, byte` (R103). -/
def execWrreg (addr byte : Byte) (s : State) : StepResult :=
  match s.rbPhase, s.point with
  | .idle, .idle => .next { s with rbPhase := .plain }.openTxn
  | .plain, .txn => writeStep addr [byte] (State.owe .ok) s
  | .plain, .owe .ok => .next (s.deliver 0x00 [])
  | _, _ => .fault .offSequence

/-- `RDBURST addr, count` (R104; a count of zero, R106). -/
def execRdburst (addr : Byte) (count : Half) (s : State) : StepResult :=
  match s.rbPhase, s.point with
  | .idle, .idle => .next { s with rbPhase := .plain, rxdata := [] }.openTxn
  | .plain, .txn => readStep addr count.toNat .rxdata (State.owe .ok) s
  | .plain, .owe .ok => .next (s.deliver 0x00 s.rxdata)
  | _, _ => .fault .offSequence

/-- `WRBURST addr, [bytes]` (R105; no bytes, R106). -/
def execWrburst (addr : Byte) (bytes : List Byte) (s : State) : StepResult :=
  match s.rbPhase, s.point with
  | .idle, .idle => .next { s with rbPhase := .plain }.openTxn
  | .plain, .txn => writeStep addr bytes (State.owe .ok) s
  | .plain, .owe .ok => .next (s.deliver 0x00 [])
  | _, _ => .fault .offSequence

end Sys2Proof.Machine
end

