-- ==== Sys2Proof/Machine/Dispatch.lean ====
section
/-! DEFINITION. One arm per command: the next step of the command in progress. -/

namespace Sys2Proof.Machine

open Sys2Proof

def exec (i : Instr) (s : State) : Host.Outcome State Fault Refusal :=
  match i with
  | .rdreg addr => Sys2Proof.Machine.execRdreg addr s
  | .wrreg addr byte => Sys2Proof.Machine.execWrreg addr byte s
  | .rdburst addr count => Sys2Proof.Machine.execRdburst addr count s
  | .wrburst addr bytes => Sys2Proof.Machine.execWrburst addr bytes s
  | .getbf addr msb lsb => Sys2Proof.Machine.execGetbf addr msb lsb s
  | .setbf addr value msb lsb win => Sys2Proof.Machine.execSetbf addr value msb lsb win s
  | .flush => Sys2Proof.Machine.execFlush s
  | .sendcmd text => Sys2Proof.Machine.execSendcmd text s
  | .senddata bytes => Sys2Proof.Machine.execSenddata bytes s

end Sys2Proof.Machine
end

