-- ==== Sys2Proof/Machine/Sequencer.lean ====
section
/-! DEFINITION. The sequencer around `exec`: taking a command from the command port, going on with the one in progress, and
the moves of the environment. -/

namespace Sys2Proof.Machine

open Sys2Proof

/-- `CmdAccept(word, payload)`: the latches are loaded and `BUSY` is set (spec/10_state.md R21, R24; spec/30_encoding.md
R70).  The command leaves the caller's offers. -/
def State.accept (c : Command) (s : State) : State :=
  { s.latch c with
    busy := true
    env := { s.env with offers := s.env.offers.tail } }.emit (.cmdAccept c.word c.payload)

/-- A step of `SEQ` while `BUSY = 0`: the first command offered is accepted and decoded; a legal one makes its start, which
is no port event, an illegal one owes `IllegalCommand` (R75 to R77, spec/60_exceptions.md R159).  With nothing offered
`SEQ` waits (log 18). -/
def State.acceptStep (s : State) : StepResult :=
  match s.env.offers with
  | [] => .next s
  | c :: _ =>
    match decode s.cfg.mode c.word c.payload with
    | .ok i => exec i (s.accept c)
    | .error _ => .next ((s.accept c).owe .illegalCommand)

/-- A step of `SEQ` while `BUSY = 1`: the owed `IllegalCommand`, or the next step of the command the latches hold. -/
def State.continueStep (s : State) : StepResult :=
  match s.point with
  | .owe .illegalCommand => .next (s.raise .illegalCommand)
  | _ =>
    match s.latched with
    | .ok i => exec i s
    | .error _ => .fault .offSequence

/-- A step of `SEQ`: none while reset is asserted (spec/70_reset_and_hazards.md R185). -/
def seqStep (s : State) : StepResult :=
  if s.env.resetLine then .next s
  else if s.busy then s.continueStep
  else s.acceptStep

/-- A move of the environment (spec/60_exceptions.md R178).  Asserting reset is the one move that reaches the BTE's own
registers (R185, R186). -/
def State.environmentMove (m : Move) (s : State) : State :=
  match m with
  | .assertReset => s.assertReset
  | m => { s with env := s.env.move s.busOwned m }

/-- The machine whose next turn is taken from the list. -/
def State.dropTurn (s : State) : State := { s with env := { s.env with turns := s.env.turns.tail } }

/-- One step: the listed turn, or `SEQ`'s when none is listed (log 4). -/
def turnStep (s : State) : StepResult :=
  match s.env.turns with
  | [] => seqStep s
  | .seq :: _ => seqStep s.dropTurn
  | .env m :: _ => .next (s.dropTurn.environmentMove m)

/-- `k` steps of one command without a turn of the environment between them: what `SEQ` performs on its own. -/
def execFor (i : Instr) : Nat → State → StepResult
  | 0, s => .next s
  | k + 1, s =>
    match exec i s with
    | .next s' => execFor i k s'
    | .fault r => .fault r
    | .refused r => .refused r

/-- The machine ready for a command (spec/10_state.md R34): every control register as after reset, the rest as it stands. -/
def State.ready (s : State) : State :=
  { s with
    busy := false
    rbPhase := .idle
    txnStep := .none
    lpState := .idle
    point := .idle
    busOwned := false
    sel := .inactive
    rbuf := [] }

/-- The machine ready, of the mode the word's opcode needs, with the command alone on offer and the next turn `SEQ`'s. -/
def State.offerWord (s : State) (word : Word) : State :=
  { s.ready with
    cfg := { s.cfg with mode := tableMode word }
    env := { s.env with
      offers := [{ word := word, payload := tablePayload word }]
      resetLine := false
      turns := [] } }

end Sys2Proof.Machine
end

