-- ==== Sys2Proof/Machine/Step.lean ====
section
/-! DEFINITION. The step of the machine, and the place its next command is fetched from.

The BTE fetches nothing from memory: `SEQ` takes each command from the command port (spec/20_memory.md R63). -/

namespace Sys2Proof.Machine

open Sys2Proof

/-- One step of the machine: a port event or a start of `SEQ`, or a move of the environment. -/
def step (s : State) : Host.Outcome State Fault Refusal := turnStep s

/-- `s` with the command whose word is `w` at the command port, so that the next step accepts and runs it.  `MODE` is a
parameter of the instance (R27), so the instance is one whose `MODE` runs that opcode; the payload is the one the table
stands for (log 7). -/
def State.withFetchWord (s : State) (nbits w : Nat) : State := s.offerWord (BitVec.ofNat 64 (w % 2 ^ nbits))

end Sys2Proof.Machine
end

