-- ==== Sys2Proof/Safety.lean ====
section
/-! DEFINITION. The terms claims are made in: the invariant of the machine, its launch premises and ends, the parts of a trace,
and the whole of a command's events as the spec's pseudocode gives them. -/

namespace Sys2Proof.Machine

open Sys2Proof

/-! ## Ready, final, held -/

/-- The launch premises of spec/10_state.md R34. -/
def Ready (s : State) : Prop :=
  s.busy = false ∧ s.busOwned = false ∧ s.sel = .inactive ∧ s.rbuf = [] ∧ s.lpState = .idle ∧ s.rbPhase = .idle

/-- The end of a run (spec/70_reset_and_hazards.md R205): no command is in progress, none is offered, and no turn to come offers
one, so that the `Result` of the last command is delivered.  A run whose last command reset abandoned without a `Result`
(R186), and one without any command, have ended too.  DESIGN CHOICE, log 23. -/
def Final (s : State) : Prop := s.busy = false ∧ s.env.offers = [] ∧ ∀ c, .env (.offer c) ∉ s.env.turns

/-- `SEQ` is at the head of its command, right after `CmdAccept`. -/
def AtStart (s : State) : Prop := s.rbPhase = .idle ∧ s.lpState = .idle ∧ s.point = .idle

/-! ## The invariant -/

/-- The interface state agrees with `TXN_STEP` (R29, R97). -/
def BusAgrees (s : State) : Prop :=
  match s.txnStep with
  | .none | .acq => s.busOwned = false ∧ s.sel = .inactive
  | .sel | .rel => s.busOwned = true ∧ s.sel = .inactive
  | .addr | .data | .desel => s.busOwned = true ∧ s.sel = .active

/-- `SEQ` is inside a transaction of `n` payload positions. -/
def InTxn (n : Nat) (s : State) : Prop :=
  s.point = .txn ∧ s.txnStep ≠ .none ∧ (s.txnStep = .data → s.idx.toNat < n)

/-- `SEQ` stands between transactions, at this point. -/
def Between (p : Point) (s : State) : Prop := s.point = p ∧ s.txnStep = .none

/-- How many payload bytes of the transaction have been captured. -/
def capturedCount (n : Nat) (s : State) : Nat :=
  match s.txnStep with
  | .data => s.idx.toNat
  | .desel | .rel | .none => n
  | .acq | .sel | .addr => 0

/-- A plain command is in progress (R25): its one transaction, or its `Result` owed. -/
def InPlain (n : Nat) (s : State) : Prop :=
  s.rbPhase = .plain ∧ s.lpState = .idle ∧ (InTxn n s ∨ Between (.owe .ok) s)

/-- A bit-field command whose range is invalid owes `InvalidBitRange` (R110). -/
def OwesInvalidRange (msb lsb : Byte) (s : State) : Prop :=
  validRange msb lsb = false ∧ s.rbPhase = .idle ∧ s.lpState = .idle ∧ Between (.owe .invalidBitRange) s

/-- `GETBF` in progress (R25, R115). -/
def InGetbf (msb lsb : Byte) (s : State) : Prop :=
  OwesInvalidRange msb lsb s ∨
  (validRange msb lsb = true ∧ s.rbPhase = .bfRead ∧ s.lpState = .idle ∧
    (InTxn 1 s ∨ (Between (.owe .ok) s ∧ s.mask = fieldMask msb lsb)))

/-- `SETBF` in progress (R25, R116). -/
def InSetbf (value msb lsb : Byte) (s : State) : Prop :=
  OwesInvalidRange msb lsb s ∨
  (validRange msb lsb = true ∧ s.lpState = .idle ∧
    ((s.rbPhase = .bfRead ∧ InTxn 1 s) ∨
     (s.mask = fieldMask msb lsb ∧ s.new = mergeField s.cur value msb lsb ∧
      ((s.rbPhase = .bfWrite ∧ (InTxn 1 s ∨ Between .sample s)) ∨
       (s.rbPhase = .bfPoll ∧
        (InTxn 1 s ∨ Between .window s ∨ Between .diag s ∨ (Between (.owe .ok) s ∧ s.last = s.new) ∨
          Between (.owe .writeVerificationFailed) s))))))

/-- `FLUSH` in progress (R26, R133). -/
def InFlush (s : State) : Prop :=
  s.rbPhase = .idle ∧ s.lpState = .idle ∧ s.txnStep = .none ∧
  (s.point = .flushAvail ∨ (s.point = .flushRead ∧ s.env.channel.inbound ≠ []) ∨ s.point = .owe .ok)

/-- An exchange in progress (R26, R134, R135). -/
def InExchange (s : State) : Prop :=
  s.rbPhase = .idle ∧ s.txnStep = .none ∧
  ((s.lpState = .sending ∧
      (s.point = .flushAvail ∨ (s.point = .flushRead ∧ s.env.channel.inbound ≠ []) ∨
        (∃ b rest, s.point = .send (b :: rest)) ∨ (∃ b rest, s.point = .term (b :: rest)))) ∨
   (s.lpState = .awaiting ∧
      (s.point = .sample ∨ s.point = .window ∨ s.point = .poll ∨
        (s.point = .read ∧ s.env.channel.inbound ≠ []) ∨ (∃ b, s.point = .mirror b))) ∨
   (s.lpState = .success ∧ s.point = .owe .ok) ∨
   (s.lpState = .failure ∧ s.point = .owe .lineFailure))

/-- The control registers stand at a point of the command's rule. -/
def InSequence : Instr → State → Prop
  | .rdreg _, s => InPlain 1 s ∧ s.rxdata.length = capturedCount 1 s
  | .wrreg _ _, s => InPlain 1 s
  | .rdburst _ count, s => InPlain count.toNat s ∧ s.rxdata.length = capturedCount count.toNat s
  | .wrburst _ bytes, s => InPlain bytes.length s
  | .getbf _ msb lsb, s => InGetbf msb lsb s
  | .setbf _ value msb lsb _, s => InSetbf value msb lsb s
  | .flush, s => InFlush s
  | .sendcmd _, s => InExchange s
  | .senddata _, s => InExchange s

/-- An illegal command waits for its `Result` (R159). -/
def OwesIllegal (s : State) : Prop :=
  s.rbPhase = .idle ∧ s.lpState = .idle ∧ Between (.owe .illegalCommand) s

/-- A device's register memory is in its canonical form. -/
def Device.canonical : Device → Bool
  | .oracle _ => true
  | .ref d => d.reg.wf

/-- The invariant every step keeps. -/
structure Inv (s : State) : Prop where
  /-- ownership and the select line follow `TXN_STEP` (R29) -/
  bus : BusAgrees s
  /-- at most one user owns the bus (spec/20_memory.md R64) -/
  exclusive : s.busOwned = true → s.env.otherOwns = false
  /-- with `BUSY = 0` every phase register rests -/
  resting : s.busy = false → AtStart s ∧ s.txnStep = .none
  /-- with `BUSY = 1` the latches hold the command in progress, at a point of its rule, or an illegal command waits for its
  result -/
  running : s.busy = true → OwesIllegal s ∨ ∃ i, s.latched = .ok i ∧ InSequence i s
  /-- `RBUF` holds bytes during the wait only (R30) -/
  buffer : s.lpState ≠ .awaiting → s.rbuf = []
  /-- and never a keyword: the wait ends where one is completed (spec/42_line_protocol.md R146) -/
  unclassified : classify s.rbuf = .pending
  /-- the LineProtocol engine rests with `MODE = BYTE` (R26) -/
  byteMode : s.cfg.mode = .byte → s.lpState = .idle
  /-- and the RegisterBus engine with `MODE = LINE` (R25, R29) -/
  lineMode : s.cfg.mode = .line → s.rbPhase = .idle ∧ s.txnStep = .none
  /-- the test device's memory is canonical -/
  memory : s.env.device.canonical = true

/-! ## What a command leaves alone -/

/-- The operand latches are the same. -/
def SameLatches (s t : State) : Prop :=
  t.op = s.op ∧ t.addr = s.addr ∧ t.data = s.data ∧ t.msb = s.msb ∧ t.lsb = s.lsb ∧ t.arg = s.arg ∧ t.payload = s.payload

/-- The parts of the environment no port event of the byte bus reaches are the same: the caller, the reset line, the other
users' ownership, the serial channel and the turns to come. -/
def SameOffBus (s t : State) : Prop :=
  t.env.offers = s.env.offers ∧ t.env.resetLine = s.env.resetLine ∧ t.env.otherOwns = s.env.otherOwns ∧
    t.env.channel = s.env.channel ∧ t.env.turns = s.env.turns

/-- The parts of the environment no port event of the serial channel reaches are the same: the caller, the reset line, the
other users' ownership, the device on the byte bus and the turns to come. -/
def SameOffLine (s t : State) : Prop :=
  t.env.offers = s.env.offers ∧ t.env.resetLine = s.env.resetLine ∧ t.env.otherOwns = s.env.otherOwns ∧
    t.env.device = s.env.device ∧ t.env.draws = s.env.draws ∧ t.env.turns = s.env.turns

/-- The RegisterBus engine stands where it stood. -/
def SameBusState (s t : State) : Prop := t.txnStep = s.txnStep ∧ t.busOwned = s.busOwned ∧ t.sel = s.sel

/-- The LineProtocol engine and `BUSY` stand where they stood, or the command has ended and both rest
(spec/60_exceptions.md R161). -/
def LineRestsOrEnds (s t : State) : Prop :=
  (t.lpState = s.lpState ∧ t.rbuf = s.rbuf ∧ t.busy = s.busy) ∨ (t.lpState = .idle ∧ t.rbuf = [] ∧ t.busy = false)

/-- The next turn is not the environment's. -/
def SeqTurn (s : State) : Prop := s.env.turns = [] ∨ ∃ rest, s.env.turns = .seq :: rest

/-! ## Kinds of events -/

/-- An event of the byte-bus transport. -/
def Event.isBus : Event → Bool
  | .beginTxn | .selAssert | .xfer _ _ | .selDeassert | .endTxn => true
  | .cmdAccept _ _ | .result _ _ _ | .avail _ | .rdByte _ | .wrByte _ | .dbgByte _ | .dbgDiag _ | .nowMs _ | .nowUs _ => false

/-- An event of the serial transport. -/
def Event.isSerial : Event → Bool
  | .avail _ | .rdByte _ | .wrByte _ => true
  | .cmdAccept _ _ | .result _ _ _ | .beginTxn | .selAssert | .xfer _ _ | .selDeassert | .endTxn | .dbgByte _ | .dbgDiag _
  | .nowMs _ | .nowUs _ => false

/-- An event of the debug sink. -/
def Event.isDebug : Event → Bool
  | .dbgByte _ | .dbgDiag _ => true
  | .cmdAccept _ _ | .result _ _ _ | .beginTxn | .selAssert | .xfer _ _ | .selDeassert | .endTxn | .avail _ | .rdByte _
  | .wrByte _ | .nowMs _ | .nowUs _ => false

/-- A `Result`. -/
def Event.isResult : Event → Bool
  | .result _ _ _ => true
  | .cmdAccept _ _ | .beginTxn | .selAssert | .xfer _ _ | .selDeassert | .endTxn | .avail _ | .rdByte _ | .wrByte _
  | .dbgByte _ | .dbgDiag _ | .nowMs _ | .nowUs _ => false

/-- A `CmdAccept`. -/
def Event.isAccept : Event → Bool
  | .cmdAccept _ _ => true
  | .result _ _ _ | .beginTxn | .selAssert | .xfer _ _ | .selDeassert | .endTxn | .avail _ | .rdByte _ | .wrByte _
  | .dbgByte _ | .dbgDiag _ | .nowMs _ | .nowUs _ => false

/-- A reading of the microsecond counter. -/
def Event.isNowUs : Event → Bool
  | .nowUs _ => true
  | .cmdAccept _ _ | .result _ _ _ | .beginTxn | .selAssert | .xfer _ _ | .selDeassert | .endTxn | .avail _ | .rdByte _
  | .wrByte _ | .dbgByte _ | .dbgDiag _ | .nowMs _ => false

/-- A reading of the millisecond counter. -/
def Event.isNowMs : Event → Bool
  | .nowMs _ => true
  | .cmdAccept _ _ | .result _ _ _ | .beginTxn | .selAssert | .xfer _ _ | .selDeassert | .endTxn | .avail _ | .rdByte _
  | .wrByte _ | .dbgByte _ | .dbgDiag _ | .nowUs _ => false

/-- The same machine without a debug sink: `DEBUG_EN` clear, the debug events gone from the trace, and a debug event that was
next already passed. -/
def State.withoutDebug (s : State) : State :=
  let u := { s with cfg := { s.cfg with debugEn := false }, trace := s.trace.filter (fun e => !e.isDebug) }
  match s.point with
  | .mirror b => u.receive b
  | .diag => u.owe .writeVerificationFailed
  | _ => u

/-! ## A whole transaction (spec/40_register_bus.md R97) -/

/-- The payload positions: the bytes received and the environment after them. -/
def Env.transfers : List Byte → Env → List Byte × Env
  | [], e => ([], e)
  | b :: tx, e => ((e.xfer b).1 :: (Env.transfers tx (e.xfer b).2).1, (Env.transfers tx (e.xfer b).2).2)

/-- What one transaction gives: the byte received with the address, those of the payload positions, and the environment. -/
structure TxnRun where
  first : Byte
  rx    : List Byte
  env   : Env
  deriving DecidableEq, Repr

/-- One whole transaction as the environment answers it. -/
def Env.transaction (wire : Byte) (tx : List Byte) (e : Env) : TxnRun where
  first := (e.beginTxn.selAssert.xfer wire).1
  rx    := (Env.transfers tx (e.beginTxn.selAssert.xfer wire).2).1
  env   := (Env.transfers tx (e.beginTxn.selAssert.xfer wire).2).2

/-- Its trace: `BeginTxn, SelAssert, Xfer x (1 + n), SelDeassert, EndTxn`. -/
def TxnRun.events (wire : Byte) (tx : List Byte) (r : TxnRun) : List Event :=
  [.beginTxn, .selAssert, .xfer wire r.first] ++ List.zipWith Event.xfer tx r.rx ++ [.selDeassert, .endTxn]

/-- The one byte of a read of one byte. -/
def TxnRun.byte (r : TxnRun) : Byte := r.rx.headD 0

/-- `IDX` after a transaction of `n` payload positions. -/
def idxAfter (n : Nat) (s : State) : Half := if n = 0 then s.idx else BitVec.ofNat 16 (n - 1)

/-! ## The verification poll (spec/41_bitfield.md R116) -/

/-- The environment before the `k`-th window test, the first being number 0: each test reads the clock, each poll read is a
transaction. -/
def pollEnv (cfg : DeviceHandle) (addr : Byte) (e : Env) : Nat → Env
  | 0 => e
  | k + 1 => ((pollEnv cfg addr e k).nowUs.2.transaction (addr ||| cfg.cmdRead) [cfg.filler]).env

/-- The `k`-th poll read, behind the `k`-th test. -/
def pollRun (cfg : DeviceHandle) (addr : Byte) (e : Env) (k : Nat) : TxnRun :=
  (pollEnv cfg addr e k).nowUs.2.transaction (addr ||| cfg.cmdRead) [cfg.filler]

/-- The `k`-th window test and the poll read behind it. -/
def pollEvents (cfg : DeviceHandle) (addr : Byte) (e : Env) (k : Nat) : List Event :=
  .nowUs (pollEnv cfg addr e k).clock.nowUs :: (pollRun cfg addr e k).events (addr ||| cfg.cmdRead) [cfg.filler]

/-- The window that began at `t0` has elapsed at the `k`-th test. -/
def pollElapsed (cfg : DeviceHandle) (addr : Byte) (win : Half) (t0 : Ticks) (e : Env) (k : Nat) : Bool :=
  windowElapsed (pollEnv cfg addr e k).clock.nowUs t0 (win.setWidth 32)

/-- The read and the write of `SETBF`: what they give. -/
structure SetbfRun where
  read  : TxnRun
  new   : Byte
  write : TxnRun
  deriving DecidableEq, Repr

/-- The two transactions before the poll, each with its address byte (R47); the write carries the merged byte. -/
def setbfRun (addr value msb lsb : Byte) (s : State) : SetbfRun :=
  let read := s.env.transaction (addr ||| s.cfg.cmdRead) [s.cfg.filler]
  let new := mergeField read.byte value msb lsb
  { read := read, new := new, write := read.env.transaction (addr ||| s.cfg.cmdWrite) [new] }

/-- `T0`, sampled behind the write (R119). -/
def SetbfRun.t0 (r : SetbfRun) : Ticks := r.write.env.clock.nowUs

/-- The environment in which the poll begins. -/
def SetbfRun.env (r : SetbfRun) : Env := r.write.env.nowUs.2

/-- The events of `SETBF` up to and with the sample of `T0`. -/
def SetbfRun.events (r : SetbfRun) (cfg : DeviceHandle) (addr : Byte) : List Event :=
  r.read.events (addr ||| cfg.cmdRead) [cfg.filler] ++ r.write.events (addr ||| cfg.cmdWrite) [r.new] ++ [.nowUs r.t0]

/-! ## The serial channel -/

/-- The device on the line sends nothing more: no arrival is to come. -/
def Channel.silent (c : Channel) : Prop := c.script = [] ∧ c.chatter = []

/-- The clock after `k` times `Avail`. -/
def Clock.afterAvails : Nat → Clock → Clock
  | 0, c => c
  | k + 1, c => Clock.afterAvails k c.afterAvail

/-- The events of a flush of the queue `q`: `Avail` and `RdByte` a byte, and the last `Avail` (R132). -/
def flushEvents : List Byte → List Event
  | [] => [.avail 0]
  | b :: q => [.avail (q.length + 1), .rdByte b] ++ flushEvents q

/-- The clock before the `k`-th timeout test of a wait, the first being number 0: each test and each `Avail` reaches it. -/
def waitClock (c : Clock) : Nat → Clock
  | 0 => c
  | k + 1 => waitClock c.afterNowMs.afterAvail k

/-- The events of the wait reading `bytes` while `left` more bytes are queued behind them, from this clock on (R142). -/
def waitEvents (debugEn : Bool) (left : Nat) : Clock → List Byte → List Event
  | _, [] => []
  | c, b :: bytes =>
    [.nowMs c.nowMs, .avail (bytes.length + 1 + left), .rdByte b] ++ (if debugEn then [.dbgByte b] else []) ++
      waitEvents debugEn left c.afterNowMs.afterAvail bytes

end Sys2Proof.Machine
end

