-- ==== Sys2Proof/Certificates/Slice0/Obligations.lean ====
section
/-! DEFINITION. The statements for the provers.

A command takes several steps of `exec`, one a port event: `execFor i k s` is `k` of them on end, and a statement of a whole
command says in which state they end.  Where a final state is written as an update of `s` or of `s.ready`, every field not
named there is unchanged: that is the command's frame. -/

open Sys2Proof Sys2Proof.Machine

/-! ## Reset -/

/-- R34: the launch premises hold after reset. -/
def Obligations.ResetGivesTheLaunchPremises : Prop :=
  State.reset.busy = false ∧ State.reset.busOwned = false ∧ State.reset.sel = .inactive ∧ State.reset.rbuf = [] ∧
    State.reset.lpState = .idle ∧ State.reset.rbPhase = .idle

/-- The machine's invariant holds after reset. -/
def Obligations.ResetSatisfiesTheInvariant : Prop := Inv State.reset

/-- Reset during a command abandons it without a `Result`; the select line is released and then the bus, where owed (R186); the
phases rest and the handle stays (R33, R185).  That all of it happens in the step that asserts reset, and that the release
events leave the device and the environment as they were, is the model's choice (log 15). -/
def Obligations.ResetAbandonsTheCommand : Prop :=
  ∀ (s : State) (rest : List Turn), s.env.turns = .env .assertReset :: rest →
    ∃ t, step s = .next t ∧
      t.busy = false ∧ t.rbPhase = .idle ∧ t.txnStep = .none ∧ t.lpState = .idle ∧ t.busOwned = false ∧
      t.sel = .inactive ∧ t.rbuf = [] ∧ t.cfg = s.cfg ∧ t.env = { s.env with turns := rest, resetLine := true } ∧
      t.trace = s.trace ++ (if s.sel = .active then [.selDeassert] else []) ++ (if s.busOwned then [.endTxn] else [])

/-- While reset is asserted `SEQ` takes no step. -/
def Obligations.ResetHoldsTheSequencer : Prop :=
  ∀ s : State, s.env.resetLine = true →
    (s.env.turns = [] → step s = .next s) ∧
    (∀ rest, s.env.turns = .seq :: rest → step s = .next { s with env := { s.env with turns := rest } })

/-! ## The step -/

/-- A step of `SEQ` runs the command: the first one offered, decoded under `MODE`, or the one the latches hold; an illegal one
owes `IllegalCommand` and then delivers it. -/
def Obligations.StepRunsTheDecodedCommand : Prop :=
  ∀ s : State, s.env.turns = [] → s.env.resetLine = false →
    (s.busy = false → s.env.offers = [] → step s = .next s) ∧
    (s.busy = false → ∀ c rest, s.env.offers = c :: rest →
      (∀ i, decode s.cfg.mode c.word c.payload = .ok i → step s = exec i (s.accept c)) ∧
      (∀ r, decode s.cfg.mode c.word c.payload = .error r → step s = .next ((s.accept c).owe .illegalCommand))) ∧
    (s.busy = true → s.point = .owe .illegalCommand → step s = .next (s.raise .illegalCommand)) ∧
    (s.busy = true → s.point ≠ .owe .illegalCommand → ∀ i, s.latched = .ok i → step s = exec i s)

/-- `CmdAccept` of any pair, legal or not, loads every latch at once from the fields of the word and the payload; `BUSY` is set
and the command leaves the port (R21).  The latches then hold the command, if the pair spells one. -/
def Obligations.AcceptLoadsTheLatches : Prop :=
  ∀ (s : State) (c : Command),
    s.accept c = { s with
      op := c.word.extractLsb' 56 8, addr := c.word.extractLsb' 48 8, data := c.word.extractLsb' 40 8
      msb := c.word.extractLsb' 32 8, lsb := c.word.extractLsb' 24 8, arg := c.word.extractLsb' 8 16
      payload := c.payload, busy := true
      env := { s.env with offers := s.env.offers.tail }
      trace := s.trace ++ [.cmdAccept c.word c.payload] } ∧
    ∀ i : Instr, decode s.cfg.mode c.word c.payload = .ok i → (s.accept c).latched = .ok i

/-- The steps of the machine, from the one that accepts a command on, are the steps of `exec` on that command, as long as it is
in progress and the environment takes no turn: what is stated of `execFor` is stated of a run. -/
def Obligations.StepsRunTheWholeCommand : Prop :=
  ∀ (s t : State) (c : Command) (rest : List Command) (i : Instr) (k : Nat),
    s.busy = false → s.env.turns = [] → s.env.resetLine = false → s.env.offers = c :: rest →
    decode s.cfg.mode c.word c.payload = .ok i →
    (∀ j, 0 < j → j ≤ k → ∃ u, execFor i j (s.accept c) = .next u ∧ u.busy = true) →
    execFor i (k + 1) (s.accept c) = .next t →
    Host.Core.run Sys2Proof.core (k + 1) s = .next t

/-- A turn listed for `SEQ` is a step of `SEQ`; a move of the environment, reset apart, changes the environment alone, and of it
what R178 lets the agent change.  The model's choices are the list of turns (log 4), the move of another user that changes
nothing while `SEQ` owns the bus (log 13), the moves of the device (log 14) and the offers to come (log 18). -/
def Obligations.TurnsAreTakenInOrder : Prop :=
  ∀ (s : State) (rest : List Turn),
    (s.env.turns = .seq :: rest → step s = seqStep { s with env := { s.env with turns := rest } }) ∧
    (∀ m, m ≠ .assertReset → s.env.turns = .env m :: rest →
      step s = .next { s with env := ({ s.env with turns := rest } : Env).move s.busOwned m }) ∧
    (∀ c, s.env.turns = .env (.offer c) :: rest →
      step s = .next { s with env := { s.env with turns := rest, offers := s.env.offers ++ [c] } }) ∧
    (s.env.turns = .env .releaseReset :: rest →
      step s = .next { s with env := { s.env with turns := rest, resetLine := false } }) ∧
    (∀ answers, s.env.turns = .env (.devAnswers answers) :: rest →
      (∀ pending, s.env.device = .oracle pending →
        step s = .next { s with env := { s.env with turns := rest, device := .oracle (pending ++ answers) } }) ∧
      (∀ d, s.env.device = .ref d → step s = .next { s with env := { s.env with turns := rest } })) ∧
    (∀ a b, s.env.turns = .env (.devStore a b) :: rest →
      (∀ d, s.env.device = .ref d → d.reg.wf = true →
        ∃ reg, step s = .next { s with env := { s.env with turns := rest, device := .ref { d with reg := reg } } } ∧
          reg.wf = true ∧ ∀ x, Memory.read reg x = if x = a.toNat then b else d.reg.read x) ∧
      (∀ pending, s.env.device = .oracle pending → step s = .next { s with env := { s.env with turns := rest } })) ∧
    (s.env.turns = .env .otherBegin :: rest →
      (s.busOwned = false → step s = .next { s with env := { s.env with turns := rest, otherOwns := true } }) ∧
      (s.busOwned = true → step s = .next { s with env := { s.env with turns := rest } })) ∧
    (s.env.turns = .env .otherEnd :: rest →
      step s = .next { s with env := { s.env with turns := rest, otherOwns := false } }) ∧
    (∀ bytes, s.env.turns = .env (.arrive bytes) :: rest →
      step s = .next { s with env := { s.env with
        turns := rest
        channel := { s.env.channel with inbound := s.env.channel.inbound ++ bytes } } }) ∧
    (∀ us ms, s.env.turns = .env (.tick us ms) :: rest →
      (∀ u m, s.env.clock = .counters u m →
        step s = .next { s with env := { s.env with
          turns := rest
          clock := .counters { u with ticks := u.ticks + us } { m with ticks := m.ticks + ms } } }) ∧
      (∀ tau xferCost pollCost, s.env.clock = .ref tau xferCost pollCost →
        step s = .next { s with env := { s.env with turns := rest } }))

/-! ## Encoding -/

/-- The worked encodings of R89, the legal and the illegal ones. -/
def Obligations.WordsOfTheSpecDecode : Prop :=
  decode .byte 0x0101000000000000 [] = .ok (.rdreg 0x01) ∧
  decode .byte 0x0201F00000000000 [] = .ok (.wrreg 0x01 0xF0) ∧
  decode .byte 0x0310000000000300 [] = .ok (.rdburst 0x10 3) ∧
  decode .byte 0x0410000000000300 [0x01, 0x02, 0x03] = .ok (.wrburst 0x10 [1, 2, 3]) ∧
  decode .byte 0x0501000301000000 [] = .ok (.getbf 0x01 3 1) ∧
  decode .byte 0x060105030107D000 [] = .ok (.setbf 0x01 0b101 3 1 2000) ∧
  assemble (.setbf 0x01 0b101 3 1 none) = some (.setbf 0x01 0b101 3 1 2000) ∧
  decode .line 0x1000000000000000 [] = .ok .flush ∧
  decode .line 0x1100000000000200 [0x41, 0x54] = .ok (.sendcmd [0x41, 0x54]) ∧
  decode .line 0x1200000000000300 [0xDE, 0xAD, 0x00] = .ok (.senddata [0xDE, 0xAD, 0x00]) ∧
  (∀ m, ∃ r, decode m 0x0000000000000000 [] = .error r) ∧
  (∀ m, ∃ r, decode m 0x0101000000000001 [] = .error r) ∧
  (∀ m, ∃ r, decode m 0x0101AA0000000000 [] = .error r) ∧
  (∀ m, ∃ r, decode m 0x1000000000000100 [] = .error r) ∧
  (∀ m, ∃ r, decode m 0x1100000000000200 [0x41, 0x54, 0x0D] = .error r) ∧
  (∃ r, decode .line 0x0101000000000000 [] = .error r)

/-- Decoding the encoding of a well-formed command gives it back, with every operand at every value. -/
def Obligations.DecodeGivesBackTheEncodedCommand : Prop :=
  ∀ i : Instr, i.wellFormed = true → decode i.engine (encodeWord i) (encodePayload i) = .ok i

/-- A pair that decodes is the encoding of the command it decodes to, well-formed and of the selected engine: each command has
one spelling. -/
def Obligations.DecodedPairsAreEncodings : Prop :=
  ∀ (m : Mode) (w : Word) (payload : List Byte) (i : Instr), decode m w payload = .ok i →
    i.wellFormed = true ∧ i.engine = m ∧ encodeWord i = w ∧ encodePayload i = payload

/-- R77: a pair is illegal exactly when one of the five tests (a) to (e) finds it so. -/
def Obligations.IllegalPairsAreThoseOfTheFiveTests : Prop :=
  ∀ (m : Mode) (w : Word) (payload : List Byte),
    (∃ r, decode m w payload = .error r) ↔
      ((∀ k : Opcode, k.code ≠ opField w) ∨
       (∃ k : Opcode, k.code = opField w ∧
          (k.engine ≠ m ∨ zeroField w ≠ 0 ∨ w &&& k.mask ≠ k.matchWord ∨
            payload.length ≠ if k.carriesPayload then (arg16Field w).toNat else 0)))

/-- R76: under each mode only the opcodes of its engine spell a command; an opcode of the other engine is illegal. -/
def Obligations.ModeSelectsTheEngine : Prop :=
  (∀ (w : Word) (payload : List Byte) (i : Instr), decode .byte w payload = .ok i →
    0x01 ≤ (opField w).toNat ∧ (opField w).toNat ≤ 0x06) ∧
  (∀ (w : Word) (payload : List Byte) (i : Instr), decode .line w payload = .ok i →
    0x10 ≤ (opField w).toNat ∧ (opField w).toNat ≤ 0x12) ∧
  (∀ (m m' : Mode) (w : Word) (payload : List Byte) (i : Instr), decode m w payload = .ok i → m' ≠ m →
    ∃ r, decode m' w payload = .error r)

/-- An illegal command loads the latches and performs no port event but its `Result(IllegalCommand, 0x00, [])`. -/
def Obligations.IllegalCommandsOnlyAnswer : Prop :=
  ∀ (s : State) (c : Command) (rest : List Command) (r : IllegalReason),
    s.busy = false → s.env.turns = [] → s.env.resetLine = false → s.env.offers = c :: rest →
    decode s.cfg.mode c.word c.payload = .error r →
    Host.Core.run Sys2Proof.core 2 s = .next { s.latch c with
      rbPhase := .idle, lpState := .idle, rbuf := [], point := .idle, busy := false
      env := { s.env with offers := rest }
      trace := s.trace ++ [.cmdAccept c.word c.payload, .result 0x04 0x00 []] }

/-! ## Arithmetic -/

/-- R111: the mask is exactly the bits `lsb` to `msb`, as a sum of powers, as the difference of two shifts, and in the source's own
form. -/
def Obligations.MaskIsExactlyTheRange : Prop :=
  ∀ msb lsb : Byte, validRange msb lsb = true →
    (∀ i < 8, (fieldMask msb lsb).getLsbD i = decide (lsb.toNat ≤ i ∧ i ≤ msb.toNat)) ∧
    (fieldMask msb lsb).toNat =
      (((List.range 8).filter (fun i => decide (lsb.toNat ≤ i ∧ i ≤ msb.toNat))).map (fun i => 2 ^ i)).sum ∧
    fieldMask msb lsb = trunc8 ((1 <<< (msb.toNat + 1)) - 1) &&& ~~~ trunc8 ((1 <<< lsb.toNat) - 1) ∧
    fieldMask msb lsb = ~~~ (trunc8 (0xFF <<< (msb.toNat + 1)) ||| trunc8 (0xFF >>> (8 - lsb.toNat)))

/-- R113: extraction gives the field right-aligned, within its range, whatever the other bits are. -/
def Obligations.ExtractionReadsTheFieldAlone : Prop :=
  ∀ msb lsb cur : Byte, validRange msb lsb = true →
    extractField cur msb lsb = (cur &&& fieldMask msb lsb) >>> lsb.toNat ∧
    (∀ i < 8, (extractField cur msb lsb).getLsbD i =
      (decide (i ≤ msb.toNat - lsb.toNat) && cur.getLsbD (lsb.toNat + i))) ∧
    (extractField cur msb lsb).toNat ≤ 2 ^ (msb.toNat - lsb.toNat + 1) - 1 ∧
    (∀ cur' : Byte, cur' &&& fieldMask msb lsb = cur &&& fieldMask msb lsb →
      extractField cur' msb lsb = extractField cur msb lsb)

/-- R126: merge leaves every bit outside the field; extracting after merging gives the low bits of the value; the whole byte;
and a field shifted back is the masked byte. -/
def Obligations.MergeAndExtractAgree : Prop :=
  (∀ msb lsb cur value : Byte, validRange msb lsb = true →
    mergeField cur value msb lsb &&& ~~~ fieldMask msb lsb = cur &&& ~~~ fieldMask msb lsb ∧
    extractField (mergeField cur value msb lsb) msb lsb =
      value &&& BitVec.ofNat 8 (2 ^ (msb.toNat - lsb.toNat + 1) - 1) ∧
    extractField cur msb lsb <<< lsb.toNat = cur &&& fieldMask msb lsb) ∧
  (∀ cur value : Byte, mergeField cur value 7 0 = value ∧ extractField cur 7 0 = cur)

/-- R117: the source's worked example. -/
def Obligations.MaskedMergeExample : Prop :=
  fieldMask 3 1 = 0x0E ∧ mergeField 0b11110000 0b101 3 1 = 0b11111010

/-- R145: `contains` is the search for the keyword at any position. -/
def Obligations.ContainsIsSubstringSearch : Prop :=
  ∀ s k : List Byte,
    contains s k = true ↔ ∃ i, i + k.length ≤ s.length ∧ ∀ j < k.length, s[i + j]? = k[j]?

/-- R146: where the buffer held no keyword before a byte, the verdict on it with the byte is read off its last bytes, `4F 4B` or
`45 52 52 4F 52` (R87), and the two keywords do not complete at one byte. -/
def Obligations.VerdictIsReadOffTheLastBytes : Prop :=
  ∀ (rbuf : List Byte) (b : Byte),
    contains rbuf [0x4F, 0x4B] = false → contains rbuf [0x45, 0x52, 0x52, 0x4F, 0x52] = false →
    (classify (rbuf ++ [b]) = .success ↔ [0x4F, 0x4B] <:+ rbuf ++ [b]) ∧
    (classify (rbuf ++ [b]) = .failure ↔ [0x45, 0x52, 0x52, 0x4F, 0x52] <:+ rbuf ++ [b]) ∧
    ¬ (contains (rbuf ++ [b]) [0x4F, 0x4B] = true ∧ contains (rbuf ++ [b]) [0x45, 0x52, 0x52, 0x4F, 0x52] = true)

/-! ## Where a command starts and where it ends -/

/-- At the head of its command `SEQ` enters the phase R25 and R26 give, with no port event.  That `RDREG` and `RDBURST` empty
`RXDATA` there, and not once their read has returned, is the model's choice (log 9). -/
def Obligations.EachCommandStarts : Prop :=
  ∀ s : State, AtStart s →
    (∀ addr, exec (.rdreg addr) s = .next { s with rbPhase := .plain, rxdata := [], txnStep := .acq, point := .txn }) ∧
    (∀ addr byte, exec (.wrreg addr byte) s = .next { s with rbPhase := .plain, txnStep := .acq, point := .txn }) ∧
    (∀ addr count,
      exec (.rdburst addr count) s = .next { s with rbPhase := .plain, rxdata := [], txnStep := .acq, point := .txn }) ∧
    (∀ addr bytes, exec (.wrburst addr bytes) s = .next { s with rbPhase := .plain, txnStep := .acq, point := .txn }) ∧
    (∀ addr msb lsb, validRange msb lsb = true →
      exec (.getbf addr msb lsb) s = .next { s with rbPhase := .bfRead, txnStep := .acq, point := .txn }) ∧
    (∀ addr value msb lsb win, validRange msb lsb = true →
      exec (.setbf addr value msb lsb win) s = .next { s with rbPhase := .bfRead, txnStep := .acq, point := .txn }) ∧
    exec .flush s = .next { s with point := .flushAvail } ∧
    (∀ text, exec (.sendcmd text) s = .next { s with lpState := .sending, point := .flushAvail }) ∧
    (∀ bytes, exec (.senddata bytes) s = .next { s with lpState := .sending, point := .flushAvail })

/-- R84: the `value` and `data` of each command's `Result(OK, value, data)`, from the registers its events filled. -/
def Obligations.EachCommandDeliversItsResult : Prop :=
  ∀ s : State, s.point = .owe .ok →
    (s.rbPhase = .plain → ∀ addr b, s.rxdata = [b] →
      exec (.rdreg addr) s = .next { s with
        rbPhase := .idle, lpState := .idle, rbuf := [], point := .idle, busy := false
        trace := s.trace ++ [.result 0x00 b []] }) ∧
    (s.rbPhase = .plain → ∀ addr byte,
      exec (.wrreg addr byte) s = .next { s with
        rbPhase := .idle, lpState := .idle, rbuf := [], point := .idle, busy := false
        trace := s.trace ++ [.result 0x00 0x00 []] }) ∧
    (s.rbPhase = .plain → ∀ addr count,
      exec (.rdburst addr count) s = .next { s with
        rbPhase := .idle, lpState := .idle, rbuf := [], point := .idle, busy := false
        trace := s.trace ++ [.result 0x00 0x00 s.rxdata] }) ∧
    (s.rbPhase = .plain → ∀ addr bytes,
      exec (.wrburst addr bytes) s = .next { s with
        rbPhase := .idle, lpState := .idle, rbuf := [], point := .idle, busy := false
        trace := s.trace ++ [.result 0x00 0x00 []] }) ∧
    (s.rbPhase = .bfRead → ∀ addr msb lsb, s.mask = fieldMask msb lsb →
      exec (.getbf addr msb lsb) s = .next { s with
        rbPhase := .idle, lpState := .idle, rbuf := [], point := .idle, busy := false
        trace := s.trace ++ [.result 0x00 (extractField s.cur msb lsb) []] }) ∧
    (s.rbPhase = .bfPoll → ∀ addr value msb lsb win,
      exec (.setbf addr value msb lsb win) s = .next { s with
        rbPhase := .idle, lpState := .idle, rbuf := [], point := .idle, busy := false
        trace := s.trace ++ [.result 0x00 0x00 []] }) ∧
    (s.lpState = .idle →
      exec .flush s = .next { s with
        rbPhase := .idle, lpState := .idle, rbuf := [], point := .idle, busy := false
        trace := s.trace ++ [.result 0x00 0x00 []] }) ∧
    (s.lpState = .success → ∀ text,
      exec (.sendcmd text) s = .next { s with
        rbPhase := .idle, lpState := .idle, rbuf := [], point := .idle, busy := false
        trace := s.trace ++ [.result 0x00 0x00 []] }) ∧
    (s.lpState = .success → ∀ bytes,
      exec (.senddata bytes) s = .next { s with
        rbPhase := .idle, lpState := .idle, rbuf := [], point := .idle, busy := false
        trace := s.trace ++ [.result 0x00 0x00 []] })

/-! ## RegisterBus: whole commands -/

/-- `RDREG` is one read transaction of one byte, the address byte `ADDR | CMD_READ` and the payload position `FILLER`, and delivers
the byte (R47, R97, R98, R102).  That it leaves `IDX` at 0 is the model's
choice (log 10). -/
def Obligations.RdregIsOneReadTransaction : Prop :=
  ∀ (addr : Byte) (s : State) (r : TxnRun), AtStart s → s.env.otherOwns = false →
    r = s.env.transaction (addr ||| s.cfg.cmdRead) [s.cfg.filler] →
    execFor (.rdreg addr) 8 s = .next { s.ready with
      idx := 0
      rxdata := [r.byte]
      env := r.env
      trace := s.trace ++ r.events (addr ||| s.cfg.cmdRead) [s.cfg.filler] ++ [.result 0x00 r.byte []] }

/-- `WRREG` is one write transaction of one byte, behind the address byte `ADDR | CMD_WRITE` (R47, R97, R103).  That it leaves `IDX` at 0 is the model's choice (log 10). -/
def Obligations.WrregIsOneWriteTransaction : Prop :=
  ∀ (addr byte : Byte) (s : State) (r : TxnRun), AtStart s → s.env.otherOwns = false →
    r = s.env.transaction (addr ||| s.cfg.cmdWrite) [byte] →
    execFor (.wrreg addr byte) 8 s = .next { s.ready with
      idx := 0
      env := r.env
      trace := s.trace ++ r.events (addr ||| s.cfg.cmdWrite) [byte] ++ [.result 0x00 0x00 []] }

/-- R104: `RDBURST` is one read transaction of exactly `count` bytes, `count = 0` included, and delivers them in order. -/
def Obligations.RdburstReadsExactlyCountBytes : Prop :=
  ∀ (addr : Byte) (count : Half) (s : State) (tx : List Byte) (r : TxnRun), AtStart s → s.env.otherOwns = false →
    tx = List.replicate count.toNat s.cfg.filler → r = s.env.transaction (addr ||| s.cfg.cmdRead) tx →
    r.rx.length = count.toNat ∧
    execFor (.rdburst addr count) (count.toNat + 7) s = .next { s.ready with
      idx := idxAfter count.toNat s
      rxdata := r.rx
      env := r.env
      trace := s.trace ++ r.events (addr ||| s.cfg.cmdRead) tx ++ [.result 0x00 0x00 r.rx] }

/-- R105: `WRBURST` is one write transaction of its payload, the empty one included, in order. -/
def Obligations.WrburstWritesItsPayloadInOrder : Prop :=
  ∀ (addr : Byte) (bytes : List Byte) (s : State) (r : TxnRun),
    payloadFits bytes = true → AtStart s → s.env.otherOwns = false →
    r = s.env.transaction (addr ||| s.cfg.cmdWrite) bytes →
    execFor (.wrburst addr bytes) (bytes.length + 7) s = .next { s.ready with
      idx := idxAfter bytes.length s
      env := r.env
      trace := s.trace ++ r.events (addr ||| s.cfg.cmdWrite) bytes ++ [.result 0x00 0x00 []] }

/-- A transaction is held at `T_ACQ` while another user owns the bus, for ever if it is never released, and begins when the bus
is free (R100).  That a move by which another user begins while `SEQ` owns the bus changes nothing is the model's choice: the
spec lists it as a duty of the other users (log 13). -/
def Obligations.TransactionsWaitForTheBus : Prop :=
  ∀ (i : Instr) (s : State), s.point = .txn → s.txnStep = .acq →
    ((s.rbPhase = .plain ∧ i.opcode ∈ [.rdreg, .wrreg, .rdburst, .wrburst]) ∨
     (s.rbPhase = .bfRead ∧ i.opcode ∈ [.getbf, .setbf]) ∨
     ((s.rbPhase = .bfWrite ∨ s.rbPhase = .bfPoll) ∧ i.opcode = .setbf)) →
    (s.env.otherOwns = true → ∀ k, execFor i k s = .next s) ∧
    (s.env.otherOwns = false →
      exec i s = .next { s with
        busOwned := true, txnStep := .sel, env := s.env.beginTxn, trace := s.trace ++ [.beginTxn] }) ∧
    (∀ u : State, u.busOwned = true → (u.environmentMove .otherBegin).env.otherOwns = u.env.otherOwns)

/-- On the ideal `RefDevice` of R65 a `WRREG` stores its byte at its address and nowhere else, and an `RDREG` then delivers it. -/
def Obligations.WrregThenRdregOnTheIdealDevice : Prop :=
  ∀ (addr byte : Byte) (s : State) (d : RefDevice), AtStart s → s.env.otherOwns = false →
    s.env.device = .ref d → d.variant = .ideal → d.reg.wf = true → s.cfg.cmdRead = 0x00 → s.cfg.cmdWrite = 0x80 →
    addr.toNat < 128 →
    ∃ t u d', execFor (.wrreg addr byte) 8 s = .next t ∧ t.env.device = .ref d' ∧
      (∀ x, d'.reg.read x = if x = addr.toNat then byte else d.reg.read x) ∧
      execFor (.rdreg addr) 8 t = .next u ∧ u.trace.getLast? = some (.result 0x00 byte [])

/-- The command bits are OR'd into the address unmasked: on the ideal `RefDevice` an `RDREG` of an address with the write bit set is
taken as a write of the filler byte (R190). -/
def Obligations.ReadsOfAWriteAddressStoreTheFiller : Prop :=
  ∀ (addr : Byte) (s : State) (d : RefDevice), AtStart s → s.env.otherOwns = false →
    s.env.device = .ref d → d.variant = .ideal → d.reg.wf = true → s.cfg.cmdRead = 0x00 → 128 ≤ addr.toNat →
    ∃ t d', execFor (.rdreg addr) 8 s = .next t ∧ t.trace.getLast? = some (.result 0x00 0x00 []) ∧
      t.env.device = .ref d' ∧
      ∀ x, d'.reg.read x = if x = addr.toNat - 128 then s.cfg.filler else d.reg.read x

/-! ## Bit fields: whole commands -/

/-- R110: an invalid range is refused from the operands alone, before any port event but the `Result`. -/
def Obligations.InvalidRangesTouchNoPort : Prop :=
  ∀ (i : Instr) (addr value msb lsb : Byte) (win : Half) (s : State),
    i = .getbf addr msb lsb ∨ i = .setbf addr value msb lsb win →
    ¬ (msb.toNat ≤ 7 ∧ lsb.toNat ≤ 7 ∧ lsb.toNat ≤ msb.toNat) → AtStart s →
    execFor i 2 s = .next { s with
      rbuf := [], busy := false
      trace := s.trace ++ [.result 0x01 0x00 []] }

/-- `GETBF` with a valid range is one read transaction and delivers the field of the byte read; with an invalid one it ends in
`InvalidBitRange` with no port event before (R97, R115).  That it leaves `IDX` at 0 is the model's choice (log 10). -/
def Obligations.GetbfDeliversTheField : Prop :=
  ∀ (addr msb lsb : Byte) (s : State) (r : TxnRun), AtStart s →
    r = s.env.transaction (addr ||| s.cfg.cmdRead) [s.cfg.filler] →
    (validRange msb lsb = true → s.env.otherOwns = false →
      execFor (.getbf addr msb lsb) 8 s = .next { s.ready with
        idx := 0
        cur := r.byte
        mask := fieldMask msb lsb
        env := r.env
        trace := s.trace ++ r.events (addr ||| s.cfg.cmdRead) [s.cfg.filler] ++
          [.result 0x00 (extractField r.byte msb lsb) []] }) ∧
    (validRange msb lsb = false →
      execFor (.getbf addr msb lsb) 2 s = .next { s with
        rbuf := [], busy := false
        trace := s.trace ++ [.result 0x01 0x00 []] })

/-- `SETBF` with a valid range, where the window has not elapsed at the tests before poll reads 0 to `n` and poll read `n` is
the first to match: read, write, `T0`, the polls, `Result(OK, 0x00, [])`.  That it leaves `IDX` at 0 is the model's choice
(log 10). -/
def Obligations.SetbfEndsAtTheFirstMatch : Prop :=
  ∀ (addr value msb lsb : Byte) (win : Half) (s : State) (n : Nat) (r : SetbfRun),
    validRange msb lsb = true → AtStart s → s.env.otherOwns = false → r = setbfRun addr value msb lsb s →
    (∀ k ≤ n, pollElapsed s.cfg addr win r.t0 r.env k = false) →
    (∀ k < n, (pollRun s.cfg addr r.env k).byte ≠ r.new) →
    (pollRun s.cfg addr r.env n).byte = r.new →
    execFor (.setbf addr value msb lsb win) (22 + 7 * n) s = .next { s.ready with
      cur := r.read.byte, mask := fieldMask msb lsb, new := r.new, last := r.new
      t0 := r.t0, idx := 0
      env := pollEnv s.cfg addr r.env (n + 1)
      trace := s.trace ++ r.events s.cfg addr ++
        (List.range (n + 1)).flatMap (pollEvents s.cfg addr r.env) ++ [.result 0x00 0x00 []] }

/-- `SETBF` with a valid range, where no poll read matches before the test that finds the window elapsed: one `DbgDiag` when
`DEBUG_EN` is set, and `Result(WriteVerificationFailed, 0x00, [])`.  That it leaves `IDX` at 0 is the model's choice (log 10). -/
def Obligations.SetbfFailsWhenTheWindowElapses : Prop :=
  ∀ (addr value msb lsb : Byte) (win : Half) (s : State) (n : Nat) (r : SetbfRun) (last : Byte),
    validRange msb lsb = true → AtStart s → s.env.otherOwns = false → r = setbfRun addr value msb lsb s →
    (∀ k < n, pollElapsed s.cfg addr win r.t0 r.env k = false) →
    (∀ k < n, (pollRun s.cfg addr r.env k).byte ≠ r.new) →
    pollElapsed s.cfg addr win r.t0 r.env n = true →
    last = (if n = 0 then 0x00 else (pollRun s.cfg addr r.env (n - 1)).byte) →
    execFor (.setbf addr value msb lsb win) (16 + 7 * n + if s.cfg.debugEn then 1 else 0) s = .next { s.ready with
      cur := r.read.byte, mask := fieldMask msb lsb, new := r.new, last := last
      t0 := r.t0, idx := 0
      env := (pollEnv s.cfg addr r.env n).nowUs.2
      trace := s.trace ++ r.events s.cfg addr ++
        (List.range n).flatMap (pollEvents s.cfg addr r.env) ++
        [.nowUs (pollEnv s.cfg addr r.env n).clock.nowUs] ++
        (if s.cfg.debugEn then
          [.dbgDiag (DiagRecord.mk addr msb lsb value r.read.byte (fieldMask msb lsb) r.new last)]
         else []) ++
        [.result 0x02 0x00 []] }

/-- R121: a window of zero makes no poll read and always ends in `WriteVerificationFailed` with `last = 0x00`, the write done. -/
def Obligations.WindowZeroNeverPolls : Prop :=
  ∀ (addr value msb lsb : Byte) (s : State) (r : SetbfRun),
    validRange msb lsb = true → AtStart s → s.env.otherOwns = false → r = setbfRun addr value msb lsb s →
    ∃ k t, execFor (.setbf addr value msb lsb 0) k s = .next t ∧ t.busy = false ∧ t.last = 0x00 ∧ t.env = r.env.nowUs.2 ∧
      t.trace = s.trace ++ r.events s.cfg addr ++ [.nowUs r.env.clock.nowUs] ++
        (if s.cfg.debugEn then
          [.dbgDiag (DiagRecord.mk addr msb lsb value r.read.byte (fieldMask msb lsb) r.new 0x00)]
         else []) ++
        [.result 0x02 0x00 []]

/-- The window test of the poll: elapsed, the register is not read again; not elapsed, the poll read begins. -/
def Obligations.WindowTestComesBeforeThePollRead : Prop :=
  ∀ (addr value msb lsb : Byte) (win : Half) (s : State), s.rbPhase = .bfPoll → s.point = .window →
    (win.toNat ≤ (s.env.clock.nowUs - s.t0).toNat →
      exec (.setbf addr value msb lsb win) s = .next { s with
        env := s.env.nowUs.2
        point := if s.cfg.debugEn then .diag else .owe .writeVerificationFailed
        trace := s.trace ++ [.nowUs s.env.clock.nowUs] }) ∧
    ((s.env.clock.nowUs - s.t0).toNat < win.toNat →
      exec (.setbf addr value msb lsb win) s = .next { s with
        env := s.env.nowUs.2, txnStep := .acq, point := .txn
        trace := s.trace ++ [.nowUs s.env.clock.nowUs] })

/-- The poll is bounded by time: on a clock that every `Xfer` advances, whatever the device answers, `SETBF` ends. -/
def Obligations.SetbfEndsOnARunningClock : Prop :=
  ∀ (addr value msb lsb : Byte) (win : Half) (s : State) (tau xferCost pollCost : Nat),
    validRange msb lsb = true → AtStart s → s.env.otherOwns = false →
    s.env.clock = .ref tau xferCost pollCost → 1 ≤ xferCost → win.toNat + 2 * xferCost ≤ 2 ^ 32 →
    ∃ k t, execFor (.setbf addr value msb lsb win) k s = .next t ∧ t.busy = false ∧
      (t.trace.getLast? = some (.result 0x00 0x00 []) ∨ t.trace.getLast? = some (.result 0x02 0x00 []))

/-- On the ideal `RefDevice` a `SETBF` whose window has not elapsed at the first test ends in `OK`, changes the field of its register and no other bit or
register, and a `GETBF` then delivers the low bits of the value written (R126 (b)). -/
def Obligations.SetbfThenGetbfOnTheIdealDevice : Prop :=
  ∀ (addr value msb lsb : Byte) (win : Half) (s : State) (d : RefDevice),
    validRange msb lsb = true → AtStart s → s.env.otherOwns = false →
    pollElapsed s.cfg addr win (setbfRun addr value msb lsb s).t0 (setbfRun addr value msb lsb s).env 0 = false →
    s.env.device = .ref d → d.variant = .ideal → d.reg.wf = true → s.cfg.cmdRead = 0x00 → s.cfg.cmdWrite = 0x80 →
    addr.toNat < 128 →
    ∃ t u d', execFor (.setbf addr value msb lsb win) 22 s = .next t ∧
      t.trace.getLast? = some (.result 0x00 0x00 []) ∧ t.env.device = .ref d' ∧
      (∀ x, d'.reg.read x =
        if x = addr.toNat then mergeField (d.reg.read x) value msb lsb else d.reg.read x) ∧
      execFor (.getbf addr msb lsb) 8 t = .next u ∧
      u.trace.getLast? = some (.result 0x00 (value &&& BitVec.ofNat 8 (2 ^ (msb.toNat - lsb.toNat + 1) - 1)) [])

/-! ## LineProtocol: whole commands -/

/-- R133: `FLUSH` of a queue to which nothing arrives reads and discards every byte, and nothing else. -/
def Obligations.FlushEmptiesTheQueue : Prop :=
  ∀ s : State, s.lpState = .idle → s.point = .idle → s.env.channel.silent →
    execFor .flush (2 * s.env.channel.inbound.length + 3) s = .next { s with
      rbPhase := .idle, lpState := .idle, rbuf := [], point := .idle, busy := false
      env := { s.env with
        channel := { s.env.channel with inbound := [] }
        clock := s.env.clock.afterAvails (s.env.channel.inbound.length + 1) }
      trace := s.trace ++ flushEvents s.env.channel.inbound ++ [.result 0x00 0x00 []] }

/-- R197 (b): against a device that keeps the queue non-empty for ever `FLUSH` never ends. -/
def Obligations.FlushOfAChatteringDeviceNeverEnds : Prop :=
  ∀ s : State, s.busy = true → s.lpState = .idle → s.point = .idle → s.env.channel.chatter ≠ [] →
    ∀ k, ∃ t, execFor .flush k s = .next t ∧ t.busy = true ∧
      ∀ e ∈ t.trace, e.isResult = true → e ∈ s.trace

/-- An exchange flushes the queue, writes the payload and then the terminator, and only then waits.  What `IDX` holds is the
model's choice (log 10). -/
def Obligations.ExchangesFlushThenSend : Prop :=
  ∀ (i : Instr) (payload whole : List Byte) (s : State),
    i = .sendcmd payload ∨ i = .senddata payload →
    s.lpState = .idle → s.point = .idle → s.env.channel.silent →
    whole = (if s.cfg.lineTerm = [] then payload else s.cfg.lineTerm) →
    execFor i (2 * s.env.channel.inbound.length + 2 + payload.length + s.cfg.lineTerm.length) s = .next { s with
      lpState := .awaiting, rbuf := [], point := .sample, idx := idxAfter whole.length s
      env := { s.env with
        channel := { s.env.channel with inbound := [], out := s.env.channel.out ++ payload ++ s.cfg.lineTerm }
        clock := s.env.clock.afterAvails (s.env.channel.inbound.length + 1) }
      trace := s.trace ++ flushEvents s.env.channel.inbound ++ payload.map .wrByte ++ s.cfg.lineTerm.map .wrByte }

/-- With the reply queued and the window not elapsed at the tests that read it, the wait ends at the byte that completes the first
keyword in stream order, with its verdict; every byte up to it is read and, with `DEBUG_EN`, mirrored; the bytes behind it
stay queued. -/
def Obligations.WaitEndsAtTheFirstKeyword : Prop :=
  ∀ (i : Instr) (payload before behind : List Byte) (b : Byte) (c : Clock) (t : Ticks) (s : State),
    i = .sendcmd payload ∨ i = .senddata payload →
    s.lpState = .awaiting → s.point = .sample → s.rbuf = [] → s.env.channel.silent →
    s.env.channel.inbound = before ++ b :: behind → t = s.env.clock.nowMs → c = s.env.nowMs.2.clock →
    (∀ k ≤ before.length, windowElapsed (waitClock c k).nowMs t s.cfg.responseTimeoutMs = false) →
    classify before = .pending → classify (before ++ [b]) ≠ .pending →
    execFor i (2 + (before.length + 1) * if s.cfg.debugEn then 4 else 3) s = .next { s with
      rbPhase := .idle, lpState := .idle, rbuf := [], point := .idle, busy := false, t0 := t
      env := { s.env with
        channel := { s.env.channel with inbound := behind }
        clock := waitClock c (before.length + 1) }
      trace := s.trace ++ [.nowMs t] ++ waitEvents s.cfg.debugEn behind.length c (before ++ [b]) ++
        [.result (if classify (before ++ [b]) = .success then 0x00 else 0x03) 0x00 []] }

/-- A whole exchange with a device that answers `reply` once the terminator has been written: stale bytes do not count, the
first keyword completed in the reply decides, and what follows it stays queued.  The form of the reply's script is the model's
choice (log 12), and so is what `IDX` holds (log 10). -/
def Obligations.ReplyDecidesTheExchange : Prop :=
  ∀ (i : Instr) (payload before behind whole : List Byte) (b : Byte) (c c' : Clock) (t : Ticks) (s : State),
    i = .sendcmd payload ∨ i = .senddata payload →
    s.lpState = .idle → s.point = .idle → s.env.channel.chatter = [] →
    s.env.channel.script = [⟨.afterOut (s.env.channel.out.length + payload.length + s.cfg.lineTerm.length) 0,
      before ++ b :: behind⟩] →
    payload ++ s.cfg.lineTerm ≠ [] → whole = (if s.cfg.lineTerm = [] then payload else s.cfg.lineTerm) →
    c = s.env.clock.afterAvails (s.env.channel.inbound.length + 1) → t = c.nowMs → c' = c.afterNowMs →
    (∀ k ≤ before.length, windowElapsed (waitClock c' k).nowMs t s.cfg.responseTimeoutMs = false) →
    classify before = .pending → classify (before ++ [b]) ≠ .pending →
    ∃ k, execFor i k s = .next { s with
      rbPhase := .idle, lpState := .idle, rbuf := [], point := .idle, busy := false, t0 := t
      idx := idxAfter whole.length s
      env := { s.env with
        channel := { s.env.channel with
          inbound := behind, out := s.env.channel.out ++ payload ++ s.cfg.lineTerm, script := [] }
        clock := waitClock c' (before.length + 1) }
      trace := s.trace ++ flushEvents s.env.channel.inbound ++ payload.map .wrByte ++ s.cfg.lineTerm.map .wrByte ++
        [.nowMs t] ++ waitEvents s.cfg.debugEn behind.length c' (before ++ [b]) ++
        [.result (if classify (before ++ [b]) = .success then 0x00 else 0x03) 0x00 []] }

/-- The timeout test of the wait: elapsed, `LineFailure` without another `Avail`; not elapsed, `Avail` is next.  An `Avail` that
answers 0 leads back to the timeout test with nothing else changed, one that does not to `RdByte` (R142). -/
def Obligations.TimeoutComesBeforeAvail : Prop :=
  ∀ (i : Instr) (payload : List Byte) (s : State),
    i = .sendcmd payload ∨ i = .senddata payload → s.lpState = .awaiting →
    (s.point = .window → s.cfg.responseTimeoutMs.toNat ≤ (s.env.clock.nowMs - s.t0).toNat →
      execFor i 2 s = .next { s with
        rbPhase := .idle, lpState := .idle, rbuf := [], point := .idle, busy := false
        env := s.env.nowMs.2
        trace := s.trace ++ [.nowMs s.env.clock.nowMs, .result 0x03 0x00 []] }) ∧
    (s.point = .window → (s.env.clock.nowMs - s.t0).toNat < s.cfg.responseTimeoutMs.toNat →
      exec i s = .next { s with env := s.env.nowMs.2, point := .poll, trace := s.trace ++ [.nowMs s.env.clock.nowMs] }) ∧
    (s.point = .poll → s.env.avail.1 = 0 →
      exec i s = .next { s with env := s.env.avail.2, point := .window, trace := s.trace ++ [.avail 0] }) ∧
    (s.point = .poll → s.env.avail.1 ≠ 0 →
      exec i s = .next { s with env := s.env.avail.2, point := .read, trace := s.trace ++ [.avail s.env.avail.1] })

/-- The wait is bounded by time: on a clock that every `Avail` advances, whatever arrives, an exchange that waits ends. -/
def Obligations.WaitEndsOnARunningClock : Prop :=
  ∀ (i : Instr) (payload : List Byte) (s : State) (tau xferCost pollCost : Nat),
    i = .sendcmd payload ∨ i = .senddata payload → s.lpState = .awaiting → s.point = .sample →
    s.env.clock = .ref tau xferCost pollCost → 1 ≤ pollCost →
    s.cfg.responseTimeoutMs.toNat + pollCost / 1000 + 1 ≤ 2 ^ 32 →
    ∃ k t, execFor i k s = .next t ∧ t.busy = false ∧
      (t.trace.getLast? = some (.result 0x00 0x00 []) ∨ t.trace.getLast? = some (.result 0x03 0x00 []))

/-! ## Frames -/

/-- What a step of a plain register command leaves alone. -/
def Obligations.PlainCommandsFrame : Prop :=
  ∀ (i : Instr) (s t : State), i.opcode ∈ [.rdreg, .wrreg, .rdburst, .wrburst] → exec i s = .next t →
    SameLatches s t ∧ t.cur = s.cur ∧ t.mask = s.mask ∧ t.new = s.new ∧ t.last = s.last ∧ t.t0 = s.t0 ∧
    t.cfg = s.cfg ∧ SameOffBus s t ∧ LineRestsOrEnds s t ∧
    (i.opcode = .rdreg ∨ i.opcode = .rdburst ∨ t.rxdata = s.rxdata)

/-- What a step of a bit-field command leaves alone. -/
def Obligations.FieldCommandsFrame : Prop :=
  ∀ (i : Instr) (s t : State), i.opcode ∈ [.getbf, .setbf] → exec i s = .next t →
    SameLatches s t ∧ t.rxdata = s.rxdata ∧ t.cfg = s.cfg ∧ SameOffBus s t ∧ LineRestsOrEnds s t ∧
    (i.opcode = .setbf ∨ (t.new = s.new ∧ t.last = s.last ∧ t.t0 = s.t0))

/-- What a step of a line command leaves alone. -/
def Obligations.LineCommandsFrame : Prop :=
  ∀ (i : Instr) (s t : State), i.opcode ∈ [.flush, .sendcmd, .senddata] → exec i s = .next t →
    SameLatches s t ∧ t.cur = s.cur ∧ t.mask = s.mask ∧ t.new = s.new ∧ t.last = s.last ∧ t.rxdata = s.rxdata ∧
    t.cfg = s.cfg ∧ SameOffLine s t ∧ SameBusState s t ∧ (t.rbPhase = s.rbPhase ∨ (t.rbPhase = .idle ∧ t.busy = false)) ∧
    (i.opcode ≠ .flush ∨ (t.idx = s.idx ∧ t.t0 = s.t0 ∧ t.env.channel.out = s.env.channel.out))

/-- A step of any command that is an `Xfer` leaves every register of a `RefDevice` alone but the one the `Xfer` stores to, and a
step that is no `Xfer` leaves all of them as they were. -/
def Obligations.DeviceMemoryFrame : Prop :=
  ∀ (i : Instr) (s t : State) (d : RefDevice), exec i s = .next t → s.env.device = .ref d → d.reg.wf = true →
    ∃ d', t.env.device = .ref d' ∧ d'.reg.wf = true ∧ (∀ x, d.target ≠ some x → d'.reg.read x = d.reg.read x) ∧
      (¬ (s.point = .txn ∧ (s.txnStep = .addr ∨ s.txnStep = .data)) → d'.reg = d.reg)

/-! ## The whole machine -/

/-- R29: the select line is active only on an owned bus, and both registers rest outside a transaction, with `BUSY = 0` and with
`MODE = LINE`, in every state that meets the invariant. -/
def Obligations.BusRegistersFollowTheTransaction : Prop :=
  ∀ s : State, Inv s →
    (s.sel = .active → s.busOwned = true) ∧
    (s.busy = false → s.busOwned = false ∧ s.sel = .inactive) ∧
    (s.txnStep = .none → s.busOwned = false ∧ s.sel = .inactive) ∧
    (s.cfg.mode = .line → s.busOwned = false ∧ s.sel = .inactive)

/-- Every step keeps the invariant. -/
def Obligations.StepKeepsTheInvariant : Prop := ∀ s t : State, Inv s → step s = .next t → Inv t

/-- From every state that meets the invariant the machine has a next state: no fault and no refusal (R12: "There is no fourth
outcome"). -/
def Obligations.StepNeverStops : Prop := ∀ s : State, Inv s → ∃ t, step s = .next t

/-- The handle never changes, reset included. -/
def Obligations.ConfigurationNeverChanges : Prop := ∀ s t : State, step s = .next t → t.cfg = s.cfg

/-- The latches stay unchanged until the next `CmdAccept`. -/
def Obligations.LatchesStayDuringACommand : Prop :=
  ∀ s t : State, s.busy = true → s.env.turns.head? ≠ some (.env .assertReset) → step s = .next t → SameLatches s t

/-- The port events form one total order: a step appends at most one event and takes none back. -/
def Obligations.StepsAppendAtMostOneEvent : Prop :=
  ∀ s t : State, Inv s → s.env.turns.head? ≠ some (.env .assertReset) → step s = .next t →
    t.trace = s.trace ∨ ∃ e, t.trace = s.trace ++ [e]

/-- Commands do not overlap: while one is in progress `SEQ` accepts no other. -/
def Obligations.CommandsDoNotOverlap : Prop :=
  ∀ s t : State, s.busy = true → SeqTurn s → step s = .next t →
    t.env.offers = s.env.offers ∧ ∃ es, t.trace = s.trace ++ es ∧ ∀ e ∈ es, e.isAccept = false

/-- Each mode has its own transport: with `MODE = BYTE` `SEQ` never touches the serial transport; with `MODE = LINE` it never touches
the byte bus and never owns it. -/
def Obligations.EachModeHasItsOwnTransport : Prop :=
  ∀ s t : State, Inv s → SeqTurn s → step s = .next t →
    (s.cfg.mode = .byte →
      t.env.channel = s.env.channel ∧ ∃ es, t.trace = s.trace ++ es ∧ ∀ e ∈ es, e.isSerial = false) ∧
    (s.cfg.mode = .line →
      t.busOwned = false ∧ t.sel = .inactive ∧ t.env.device = s.env.device ∧
      ∃ es, t.trace = s.trace ++ es ∧ ∀ e ∈ es, e.isBus = false)

/-- The time counters never go backwards (R173 (a)), and time passes: for every bound there is a number of readings of a counter
after which, in every run of the machine, its count exceeds the bound (R173 (b)).  A `RefClock` moves at the steps that are an
`Xfer` or an `Avail`, by its costs, and at no other (R66); that a cost may be 0 is the model's choice (log 24). -/
def Obligations.TimePassesAndNeverGoesBackwards : Prop :=
  (∀ s t : State, step s = .next t →
    (∀ us ms, s.env.clock = .counters us ms →
      ∃ us' ms', t.env.clock = .counters us' ms' ∧ us.ticks ≤ us'.ticks ∧ ms.ticks ≤ ms'.ticks) ∧
    (∀ tau xferCost pollCost, s.env.clock = .ref tau xferCost pollCost →
      ∃ tau', t.env.clock = .ref tau' xferCost pollCost ∧ tau ≤ tau')) ∧
  (∀ (s t : State) (tau xferCost pollCost : Nat), Inv s → s.env.clock = .ref tau xferCost pollCost → step s = .next t →
    (∀ tx rx, t.trace = s.trace ++ [.xfer tx rx] → t.env.clock = .ref (tau + xferCost) xferCost pollCost) ∧
    (∀ n, t.trace = s.trace ++ [.avail n] → t.env.clock = .ref (tau + pollCost) xferCost pollCost) ∧
    ((∀ tx rx, t.trace ≠ s.trace ++ [.xfer tx rx]) → (∀ n, t.trace ≠ s.trace ++ [.avail n]) → t.env.clock = s.env.clock)) ∧
  (∀ (s : State) (us ms : Counter) (bound : Nat), s.env.clock = .counters us ms →
    ∃ n, ∀ k t, Host.Core.run Sys2Proof.core k s = .next t →
      ∃ us' ms', t.env.clock = .counters us' ms' ∧
        (s.trace.countP Event.isNowUs + n ≤ t.trace.countP Event.isNowUs → bound < us'.ticks) ∧
        (s.trace.countP Event.isNowMs + n ≤ t.trace.countP Event.isNowMs → bound < ms'.ticks))

/-- A command ends with the bus released and the select line inactive (R162), and with one `Result` of a status of R83; behind
the last command's the run has ended, whatever else the environment does (R205).  That a run whose last command reset abandoned is
final too is the model's choice (log 23). -/
def Obligations.CommandsEndWithTheBusFree : Prop :=
  (∀ s t : State, Inv s → SeqTurn s → step s = .next t → s.busy = true → t.busy = false →
    s.busOwned = false ∧ s.sel = .inactive ∧ t.busOwned = false ∧ t.sel = .inactive ∧
    ∃ st value data, t.trace = s.trace ++ [.result (Status.code st) value data]) ∧
  (∀ s t : State, Inv s → Final s → step s = .next t → Final t ∧ t.trace = s.trace)

/-- R166: removing the debug events from a run of a command gives a run of the same command with `DEBUG_EN` clear. -/
def Obligations.DebugIsASideChannel : Prop :=
  ∀ (i : Instr) (n : Nat) (s t : State), s.cfg.debugEn = true → execFor i n s = .next t →
    ∃ m ≤ n, execFor i m s.withoutDebug = .next t.withoutDebug

/-- R23: what the working registers hold when a command starts changes no event, no answer and no outcome of it. -/
def Obligations.WorkingRegistersAreWrittenBeforeTheyAreRead : Prop :=
  ∀ (i : Instr) (n : Nat) (s t : State) (cur mask new last : Byte) (t0 : Ticks) (idx : Half) (rxdata rbuf : List Byte),
    AtStart s → execFor i n s = .next t →
    ∃ t', execFor i n { s with
        cur := cur, mask := mask, new := new, last := last, t0 := t0, idx := idx, rxdata := rxdata, rbuf := rbuf } = .next t' ∧
      t'.trace = t.trace ∧ t'.env = t.env ∧ t'.busy = t.busy ∧ t'.point = t.point
end

