-- ==== Sys2Proof/Laws/Encoding.lean ====
section
/-! SUPPORT. The fields of a packed word, and the opcode map read both ways. -/

namespace Sys2Proof

section PackWord

variable (op addr data msb lsb : Byte) (arg16 : Half)

@[simp] theorem opField_packWord : opField (packWord op addr data msb lsb arg16) = op := by
  apply BitVec.eq_of_getLsbD_eq
  intro i hi
  interval_cases i <;> simp [opField, packWord]

@[simp] theorem addrField_packWord : addrField (packWord op addr data msb lsb arg16) = addr := by
  apply BitVec.eq_of_getLsbD_eq
  intro i hi
  interval_cases i <;> simp [addrField, packWord]

@[simp] theorem dataField_packWord : dataField (packWord op addr data msb lsb arg16) = data := by
  apply BitVec.eq_of_getLsbD_eq
  intro i hi
  interval_cases i <;> simp [dataField, packWord]

@[simp] theorem msbField_packWord : msbField (packWord op addr data msb lsb arg16) = msb := by
  apply BitVec.eq_of_getLsbD_eq
  intro i hi
  interval_cases i <;> simp [msbField, packWord]

@[simp] theorem lsbField_packWord : lsbField (packWord op addr data msb lsb arg16) = lsb := by
  apply BitVec.eq_of_getLsbD_eq
  intro i hi
  interval_cases i <;> simp [lsbField, packWord]

@[simp] theorem arg16Field_packWord : arg16Field (packWord op addr data msb lsb arg16) = arg16 := by
  apply BitVec.eq_of_getLsbD_eq
  intro i hi
  interval_cases i <;> simp [arg16Field, packWord]

@[simp] theorem zeroField_packWord : zeroField (packWord op addr data msb lsb arg16) = 0 := by
  apply BitVec.eq_of_getLsbD_eq
  intro i hi
  interval_cases i <;> simp [zeroField, packWord]

end PackWord

/-- The low byte of a word whose `zero` field is zero. -/
theorem getLsbD_of_zeroField {w : Word} (h : zeroField w = 0) {i : Nat} (hi : i < 8) : w.getLsbD i = false := by
  have := congrArg (fun z : Byte => z.getLsbD i) h
  simpa [zeroField, hi] using this

/-- A word whose `zero` field is zero is the packing of its fields. -/
theorem packWord_fields {w : Word} (h : zeroField w = 0) :
    packWord (opField w) (addrField w) (dataField w) (msbField w) (lsbField w) (arg16Field w) = w := by
  apply BitVec.eq_of_getLsbD_eq
  intro i hi
  by_cases h8 : i < 8
  · rw [getLsbD_of_zeroField h h8]
    exact getLsbD_of_zeroField (zeroField_packWord ..) h8
  · interval_cases i <;>
      first
        | omega
        | simp [opField, addrField, dataField, msbField, lsbField, arg16Field, packWord]

@[simp] theorem Opcode.ofCode_code (k : Opcode) : Opcode.ofCode k.code = some k := by cases k <;> rfl

/-- The row an `op` value names is the row of that code. -/
theorem Opcode.ofCode_eq_some {b : Byte} {k : Opcode} : Opcode.ofCode b = some k ↔ k.code = b := by
  constructor
  · intro h
    simpa using List.find?_some h
  · rintro rfl
    exact Opcode.ofCode_code k

theorem Opcode.ofCode_eq_none {b : Byte} : Opcode.ofCode b = none ↔ ∀ k : Opcode, k.code ≠ b := by
  constructor
  · intro h k hk
    rw [Opcode.ofCode_eq_some.mpr hk] at h
    cases h
  · intro h
    cases hk : Opcode.ofCode b with
    | none => rfl
    | some k => exact absurd (Opcode.ofCode_eq_some.mp hk) (h k)

@[simp] theorem Instr.opcode_engine (i : Instr) : i.opcode.engine = i.engine := by cases i <;> rfl

@[simp] theorem opField_encodeWord (i : Instr) : opField (encodeWord i) = i.opcode.code := by
  cases i <;> simp [encodeWord, Instr.opcode, Opcode.code]

@[simp] theorem zeroField_encodeWord (i : Instr) : zeroField (encodeWord i) = 0 := by
  cases i <;> simp [encodeWord]

/-- The one success of the decoder, in its five conditions. -/
theorem decode_eq_ok {mode : Mode} {w : Word} {payload : List Byte} {i : Instr} :
    decode mode w payload = .ok i ↔
      ∃ k, Opcode.ofCode (opField w) = some k ∧ k.engine = mode ∧ zeroField w = 0 ∧ w &&& k.mask = k.matchWord ∧
        payload.length = k.payloadLength w ∧ k.build w payload = i := by
  unfold decode
  cases Opcode.ofCode (opField w) with
  | none => simp
  | some k =>
    simp only [Option.some.injEq, exists_eq_left']
    by_cases h1 : k.engine = mode
    · by_cases h2 : zeroField w = 0#8
      · by_cases h3 : w &&& k.mask = k.matchWord
        · by_cases h4 : payload.length = k.payloadLength w <;> simp [h1, h2, h3, h4]
        · simp [h1, h2, h3]
      · simp [h1, h2]
    · simp [h1]

end Sys2Proof
end

