-- ==== Sys2Proof/Laws/Memory.lean ====
section
/-! SUPPORT. The laws of `RefDevice`'s register memory: read after write, every other address left alone, the canonical form
kept, and equal reads make equal memories. -/

namespace Sys2Proof.Machine

open Sys2Proof

@[simp] theorem Memory.read_nil (x : Nat) : Memory.read [] x = Memory.unlisted := rfl

/-- An address at or below the bound of a canonical list is not listed. -/
theorem Memory.read_of_wfAbove (m : Memory) (low x : Nat) (h : Memory.wfAbove (some low) m = true) (hx : x ≤ low) :
    m.read x = Memory.unlisted := by
  induction m generalizing low with
  | nil => rfl
  | cons cell rest ih =>
    obtain ⟨a, b⟩ := cell
    simp only [Memory.wfAbove, Memory.above, Bool.and_eq_true, decide_eq_true_eq] at h
    obtain ⟨⟨h1, -⟩, h3⟩ := h
    have : a ≠ x := by omega
    simp [Memory.read, this]
    exact ih a h3 (by omega)

/-- A lower bound may be lowered. -/
theorem Memory.wfAbove_mono (m : Memory) (low low' : Nat) (h : Memory.wfAbove (some low) m = true) (hl : low' ≤ low) :
    Memory.wfAbove (some low') m = true := by
  cases m with
  | nil => rfl
  | cons cell rest =>
    simp only [Memory.wfAbove, Memory.above, Bool.and_eq_true, decide_eq_true_eq] at h ⊢
    exact ⟨⟨by omega, h.1.2⟩, h.2⟩

theorem Memory.wf_of_wfAbove (m : Memory) (low : Nat) (h : Memory.wfAbove (some low) m = true) : m.wf = true := by
  cases m with
  | nil => rfl
  | cons cell rest =>
    simp only [Memory.wf, Memory.wfAbove, Memory.above, Bool.and_eq_true, decide_eq_true_eq] at h ⊢
    exact ⟨⟨trivial, h.1.2⟩, h.2⟩

theorem Memory.erase_wfAbove (m : Memory) (low : Option Nat) (x : Nat) (h : Memory.wfAbove low m = true) :
    Memory.wfAbove low (m.erase x) = true := by
  induction m generalizing low with
  | nil => rfl
  | cons cell rest ih =>
    obtain ⟨a, b⟩ := cell
    simp only [Memory.wfAbove, Bool.and_eq_true] at h
    by_cases hx : a = x
    · simp only [Memory.erase, hx, if_true]
      cases low with
      | none => exact Memory.wf_of_wfAbove _ _ h.2
      | some l => exact Memory.wfAbove_mono _ a l h.2 (Nat.le_of_lt (by simpa [Memory.above] using h.1.1))
    · simp only [Memory.erase, hx, if_false, Memory.wfAbove, Bool.and_eq_true]
      exact ⟨h.1, ih _ h.2⟩

theorem Memory.insert_wfAbove (m : Memory) (low : Option Nat) (x : Nat) (v : Byte) (hv : v ≠ Memory.unlisted)
    (hx : Memory.above low x = true) (h : Memory.wfAbove low m = true) :
    Memory.wfAbove low (m.insert x v) = true := by
  induction m generalizing low with
  | nil => simp [Memory.insert, Memory.wfAbove, hx, hv]
  | cons cell rest ih =>
    obtain ⟨a, b⟩ := cell
    simp only [Memory.wfAbove, Bool.and_eq_true] at h
    obtain ⟨⟨h1, h2⟩, h3⟩ := h
    simp only [Memory.insert]
    split
    · next hlt =>
      have hxa : Memory.above (some x) a = true := by simpa [Memory.above] using hlt
      simp [Memory.wfAbove, hx, h2, h3, hv, hxa]
    · split
      · next hge heq => subst heq; simp [Memory.wfAbove, hx, hv, h3]
      · next hge hne =>
        have hax : Memory.above (some a) x = true := by simp [Memory.above]; omega
        simp only [Memory.wfAbove, h1, h2, ih (some a) hax h3, Bool.and_self]

/-- Every store keeps the canonical form. -/
theorem Memory.write_wf (m : Memory) (x : Nat) (v : Byte) (h : m.wf = true) : (m.write x v).wf = true := by
  unfold Memory.write
  split
  · exact Memory.erase_wfAbove m none x h
  · next hv => exact Memory.insert_wfAbove m none x v hv rfl h

theorem Memory.read_insert (m : Memory) (x y : Nat) (v : Byte) :
    (m.insert x v).read y = if y = x then v else m.read y := by
  induction m with
  | nil => simp [Memory.insert, Memory.read, eq_comm]
  | cons cell rest ih =>
    obtain ⟨a, b⟩ := cell
    simp only [Memory.insert]
    split
    · simp [Memory.read, eq_comm]
    · split
      · next heq =>
        subst heq
        by_cases hy : y = x
        · simp [Memory.read, hy]
        · simp [Memory.read, hy, Ne.symm hy]
      · next hge hne =>
        simp only [Memory.read, ih]
        by_cases hy : a = y
        · have : y ≠ x := by omega
          simp [hy, this]
        · simp [hy]

theorem Memory.read_erase (m : Memory) (low : Option Nat) (x y : Nat) (h : Memory.wfAbove low m = true) :
    (m.erase x).read y = if y = x then Memory.unlisted else m.read y := by
  induction m generalizing low with
  | nil => simp [Memory.erase]
  | cons cell rest ih =>
    obtain ⟨a, b⟩ := cell
    simp only [Memory.wfAbove, Bool.and_eq_true] at h
    by_cases hx : a = x
    · subst hx
      simp only [Memory.erase, if_true, Memory.read]
      by_cases hy : y = a
      · subst hy; simp [Memory.read_of_wfAbove rest y y h.2 (Nat.le_refl _)]
      · simp [hy, Ne.symm hy]
    · simp only [Memory.erase, hx, if_false, Memory.read, ih _ h.2]
      by_cases hy : a = y
      · subst hy; simp [hx]
      · simp [hy]

/-- What a store changes: its own address, and no other. -/
theorem Memory.read_write (m : Memory) (x y : Nat) (v : Byte) (h : m.wf = true) :
    (m.write x v).read y = if y = x then v else m.read y := by
  unfold Memory.write
  split
  · next hv => rw [Memory.read_erase m none x y h, hv]
  · exact Memory.read_insert m x y v

/-- Two canonical memories that read alike are the same list. -/
theorem Memory.ext_read (m m' : Memory) (h : m.wf = true) (h' : m'.wf = true)
    (hr : ∀ x, m.read x = m'.read x) : m = m' := by
  have key : ∀ (m m' : Memory) (low : Option Nat), Memory.wfAbove low m = true → Memory.wfAbove low m' = true →
      (∀ x, m.read x = m'.read x) → m = m' := by
    intro m
    induction m with
    | nil =>
      intro m' low _ h' hr
      cases m' with
      | nil => rfl
      | cons cell rest =>
        simp only [Memory.wfAbove, Bool.and_eq_true, decide_eq_true_eq] at h'
        exact absurd (by simpa [Memory.read] using (hr cell.1).symm) h'.1.2
    | cons cell rest ih =>
      obtain ⟨a, b⟩ := cell
      intro m' low h h' hr
      simp only [Memory.wfAbove, Bool.and_eq_true, decide_eq_true_eq] at h
      cases m' with
      | nil => exact absurd (by simpa [Memory.read] using hr a) h.1.2
      | cons cell' rest' =>
        obtain ⟨a', b'⟩ := cell'
        simp only [Memory.wfAbove, Bool.and_eq_true, decide_eq_true_eq] at h'
        have haa : a = a' := by
          rcases Nat.lt_trichotomy a a' with hlt | heq | hgt
          · have h1 := hr a
            have h2 := Memory.read_of_wfAbove rest' a' a h'.2 (by omega)
            simp [Memory.read, Nat.ne_of_gt hlt, h2] at h1
            exact absurd h1 h.1.2
          · exact heq
          · have h1 := hr a'
            have h2 := Memory.read_of_wfAbove rest a a' h.2 (by omega)
            simp [Memory.read, Nat.ne_of_gt hgt, h2] at h1
            exact absurd h1.symm h'.1.2
        subst haa
        have hbb : b = b' := by simpa [Memory.read] using hr a
        subst hbb
        rw [ih rest' (some a) h.2 h'.2]
        intro x
        by_cases hx : a = x
        · subst hx
          rw [Memory.read_of_wfAbove rest a a h.2 (Nat.le_refl _), Memory.read_of_wfAbove rest' a a h'.2 (Nat.le_refl _)]
        · simpa [Memory.read, hx] using hr x
  exact key m m' none h h' hr

end Sys2Proof.Machine
end

