-- ==== Sys2Proof/Laws/State.lean ====
section
/-! SUPPORT. One lemma a field for every named update of the state, so that no later proof unfolds a record update. -/

namespace Sys2Proof.Machine

open Sys2Proof

/-! ### `State.emit`: A port event joins the trace; no register changes. -/

@[simp] theorem State.emit_op (e : Event) (s : State) : (s.emit e).op = s.op := rfl
@[simp] theorem State.emit_addr (e : Event) (s : State) : (s.emit e).addr = s.addr := rfl
@[simp] theorem State.emit_data (e : Event) (s : State) : (s.emit e).data = s.data := rfl
@[simp] theorem State.emit_msb (e : Event) (s : State) : (s.emit e).msb = s.msb := rfl
@[simp] theorem State.emit_lsb (e : Event) (s : State) : (s.emit e).lsb = s.lsb := rfl
@[simp] theorem State.emit_arg (e : Event) (s : State) : (s.emit e).arg = s.arg := rfl
@[simp] theorem State.emit_payload (e : Event) (s : State) : (s.emit e).payload = s.payload := rfl
@[simp] theorem State.emit_cur (e : Event) (s : State) : (s.emit e).cur = s.cur := rfl
@[simp] theorem State.emit_mask (e : Event) (s : State) : (s.emit e).mask = s.mask := rfl
@[simp] theorem State.emit_new (e : Event) (s : State) : (s.emit e).new = s.new := rfl
@[simp] theorem State.emit_last (e : Event) (s : State) : (s.emit e).last = s.last := rfl
@[simp] theorem State.emit_t0 (e : Event) (s : State) : (s.emit e).t0 = s.t0 := rfl
@[simp] theorem State.emit_idx (e : Event) (s : State) : (s.emit e).idx = s.idx := rfl
@[simp] theorem State.emit_rxdata (e : Event) (s : State) : (s.emit e).rxdata = s.rxdata := rfl
@[simp] theorem State.emit_rbuf (e : Event) (s : State) : (s.emit e).rbuf = s.rbuf := rfl
@[simp] theorem State.emit_busy (e : Event) (s : State) : (s.emit e).busy = s.busy := rfl
@[simp] theorem State.emit_rbPhase (e : Event) (s : State) : (s.emit e).rbPhase = s.rbPhase := rfl
@[simp] theorem State.emit_txnStep (e : Event) (s : State) : (s.emit e).txnStep = s.txnStep := rfl
@[simp] theorem State.emit_lpState (e : Event) (s : State) : (s.emit e).lpState = s.lpState := rfl
@[simp] theorem State.emit_point (e : Event) (s : State) : (s.emit e).point = s.point := rfl
@[simp] theorem State.emit_busOwned (e : Event) (s : State) : (s.emit e).busOwned = s.busOwned := rfl
@[simp] theorem State.emit_sel (e : Event) (s : State) : (s.emit e).sel = s.sel := rfl
@[simp] theorem State.emit_cfg (e : Event) (s : State) : (s.emit e).cfg = s.cfg := rfl
@[simp] theorem State.emit_env (e : Event) (s : State) : (s.emit e).env = s.env := rfl
@[simp] theorem State.emit_trace (e : Event) (s : State) : (s.emit e).trace = s.trace ++ [e] := rfl

/-! ### `State.openTxn`: The head of a transaction. -/

@[simp] theorem State.openTxn_op (s : State) : s.openTxn.op = s.op := rfl
@[simp] theorem State.openTxn_addr (s : State) : s.openTxn.addr = s.addr := rfl
@[simp] theorem State.openTxn_data (s : State) : s.openTxn.data = s.data := rfl
@[simp] theorem State.openTxn_msb (s : State) : s.openTxn.msb = s.msb := rfl
@[simp] theorem State.openTxn_lsb (s : State) : s.openTxn.lsb = s.lsb := rfl
@[simp] theorem State.openTxn_arg (s : State) : s.openTxn.arg = s.arg := rfl
@[simp] theorem State.openTxn_payload (s : State) : s.openTxn.payload = s.payload := rfl
@[simp] theorem State.openTxn_cur (s : State) : s.openTxn.cur = s.cur := rfl
@[simp] theorem State.openTxn_mask (s : State) : s.openTxn.mask = s.mask := rfl
@[simp] theorem State.openTxn_new (s : State) : s.openTxn.new = s.new := rfl
@[simp] theorem State.openTxn_last (s : State) : s.openTxn.last = s.last := rfl
@[simp] theorem State.openTxn_t0 (s : State) : s.openTxn.t0 = s.t0 := rfl
@[simp] theorem State.openTxn_idx (s : State) : s.openTxn.idx = s.idx := rfl
@[simp] theorem State.openTxn_rxdata (s : State) : s.openTxn.rxdata = s.rxdata := rfl
@[simp] theorem State.openTxn_rbuf (s : State) : s.openTxn.rbuf = s.rbuf := rfl
@[simp] theorem State.openTxn_busy (s : State) : s.openTxn.busy = s.busy := rfl
@[simp] theorem State.openTxn_rbPhase (s : State) : s.openTxn.rbPhase = s.rbPhase := rfl
@[simp] theorem State.openTxn_txnStep (s : State) : s.openTxn.txnStep = .acq := rfl
@[simp] theorem State.openTxn_lpState (s : State) : s.openTxn.lpState = s.lpState := rfl
@[simp] theorem State.openTxn_point (s : State) : s.openTxn.point = .txn := rfl
@[simp] theorem State.openTxn_busOwned (s : State) : s.openTxn.busOwned = s.busOwned := rfl
@[simp] theorem State.openTxn_sel (s : State) : s.openTxn.sel = s.sel := rfl
@[simp] theorem State.openTxn_cfg (s : State) : s.openTxn.cfg = s.cfg := rfl
@[simp] theorem State.openTxn_env (s : State) : s.openTxn.env = s.env := rfl
@[simp] theorem State.openTxn_trace (s : State) : s.openTxn.trace = s.trace := rfl

/-! ### `State.owe`: The `Result` becomes the next event. -/

@[simp] theorem State.owe_op (st : Status) (s : State) : (s.owe st).op = s.op := rfl
@[simp] theorem State.owe_addr (st : Status) (s : State) : (s.owe st).addr = s.addr := rfl
@[simp] theorem State.owe_data (st : Status) (s : State) : (s.owe st).data = s.data := rfl
@[simp] theorem State.owe_msb (st : Status) (s : State) : (s.owe st).msb = s.msb := rfl
@[simp] theorem State.owe_lsb (st : Status) (s : State) : (s.owe st).lsb = s.lsb := rfl
@[simp] theorem State.owe_arg (st : Status) (s : State) : (s.owe st).arg = s.arg := rfl
@[simp] theorem State.owe_payload (st : Status) (s : State) : (s.owe st).payload = s.payload := rfl
@[simp] theorem State.owe_cur (st : Status) (s : State) : (s.owe st).cur = s.cur := rfl
@[simp] theorem State.owe_mask (st : Status) (s : State) : (s.owe st).mask = s.mask := rfl
@[simp] theorem State.owe_new (st : Status) (s : State) : (s.owe st).new = s.new := rfl
@[simp] theorem State.owe_last (st : Status) (s : State) : (s.owe st).last = s.last := rfl
@[simp] theorem State.owe_t0 (st : Status) (s : State) : (s.owe st).t0 = s.t0 := rfl
@[simp] theorem State.owe_idx (st : Status) (s : State) : (s.owe st).idx = s.idx := rfl
@[simp] theorem State.owe_rxdata (st : Status) (s : State) : (s.owe st).rxdata = s.rxdata := rfl
@[simp] theorem State.owe_rbuf (st : Status) (s : State) : (s.owe st).rbuf = s.rbuf := rfl
@[simp] theorem State.owe_busy (st : Status) (s : State) : (s.owe st).busy = s.busy := rfl
@[simp] theorem State.owe_rbPhase (st : Status) (s : State) : (s.owe st).rbPhase = s.rbPhase := rfl
@[simp] theorem State.owe_txnStep (st : Status) (s : State) : (s.owe st).txnStep = s.txnStep := rfl
@[simp] theorem State.owe_lpState (st : Status) (s : State) : (s.owe st).lpState = s.lpState := rfl
@[simp] theorem State.owe_point (st : Status) (s : State) : (s.owe st).point = .owe st := rfl
@[simp] theorem State.owe_busOwned (st : Status) (s : State) : (s.owe st).busOwned = s.busOwned := rfl
@[simp] theorem State.owe_sel (st : Status) (s : State) : (s.owe st).sel = s.sel := rfl
@[simp] theorem State.owe_cfg (st : Status) (s : State) : (s.owe st).cfg = s.cfg := rfl
@[simp] theorem State.owe_env (st : Status) (s : State) : (s.owe st).env = s.env := rfl
@[simp] theorem State.owe_trace (st : Status) (s : State) : (s.owe st).trace = s.trace := rfl

/-! ### `State.finish`: The end of a command (spec/60_exceptions.md R161). -/

@[simp] theorem State.finish_op (st : Status) (v : Byte) (d : List Byte) (s : State) : (s.finish st v d).op = s.op := rfl
@[simp] theorem State.finish_addr (st : Status) (v : Byte) (d : List Byte) (s : State) : (s.finish st v d).addr = s.addr := rfl
@[simp] theorem State.finish_data (st : Status) (v : Byte) (d : List Byte) (s : State) : (s.finish st v d).data = s.data := rfl
@[simp] theorem State.finish_msb (st : Status) (v : Byte) (d : List Byte) (s : State) : (s.finish st v d).msb = s.msb := rfl
@[simp] theorem State.finish_lsb (st : Status) (v : Byte) (d : List Byte) (s : State) : (s.finish st v d).lsb = s.lsb := rfl
@[simp] theorem State.finish_arg (st : Status) (v : Byte) (d : List Byte) (s : State) : (s.finish st v d).arg = s.arg := rfl
@[simp] theorem State.finish_payload (st : Status) (v : Byte) (d : List Byte) (s : State) : (s.finish st v d).payload = s.payload := rfl
@[simp] theorem State.finish_cur (st : Status) (v : Byte) (d : List Byte) (s : State) : (s.finish st v d).cur = s.cur := rfl
@[simp] theorem State.finish_mask (st : Status) (v : Byte) (d : List Byte) (s : State) : (s.finish st v d).mask = s.mask := rfl
@[simp] theorem State.finish_new (st : Status) (v : Byte) (d : List Byte) (s : State) : (s.finish st v d).new = s.new := rfl
@[simp] theorem State.finish_last (st : Status) (v : Byte) (d : List Byte) (s : State) : (s.finish st v d).last = s.last := rfl
@[simp] theorem State.finish_t0 (st : Status) (v : Byte) (d : List Byte) (s : State) : (s.finish st v d).t0 = s.t0 := rfl
@[simp] theorem State.finish_idx (st : Status) (v : Byte) (d : List Byte) (s : State) : (s.finish st v d).idx = s.idx := rfl
@[simp] theorem State.finish_rxdata (st : Status) (v : Byte) (d : List Byte) (s : State) : (s.finish st v d).rxdata = s.rxdata := rfl
@[simp] theorem State.finish_rbuf (st : Status) (v : Byte) (d : List Byte) (s : State) : (s.finish st v d).rbuf = [] := rfl
@[simp] theorem State.finish_busy (st : Status) (v : Byte) (d : List Byte) (s : State) : (s.finish st v d).busy = false := rfl
@[simp] theorem State.finish_rbPhase (st : Status) (v : Byte) (d : List Byte) (s : State) : (s.finish st v d).rbPhase = .idle := rfl
@[simp] theorem State.finish_txnStep (st : Status) (v : Byte) (d : List Byte) (s : State) : (s.finish st v d).txnStep = s.txnStep := rfl
@[simp] theorem State.finish_lpState (st : Status) (v : Byte) (d : List Byte) (s : State) : (s.finish st v d).lpState = .idle := rfl
@[simp] theorem State.finish_point (st : Status) (v : Byte) (d : List Byte) (s : State) : (s.finish st v d).point = .idle := rfl
@[simp] theorem State.finish_busOwned (st : Status) (v : Byte) (d : List Byte) (s : State) : (s.finish st v d).busOwned = s.busOwned := rfl
@[simp] theorem State.finish_sel (st : Status) (v : Byte) (d : List Byte) (s : State) : (s.finish st v d).sel = s.sel := rfl
@[simp] theorem State.finish_cfg (st : Status) (v : Byte) (d : List Byte) (s : State) : (s.finish st v d).cfg = s.cfg := rfl
@[simp] theorem State.finish_env (st : Status) (v : Byte) (d : List Byte) (s : State) : (s.finish st v d).env = s.env := rfl
@[simp] theorem State.finish_trace (st : Status) (v : Byte) (d : List Byte) (s : State) : (s.finish st v d).trace = s.trace ++ [.result st.code v d] := rfl

/-! ### `State.latch`: The operand latches (spec/10_state.md R21). -/

@[simp] theorem State.latch_op (c : Command) (s : State) : (s.latch c).op = opField c.word := rfl
@[simp] theorem State.latch_addr (c : Command) (s : State) : (s.latch c).addr = addrField c.word := rfl
@[simp] theorem State.latch_data (c : Command) (s : State) : (s.latch c).data = dataField c.word := rfl
@[simp] theorem State.latch_msb (c : Command) (s : State) : (s.latch c).msb = msbField c.word := rfl
@[simp] theorem State.latch_lsb (c : Command) (s : State) : (s.latch c).lsb = lsbField c.word := rfl
@[simp] theorem State.latch_arg (c : Command) (s : State) : (s.latch c).arg = arg16Field c.word := rfl
@[simp] theorem State.latch_payload (c : Command) (s : State) : (s.latch c).payload = c.payload := rfl
@[simp] theorem State.latch_cur (c : Command) (s : State) : (s.latch c).cur = s.cur := rfl
@[simp] theorem State.latch_mask (c : Command) (s : State) : (s.latch c).mask = s.mask := rfl
@[simp] theorem State.latch_new (c : Command) (s : State) : (s.latch c).new = s.new := rfl
@[simp] theorem State.latch_last (c : Command) (s : State) : (s.latch c).last = s.last := rfl
@[simp] theorem State.latch_t0 (c : Command) (s : State) : (s.latch c).t0 = s.t0 := rfl
@[simp] theorem State.latch_idx (c : Command) (s : State) : (s.latch c).idx = s.idx := rfl
@[simp] theorem State.latch_rxdata (c : Command) (s : State) : (s.latch c).rxdata = s.rxdata := rfl
@[simp] theorem State.latch_rbuf (c : Command) (s : State) : (s.latch c).rbuf = s.rbuf := rfl
@[simp] theorem State.latch_busy (c : Command) (s : State) : (s.latch c).busy = s.busy := rfl
@[simp] theorem State.latch_rbPhase (c : Command) (s : State) : (s.latch c).rbPhase = s.rbPhase := rfl
@[simp] theorem State.latch_txnStep (c : Command) (s : State) : (s.latch c).txnStep = s.txnStep := rfl
@[simp] theorem State.latch_lpState (c : Command) (s : State) : (s.latch c).lpState = s.lpState := rfl
@[simp] theorem State.latch_point (c : Command) (s : State) : (s.latch c).point = s.point := rfl
@[simp] theorem State.latch_busOwned (c : Command) (s : State) : (s.latch c).busOwned = s.busOwned := rfl
@[simp] theorem State.latch_sel (c : Command) (s : State) : (s.latch c).sel = s.sel := rfl
@[simp] theorem State.latch_cfg (c : Command) (s : State) : (s.latch c).cfg = s.cfg := rfl
@[simp] theorem State.latch_env (c : Command) (s : State) : (s.latch c).env = s.env := rfl
@[simp] theorem State.latch_trace (c : Command) (s : State) : (s.latch c).trace = s.trace := rfl

/-! ### `State.accept`: `CmdAccept`. -/

@[simp] theorem State.accept_op (c : Command) (s : State) : (s.accept c).op = opField c.word := rfl
@[simp] theorem State.accept_addr (c : Command) (s : State) : (s.accept c).addr = addrField c.word := rfl
@[simp] theorem State.accept_data (c : Command) (s : State) : (s.accept c).data = dataField c.word := rfl
@[simp] theorem State.accept_msb (c : Command) (s : State) : (s.accept c).msb = msbField c.word := rfl
@[simp] theorem State.accept_lsb (c : Command) (s : State) : (s.accept c).lsb = lsbField c.word := rfl
@[simp] theorem State.accept_arg (c : Command) (s : State) : (s.accept c).arg = arg16Field c.word := rfl
@[simp] theorem State.accept_payload (c : Command) (s : State) : (s.accept c).payload = c.payload := rfl
@[simp] theorem State.accept_cur (c : Command) (s : State) : (s.accept c).cur = s.cur := rfl
@[simp] theorem State.accept_mask (c : Command) (s : State) : (s.accept c).mask = s.mask := rfl
@[simp] theorem State.accept_new (c : Command) (s : State) : (s.accept c).new = s.new := rfl
@[simp] theorem State.accept_last (c : Command) (s : State) : (s.accept c).last = s.last := rfl
@[simp] theorem State.accept_t0 (c : Command) (s : State) : (s.accept c).t0 = s.t0 := rfl
@[simp] theorem State.accept_idx (c : Command) (s : State) : (s.accept c).idx = s.idx := rfl
@[simp] theorem State.accept_rxdata (c : Command) (s : State) : (s.accept c).rxdata = s.rxdata := rfl
@[simp] theorem State.accept_rbuf (c : Command) (s : State) : (s.accept c).rbuf = s.rbuf := rfl
@[simp] theorem State.accept_busy (c : Command) (s : State) : (s.accept c).busy = true := rfl
@[simp] theorem State.accept_rbPhase (c : Command) (s : State) : (s.accept c).rbPhase = s.rbPhase := rfl
@[simp] theorem State.accept_txnStep (c : Command) (s : State) : (s.accept c).txnStep = s.txnStep := rfl
@[simp] theorem State.accept_lpState (c : Command) (s : State) : (s.accept c).lpState = s.lpState := rfl
@[simp] theorem State.accept_point (c : Command) (s : State) : (s.accept c).point = s.point := rfl
@[simp] theorem State.accept_busOwned (c : Command) (s : State) : (s.accept c).busOwned = s.busOwned := rfl
@[simp] theorem State.accept_sel (c : Command) (s : State) : (s.accept c).sel = s.sel := rfl
@[simp] theorem State.accept_cfg (c : Command) (s : State) : (s.accept c).cfg = s.cfg := rfl
@[simp] theorem State.accept_env (c : Command) (s : State) : (s.accept c).env = { s.env with offers := s.env.offers.tail } := rfl
@[simp] theorem State.accept_trace (c : Command) (s : State) : (s.accept c).trace = s.trace ++ [.cmdAccept c.word c.payload] := rfl

/-! ### `State.enterAwait`: The sending is over. -/

@[simp] theorem State.enterAwait_op (s : State) : s.enterAwait.op = s.op := rfl
@[simp] theorem State.enterAwait_addr (s : State) : s.enterAwait.addr = s.addr := rfl
@[simp] theorem State.enterAwait_data (s : State) : s.enterAwait.data = s.data := rfl
@[simp] theorem State.enterAwait_msb (s : State) : s.enterAwait.msb = s.msb := rfl
@[simp] theorem State.enterAwait_lsb (s : State) : s.enterAwait.lsb = s.lsb := rfl
@[simp] theorem State.enterAwait_arg (s : State) : s.enterAwait.arg = s.arg := rfl
@[simp] theorem State.enterAwait_payload (s : State) : s.enterAwait.payload = s.payload := rfl
@[simp] theorem State.enterAwait_cur (s : State) : s.enterAwait.cur = s.cur := rfl
@[simp] theorem State.enterAwait_mask (s : State) : s.enterAwait.mask = s.mask := rfl
@[simp] theorem State.enterAwait_new (s : State) : s.enterAwait.new = s.new := rfl
@[simp] theorem State.enterAwait_last (s : State) : s.enterAwait.last = s.last := rfl
@[simp] theorem State.enterAwait_t0 (s : State) : s.enterAwait.t0 = s.t0 := rfl
@[simp] theorem State.enterAwait_idx (s : State) : s.enterAwait.idx = s.idx := rfl
@[simp] theorem State.enterAwait_rxdata (s : State) : s.enterAwait.rxdata = s.rxdata := rfl
@[simp] theorem State.enterAwait_rbuf (s : State) : s.enterAwait.rbuf = [] := rfl
@[simp] theorem State.enterAwait_busy (s : State) : s.enterAwait.busy = s.busy := rfl
@[simp] theorem State.enterAwait_rbPhase (s : State) : s.enterAwait.rbPhase = s.rbPhase := rfl
@[simp] theorem State.enterAwait_txnStep (s : State) : s.enterAwait.txnStep = s.txnStep := rfl
@[simp] theorem State.enterAwait_lpState (s : State) : s.enterAwait.lpState = .awaiting := rfl
@[simp] theorem State.enterAwait_point (s : State) : s.enterAwait.point = .sample := rfl
@[simp] theorem State.enterAwait_busOwned (s : State) : s.enterAwait.busOwned = s.busOwned := rfl
@[simp] theorem State.enterAwait_sel (s : State) : s.enterAwait.sel = s.sel := rfl
@[simp] theorem State.enterAwait_cfg (s : State) : s.enterAwait.cfg = s.cfg := rfl
@[simp] theorem State.enterAwait_env (s : State) : s.enterAwait.env = s.env := rfl
@[simp] theorem State.enterAwait_trace (s : State) : s.enterAwait.trace = s.trace := rfl

/-! ### `State.dropTurn`: A turn is taken from the list. -/

@[simp] theorem State.dropTurn_op (s : State) : s.dropTurn.op = s.op := rfl
@[simp] theorem State.dropTurn_addr (s : State) : s.dropTurn.addr = s.addr := rfl
@[simp] theorem State.dropTurn_data (s : State) : s.dropTurn.data = s.data := rfl
@[simp] theorem State.dropTurn_msb (s : State) : s.dropTurn.msb = s.msb := rfl
@[simp] theorem State.dropTurn_lsb (s : State) : s.dropTurn.lsb = s.lsb := rfl
@[simp] theorem State.dropTurn_arg (s : State) : s.dropTurn.arg = s.arg := rfl
@[simp] theorem State.dropTurn_payload (s : State) : s.dropTurn.payload = s.payload := rfl
@[simp] theorem State.dropTurn_cur (s : State) : s.dropTurn.cur = s.cur := rfl
@[simp] theorem State.dropTurn_mask (s : State) : s.dropTurn.mask = s.mask := rfl
@[simp] theorem State.dropTurn_new (s : State) : s.dropTurn.new = s.new := rfl
@[simp] theorem State.dropTurn_last (s : State) : s.dropTurn.last = s.last := rfl
@[simp] theorem State.dropTurn_t0 (s : State) : s.dropTurn.t0 = s.t0 := rfl
@[simp] theorem State.dropTurn_idx (s : State) : s.dropTurn.idx = s.idx := rfl
@[simp] theorem State.dropTurn_rxdata (s : State) : s.dropTurn.rxdata = s.rxdata := rfl
@[simp] theorem State.dropTurn_rbuf (s : State) : s.dropTurn.rbuf = s.rbuf := rfl
@[simp] theorem State.dropTurn_busy (s : State) : s.dropTurn.busy = s.busy := rfl
@[simp] theorem State.dropTurn_rbPhase (s : State) : s.dropTurn.rbPhase = s.rbPhase := rfl
@[simp] theorem State.dropTurn_txnStep (s : State) : s.dropTurn.txnStep = s.txnStep := rfl
@[simp] theorem State.dropTurn_lpState (s : State) : s.dropTurn.lpState = s.lpState := rfl
@[simp] theorem State.dropTurn_point (s : State) : s.dropTurn.point = s.point := rfl
@[simp] theorem State.dropTurn_busOwned (s : State) : s.dropTurn.busOwned = s.busOwned := rfl
@[simp] theorem State.dropTurn_sel (s : State) : s.dropTurn.sel = s.sel := rfl
@[simp] theorem State.dropTurn_cfg (s : State) : s.dropTurn.cfg = s.cfg := rfl
@[simp] theorem State.dropTurn_env (s : State) : s.dropTurn.env = { s.env with turns := s.env.turns.tail } := rfl
@[simp] theorem State.dropTurn_trace (s : State) : s.dropTurn.trace = s.trace := rfl

/-! ### `State.ready`: The machine ready for a command. -/

@[simp] theorem State.ready_op (s : State) : s.ready.op = s.op := rfl
@[simp] theorem State.ready_addr (s : State) : s.ready.addr = s.addr := rfl
@[simp] theorem State.ready_data (s : State) : s.ready.data = s.data := rfl
@[simp] theorem State.ready_msb (s : State) : s.ready.msb = s.msb := rfl
@[simp] theorem State.ready_lsb (s : State) : s.ready.lsb = s.lsb := rfl
@[simp] theorem State.ready_arg (s : State) : s.ready.arg = s.arg := rfl
@[simp] theorem State.ready_payload (s : State) : s.ready.payload = s.payload := rfl
@[simp] theorem State.ready_cur (s : State) : s.ready.cur = s.cur := rfl
@[simp] theorem State.ready_mask (s : State) : s.ready.mask = s.mask := rfl
@[simp] theorem State.ready_new (s : State) : s.ready.new = s.new := rfl
@[simp] theorem State.ready_last (s : State) : s.ready.last = s.last := rfl
@[simp] theorem State.ready_t0 (s : State) : s.ready.t0 = s.t0 := rfl
@[simp] theorem State.ready_idx (s : State) : s.ready.idx = s.idx := rfl
@[simp] theorem State.ready_rxdata (s : State) : s.ready.rxdata = s.rxdata := rfl
@[simp] theorem State.ready_rbuf (s : State) : s.ready.rbuf = [] := rfl
@[simp] theorem State.ready_busy (s : State) : s.ready.busy = false := rfl
@[simp] theorem State.ready_rbPhase (s : State) : s.ready.rbPhase = .idle := rfl
@[simp] theorem State.ready_txnStep (s : State) : s.ready.txnStep = .none := rfl
@[simp] theorem State.ready_lpState (s : State) : s.ready.lpState = .idle := rfl
@[simp] theorem State.ready_point (s : State) : s.ready.point = .idle := rfl
@[simp] theorem State.ready_busOwned (s : State) : s.ready.busOwned = false := rfl
@[simp] theorem State.ready_sel (s : State) : s.ready.sel = .inactive := rfl
@[simp] theorem State.ready_cfg (s : State) : s.ready.cfg = s.cfg := rfl
@[simp] theorem State.ready_env (s : State) : s.ready.env = s.env := rfl
@[simp] theorem State.ready_trace (s : State) : s.ready.trace = s.trace := rfl

/-! ### `deliver` and `raise` are `finish` -/

@[simp] theorem State.deliver_eq (v : Byte) (d : List Byte) (s : State) : s.deliver v d = s.finish .ok v d := rfl

@[simp] theorem State.raise_eq (st : Status) (s : State) : s.raise st = s.finish st 0x00 [] := rfl

/-! ### `assertReset` -/

@[simp] theorem State.assertReset_busy (s : State) : s.assertReset.busy = false := rfl
@[simp] theorem State.assertReset_rbPhase (s : State) : s.assertReset.rbPhase = .idle := rfl
@[simp] theorem State.assertReset_txnStep (s : State) : s.assertReset.txnStep = .none := rfl
@[simp] theorem State.assertReset_lpState (s : State) : s.assertReset.lpState = .idle := rfl
@[simp] theorem State.assertReset_point (s : State) : s.assertReset.point = .idle := rfl
@[simp] theorem State.assertReset_busOwned (s : State) : s.assertReset.busOwned = false := rfl
@[simp] theorem State.assertReset_sel (s : State) : s.assertReset.sel = .inactive := rfl
@[simp] theorem State.assertReset_rbuf (s : State) : s.assertReset.rbuf = [] := rfl
@[simp] theorem State.assertReset_cfg (s : State) : s.assertReset.cfg = s.cfg := rfl
@[simp] theorem State.assertReset_env (s : State) : s.assertReset.env = { s.env with resetLine := true } := rfl

end Sys2Proof.Machine
end

