-- ==== Sys2Proof/Laws/Ops.lean ====
section
/-! SUPPORT. What each shared operation can do, said once: running a command step by step, the environment's answers, and the
verdict on a response. -/

namespace Sys2Proof.Machine

open Sys2Proof

/-! ## Running a command -/

@[simp] theorem execFor_zero (i : Instr) (s : State) : execFor i 0 s = .next s := rfl

/-- One step that goes on, and the rest. -/
theorem execFor_succ {i : Instr} {s t : State} (k : Nat) (h : exec i s = .next t) :
    execFor i (k + 1) s = execFor i k t := by
  simp [execFor, h]

/-- Runs compose. -/
theorem execFor_add {i : Instr} {s t : State} (m k : Nat) (h : execFor i m s = .next t) :
    execFor i (m + k) s = execFor i k t := by
  induction m generalizing s with
  | zero =>
    simp only [execFor_zero, Host.Outcome.next.injEq] at h
    simp [h]
  | succ m ih =>
    rw [Nat.succ_add]
    simp only [execFor] at h ⊢
    cases hx : exec i s with
    | next u =>
      rw [hx] at h
      exact ih h
    | fault r => rw [hx] at h; cases h
    | refused r => rw [hx] at h; cases h

/-- A run of `k + 1` steps that goes on begins with a step that goes on. -/
theorem execFor_succ_cases {i : Instr} {s t : State} {k : Nat} (h : execFor i (k + 1) s = .next t) :
    ∃ u, exec i s = .next u ∧ execFor i k u = .next t := by
  simp only [execFor] at h
  cases hx : exec i s with
  | next u => exact ⟨u, rfl, by rw [hx] at h; exact h⟩
  | fault r => rw [hx] at h; cases h
  | refused r => rw [hx] at h; cases h

/-! ## The environment's answers: what they leave alone -/

@[simp] theorem Env.beginTxn_offers (e : Env) : e.beginTxn.offers = e.offers := by unfold Env.beginTxn; split <;> rfl
@[simp] theorem Env.beginTxn_resetLine (e : Env) : e.beginTxn.resetLine = e.resetLine := by
  unfold Env.beginTxn; split <;> rfl
@[simp] theorem Env.beginTxn_otherOwns (e : Env) : e.beginTxn.otherOwns = e.otherOwns := by
  unfold Env.beginTxn; split <;> rfl
@[simp] theorem Env.beginTxn_channel (e : Env) : e.beginTxn.channel = e.channel := by unfold Env.beginTxn; split <;> rfl
@[simp] theorem Env.beginTxn_clock (e : Env) : e.beginTxn.clock = e.clock := by unfold Env.beginTxn; split <;> rfl
@[simp] theorem Env.beginTxn_turns (e : Env) : e.beginTxn.turns = e.turns := by unfold Env.beginTxn; split <;> rfl

@[simp] theorem Env.selAssert_offers (e : Env) : e.selAssert.offers = e.offers := by unfold Env.selAssert; split <;> rfl
@[simp] theorem Env.selAssert_resetLine (e : Env) : e.selAssert.resetLine = e.resetLine := by
  unfold Env.selAssert; split <;> rfl
@[simp] theorem Env.selAssert_otherOwns (e : Env) : e.selAssert.otherOwns = e.otherOwns := by
  unfold Env.selAssert; split <;> rfl
@[simp] theorem Env.selAssert_channel (e : Env) : e.selAssert.channel = e.channel := by
  unfold Env.selAssert; split <;> rfl
@[simp] theorem Env.selAssert_clock (e : Env) : e.selAssert.clock = e.clock := by unfold Env.selAssert; split <;> rfl
@[simp] theorem Env.selAssert_turns (e : Env) : e.selAssert.turns = e.turns := by unfold Env.selAssert; split <;> rfl

/-- `DEV_B`'s answer touches the device and the count of draws alone. -/
theorem Env.answer_eq (e : Env) (tx : Byte) :
    (e.answer tx).2 = { e with device := (e.answer tx).2.device, draws := (e.answer tx).2.draws } := by
  unfold Env.answer; split <;> rfl

@[simp] theorem Env.xfer_offers (e : Env) (tx : Byte) : (e.xfer tx).2.offers = e.offers := by
  simp only [Env.xfer]; rw [Env.answer_eq]
@[simp] theorem Env.xfer_resetLine (e : Env) (tx : Byte) : (e.xfer tx).2.resetLine = e.resetLine := by
  simp only [Env.xfer]; rw [Env.answer_eq]
@[simp] theorem Env.xfer_otherOwns (e : Env) (tx : Byte) : (e.xfer tx).2.otherOwns = e.otherOwns := by
  simp only [Env.xfer]; rw [Env.answer_eq]
@[simp] theorem Env.xfer_channel (e : Env) (tx : Byte) : (e.xfer tx).2.channel = e.channel := by
  simp only [Env.xfer]; rw [Env.answer_eq]
@[simp] theorem Env.xfer_clock (e : Env) (tx : Byte) : (e.xfer tx).2.clock = e.clock.afterXfer := by
  simp only [Env.xfer]; rw [Env.answer_eq]
@[simp] theorem Env.xfer_turns (e : Env) (tx : Byte) : (e.xfer tx).2.turns = e.turns := by
  simp only [Env.xfer]; rw [Env.answer_eq]

@[simp] theorem Env.nowUs_answer (e : Env) : e.nowUs.1 = e.clock.nowUs := rfl
@[simp] theorem Env.nowUs_offers (e : Env) : e.nowUs.2.offers = e.offers := rfl
@[simp] theorem Env.nowUs_resetLine (e : Env) : e.nowUs.2.resetLine = e.resetLine := rfl
@[simp] theorem Env.nowUs_device (e : Env) : e.nowUs.2.device = e.device := rfl
@[simp] theorem Env.nowUs_draws (e : Env) : e.nowUs.2.draws = e.draws := rfl
@[simp] theorem Env.nowUs_otherOwns (e : Env) : e.nowUs.2.otherOwns = e.otherOwns := rfl
@[simp] theorem Env.nowUs_channel (e : Env) : e.nowUs.2.channel = e.channel := rfl
@[simp] theorem Env.nowUs_turns (e : Env) : e.nowUs.2.turns = e.turns := rfl
@[simp] theorem Env.nowUs_clock (e : Env) : e.nowUs.2.clock = e.clock.afterNowUs := rfl

@[simp] theorem Env.nowMs_answer (e : Env) : e.nowMs.1 = e.clock.nowMs := rfl
@[simp] theorem Env.nowMs_offers (e : Env) : e.nowMs.2.offers = e.offers := rfl
@[simp] theorem Env.nowMs_resetLine (e : Env) : e.nowMs.2.resetLine = e.resetLine := rfl
@[simp] theorem Env.nowMs_device (e : Env) : e.nowMs.2.device = e.device := rfl
@[simp] theorem Env.nowMs_draws (e : Env) : e.nowMs.2.draws = e.draws := rfl
@[simp] theorem Env.nowMs_otherOwns (e : Env) : e.nowMs.2.otherOwns = e.otherOwns := rfl
@[simp] theorem Env.nowMs_channel (e : Env) : e.nowMs.2.channel = e.channel := rfl
@[simp] theorem Env.nowMs_turns (e : Env) : e.nowMs.2.turns = e.turns := rfl
@[simp] theorem Env.nowMs_clock (e : Env) : e.nowMs.2.clock = e.clock.afterNowMs := rfl

/-! ## The clock (spec/60_exceptions.md R173, spec/20_memory.md R66) -/

@[simp] theorem Clock.afterNowUs_ref (tau x p : Nat) : (Clock.ref tau x p).afterNowUs = .ref tau x p := rfl
@[simp] theorem Clock.afterNowMs_ref (tau x p : Nat) : (Clock.ref tau x p).afterNowMs = .ref tau x p := rfl
@[simp] theorem Clock.afterXfer_ref (tau x p : Nat) : (Clock.ref tau x p).afterXfer = .ref (tau + x) x p := rfl
@[simp] theorem Clock.afterAvail_ref (tau x p : Nat) : (Clock.ref tau x p).afterAvail = .ref (tau + p) x p := rfl
@[simp] theorem Clock.tick_ref (us ms tau x p : Nat) : (Clock.ref tau x p).tick us ms = .ref tau x p := rfl

@[simp] theorem Clock.afterNowUs_counters (us ms : Counter) :
    (Clock.counters us ms).afterNowUs = .counters (us.read .us) ms := rfl
@[simp] theorem Clock.afterNowMs_counters (us ms : Counter) :
    (Clock.counters us ms).afterNowMs = .counters us (ms.read .ms) := rfl
@[simp] theorem Clock.afterXfer_counters (us ms : Counter) : (Clock.counters us ms).afterXfer = .counters us ms := rfl
@[simp] theorem Clock.afterAvail_counters (us ms : Counter) : (Clock.counters us ms).afterAvail = .counters us ms := rfl
@[simp] theorem Clock.tick_counters (u m : Nat) (us ms : Counter) :
    (Clock.counters us ms).tick u m = .counters (us.advance u) (ms.advance m) := rfl

/-- The counter after `n` readings. -/
def Counter.readings (unit : TickUnit) : Nat → Counter → Counter
  | 0, c => c
  | n + 1, c => Counter.readings unit n (c.read unit)

theorem Counter.readings_succ (unit : TickUnit) (n : Nat) (c : Counter) :
    c.readings unit (n + 1) = (c.readings unit n).read unit := by
  induction n generalizing c with
  | zero => rfl
  | succ n ih => exact ih (c.read unit)

/-- A reading never takes time back. -/
theorem Counter.le_read (unit : TickUnit) (c : Counter) : c.ticks ≤ (c.read unit).ticks := by
  unfold Counter.read
  split
  · exact le_rfl
  · simp only; omega

/-- More readings never show less time. -/
theorem Counter.readings_mono (unit : TickUnit) (c : Counter) {m n : Nat} (h : m ≤ n) :
    (c.readings unit m).ticks ≤ (c.readings unit n).ticks := by
  induction h with
  | refl => exact le_rfl
  | step _ ih => exact ih.trans (Counter.readings_succ unit _ c ▸ Counter.le_read unit _)

/-- Once the readings its last passage left to it are over, the counter advances. -/
theorem Counter.readings_advance (unit : TickUnit) (c : Counter) :
    c.ticks < (c.readings unit (c.still + 1)).ticks := by
  obtain ⟨ticks, still, passages⟩ := c
  induction still generalizing ticks passages with
  | zero => simp [Counter.readings, Counter.read]; omega
  | succ k ih => exact ih ticks passages

/-- For every bound there is a number of readings after which the count exceeds it (R173 (b)). -/
theorem Counter.readings_exceed (unit : TickUnit) (c : Counter) (bound : Nat) :
    ∃ n, bound < (c.readings unit n).ticks := by
  induction bound with
  | zero => exact ⟨_, (Nat.zero_le _).trans_lt (c.readings_advance unit)⟩
  | succ b ih =>
    obtain ⟨n, hn⟩ := ih
    have hadd : ∀ (m : Nat) (d : Counter), (d.readings unit n).readings unit m = d.readings unit (n + m) := by
      intro m d
      induction m with
      | zero => rfl
      | succ m ihm => rw [Counter.readings_succ, ihm, ← Nat.add_assoc, Counter.readings_succ]
    refine ⟨n + ((c.readings unit n).still + 1), ?_⟩
    have := (c.readings unit n).readings_advance unit
    rw [hadd] at this
    omega

/-- Time that passes otherwise commutes with a reading. -/
@[simp] theorem Counter.read_advance (unit : TickUnit) (n : Nat) (c : Counter) :
    (c.advance n).read unit = (c.read unit).advance n := by
  obtain ⟨ticks, still, passages⟩ := c
  cases still <;> simp [Counter.read, Counter.advance]; omega

/-! ## The device's memory stays canonical -/

theorem RefDevice.load_reg (d : RefDevice) (a : Nat) : (d.load a).2.reg = d.reg := by
  unfold RefDevice.load
  split
  · rfl
  · rfl
  · split <;> rfl

/-- What a store of any variant does to the registers: the addressed one takes the byte or keeps its own. -/
theorem RefDevice.store_reg (d : RefDevice) (a : Nat) (b : Byte) :
    (d.store a b).reg = d.reg.write a b ∨ (d.store a b).reg = d.reg := by
  unfold RefDevice.store
  split
  · exact .inl rfl
  · split
    · exact .inr rfl
    · exact .inl rfl
  · exact .inl rfl

theorem RefDevice.store_wf (d : RefDevice) (a : Nat) (b : Byte) (h : d.reg.wf = true) : (d.store a b).reg.wf = true := by
  rcases d.store_reg a b with hr | hr <;> rw [hr]
  · exact Memory.write_wf _ _ _ h
  · exact h

theorem RefDevice.xfer_wf (d : RefDevice) (tx : Byte) (h : d.reg.wf = true) : (d.xfer tx).2.reg.wf = true := by
  unfold RefDevice.xfer
  split
  · exact h
  · split
    · exact d.store_wf _ _ h
    · simpa [RefDevice.load_reg] using h

/-- An `Xfer` changes no register but its target. -/
theorem RefDevice.xfer_read (d : RefDevice) (tx : Byte) (x : Nat) (h : d.reg.wf = true) (hx : d.target ≠ some x) :
    (d.xfer tx).2.reg.read x = d.reg.read x := by
  unfold RefDevice.xfer
  split
  · rfl
  · split
    · next y hy =>
      rw [hy] at hx
      have hne : x ≠ y := fun heq => hx (by rw [heq])
      rcases d.store_reg y tx with hr | hr
      · simp [hr, Memory.read_write _ _ _ _ h, hne]
      · simp [hr]
    · simp [RefDevice.load_reg]

/-! ## The verdict on a response -/

/-- What the buffer holds it still holds with more bytes behind. -/
theorem contains_append (s k u : List Byte) (h : contains s k = true) : contains (s ++ u) k = true := by
  induction s with
  | nil =>
    cases k with
    | nil => cases u <;> simp [contains]
    | cons b k => simp [contains] at h
  | cons b s ih =>
    simp only [contains, Bool.or_eq_true, List.cons_append] at h ⊢
    rcases h with h | h
    · left
      rw [List.isPrefixOf_iff_prefix] at h ⊢
      exact h.trans (List.prefix_append (b :: s) u)
    · exact .inr (ih h)

/-- No verdict on a buffer means none on what it began with. -/
theorem classify_pending_of_append (s u : List Byte) (h : classify (s ++ u) = .pending) : classify s = .pending := by
  unfold classify at h ⊢
  split at h
  · cases h
  · next h1 =>
    split at h
    · cases h
    · next h2 =>
      have hs1 : ¬ contains s kwOk = true := fun hc => h1 (contains_append s kwOk u hc)
      have hs2 : ¬ contains s kwErr = true := fun hc => h2 (contains_append s kwErr u hc)
      simp [hs1, hs2]

end Sys2Proof.Machine
end

