-- ==== Sys2Proof/Laws/Steps.lean ====
section
/-! SUPPORT. Everything a shared operation and a meaning can do, said once as inversion lemmas: what the next state is, and in
which state of the control registers it comes. -/

namespace Sys2Proof.Machine

open Sys2Proof

/-! ## The bus step -/

/-- The eight things a bus step can do. -/
theorem busStep_cases {wire : Byte} {tx : List Byte} {c : Capture} {released : State → State} {s t : State}
    (h : busStep wire tx c released s = .next t) :
    (s.txnStep = .acq ∧ s.env.otherOwns = true ∧ t = s) ∨
    (s.txnStep = .acq ∧ s.env.otherOwns = false ∧ t = { s with
      busOwned := true, txnStep := .sel, env := s.env.beginTxn, trace := s.trace ++ [.beginTxn] }) ∨
    (s.txnStep = .sel ∧ t = { s with
      sel := .active, txnStep := .addr, env := s.env.selAssert, trace := s.trace ++ [.selAssert] }) ∨
    (s.txnStep = .addr ∧ tx = [] ∧ t = { s with
      env := (s.env.xfer wire).2, txnStep := .desel, trace := s.trace ++ [.xfer wire (s.env.xfer wire).1] }) ∨
    (s.txnStep = .addr ∧ tx ≠ [] ∧ t = { s with
      env := (s.env.xfer wire).2, txnStep := .data, idx := 0
      trace := s.trace ++ [.xfer wire (s.env.xfer wire).1] }) ∨
    (s.txnStep = .data ∧ ∃ b, tx[s.idx.toNat]? = some b ∧ t = { s.capture c (s.env.xfer b).1 with
      env := (s.env.xfer b).2
      idx := if s.idx.toNat + 1 < tx.length then s.idx + 1 else s.idx
      txnStep := if s.idx.toNat + 1 < tx.length then .data else .desel
      trace := s.trace ++ [.xfer b (s.env.xfer b).1] }) ∨
    (s.txnStep = .desel ∧ t = { s with
      sel := .inactive, txnStep := .rel, trace := s.trace ++ [.selDeassert] }) ∨
    (s.txnStep = .rel ∧ t = released { s with
      busOwned := false, txnStep := .none, trace := s.trace ++ [.endTxn] }) := by
  cases ht : s.txnStep with
  | none => simp [busStep, ht] at h
  | acq =>
    cases ho : s.env.otherOwns with
    | true => exact .inl ⟨rfl, rfl, by simpa [busStep, ht, Env.busFree, ho, eq_comm] using h⟩
    | false => exact .inr (.inl ⟨rfl, rfl, by simpa [busStep, ht, Env.busFree, ho, State.emit, eq_comm] using h⟩)
  | sel => exact .inr (.inr (.inl ⟨rfl, by simpa [busStep, ht, State.emit, eq_comm] using h⟩))
  | addr =>
    by_cases hx : tx = []
    · exact .inr (.inr (.inr (.inl ⟨rfl, hx, by simpa [busStep, ht, hx, State.emit, eq_comm] using h⟩)))
    · exact .inr (.inr (.inr (.inr (.inl ⟨rfl, hx, by simpa [busStep, ht, hx, State.emit, eq_comm] using h⟩))))
  | data =>
    cases hb : tx[s.idx.toNat]? with
    | none => simp [busStep, ht, hb] at h
    | some b =>
      refine .inr (.inr (.inr (.inr (.inr (.inl ⟨rfl, b, rfl, ?_⟩)))))
      simp only [busStep, ht, hb, Host.Outcome.next.injEq] at h
      subst h
      by_cases hl : s.idx.toNat + 1 < tx.length <;> cases c <;> simp [hl, State.emit, State.capture, ht]
  | desel =>
    exact .inr (.inr (.inr (.inr (.inr (.inr (.inl ⟨rfl, by simpa [busStep, ht, State.emit, eq_comm] using h⟩))))))
  | rel =>
    exact .inr (.inr (.inr (.inr (.inr (.inr (.inr ⟨rfl, by simpa [busStep, ht, State.emit, eq_comm] using h⟩))))))

/-- A bus step goes on wherever `SEQ` is inside the transaction. -/
theorem busStep_next {wire : Byte} {tx : List Byte} {c : Capture} {released : State → State} {s : State}
    (h : InTxn tx.length s) : ∃ t, busStep wire tx c released s = .next t := by
  obtain ⟨-, hn, hi⟩ := h
  unfold busStep
  split <;> try exact ⟨_, rfl⟩
  · next ht => exact absurd ht hn
  · split <;> exact ⟨_, rfl⟩
  · next ht =>
    have := hi ht
    simp [this]

/-! ## The serial steps -/

/-- `Avail` of the flush: drained, or a byte to read. -/
theorem flushAvailStep_cases {drained : State → State} {s t : State} (h : flushAvailStep drained s = .next t) :
    (s.env.avail.1 = 0 ∧ t = drained { s with env := s.env.avail.2, trace := s.trace ++ [.avail 0] }) ∨
    (s.env.avail.1 ≠ 0 ∧ t = { s with
      env := s.env.avail.2, point := .flushRead, trace := s.trace ++ [.avail s.env.avail.1] }) := by
  simp only [flushAvailStep, State.emit, Host.Outcome.next.injEq] at h
  by_cases h0 : s.env.avail.1 = 0
  · left; exact ⟨h0, by simpa [h0, eq_comm] using h⟩
  · right; exact ⟨h0, by simpa [h0, eq_comm] using h⟩

/-- `RdByte` of the flush drops the oldest byte. -/
theorem flushReadStep_cases {s t : State} (h : flushReadStep s = .next t) :
    ∃ b rest, s.env.channel.inbound = b :: rest ∧ t = { s with
      env := { s.env with channel := { s.env.channel with inbound := rest } }
      point := .flushAvail
      trace := s.trace ++ [.rdByte b] } := by
  cases hq : s.env.channel.inbound with
  | nil => simp [flushReadStep, Env.rdByte, hq] at h
  | cons b rest =>
    refine ⟨b, rest, rfl, ?_⟩
    simpa [flushReadStep, Env.rdByte, hq, State.emit, eq_comm] using h

/-- After an `Avail` that found bytes the queue is not empty. -/
theorem Env.avail_inbound (e : Env) (h : e.avail.1 ≠ 0) : e.avail.2.channel.inbound ≠ [] := by
  intro hn
  apply h
  simp only [Env.avail] at hn ⊢
  rw [hn]; rfl

/-- The verdict on the buffer with the byte. -/
theorem State.receive_cases (b : Byte) (s : State) :
    (classify (s.rbuf ++ [b]) = .success ∧
      s.receive b = { s with lpState := .success, rbuf := [], point := .owe .ok }) ∨
    (classify (s.rbuf ++ [b]) = .failure ∧
      s.receive b = { s with lpState := .failure, rbuf := [], point := .owe .lineFailure }) ∨
    (classify (s.rbuf ++ [b]) = .pending ∧ s.receive b = { s with rbuf := s.rbuf ++ [b], point := .window }) := by
  unfold State.receive
  cases classify (s.rbuf ++ [b]) <;> simp

/-- The next byte to write, or the wait. -/
theorem State.toSend_cases (payload term : List Byte) (s : State) :
    (payload ≠ [] ∧ s.toSend payload term = { s with point := .send payload }) ∨
    (payload = [] ∧ term ≠ [] ∧ s.toSend payload term = { s with point := .term term }) ∨
    (payload = [] ∧ term = [] ∧
      s.toSend payload term = { s with lpState := .awaiting, rbuf := [], point := .sample }) := by
  unfold State.toSend
  by_cases hp : payload = []
  · by_cases ht : term = [] <;> simp [hp, ht, State.enterAwait]
  · simp [hp]

/-- Everything a step of an exchange can do. -/
theorem exchangeStep_cases {payload : List Byte} {s t : State} (h : exchangeStep payload s = .next t) :
    (s.lpState = .idle ∧ s.point = .idle ∧ t = { s with lpState := .sending, point := .flushAvail }) ∨
    (s.lpState = .sending ∧ s.point = .flushAvail ∧
      flushAvailStep (State.toSend payload s.cfg.lineTerm) s = .next t) ∨
    (s.lpState = .sending ∧ s.point = .flushRead ∧ flushReadStep s = .next t) ∨
    (s.lpState = .sending ∧ ∃ b rest, s.point = .send (b :: rest) ∧
      t = (s.sendByte payload rest b).toSend rest s.cfg.lineTerm) ∨
    (s.lpState = .sending ∧ ∃ b rest, s.point = .term (b :: rest) ∧
      t = (s.sendByte s.cfg.lineTerm rest b).toSend [] rest) ∨
    (s.lpState = .awaiting ∧ s.point = .sample ∧ t = { s with
      t0 := s.env.clock.nowMs, env := s.env.nowMs.2, point := .window, trace := s.trace ++ [.nowMs s.env.clock.nowMs] }) ∨
    (s.lpState = .awaiting ∧ s.point = .window ∧ awaitWindowStep s = .next t) ∨
    (s.lpState = .awaiting ∧ s.point = .poll ∧ awaitPollStep s = .next t) ∨
    (s.lpState = .awaiting ∧ s.point = .read ∧ awaitReadStep s = .next t) ∨
    (s.lpState = .awaiting ∧ ∃ b, s.point = .mirror b ∧ t = (s.emit (.dbgByte b)).receive b) ∨
    (s.lpState = .success ∧ s.point = .owe .ok ∧ t = s.deliver 0x00 []) ∨
    (s.lpState = .failure ∧ s.point = .owe .lineFailure ∧ t = s.raise .lineFailure) := by
  unfold exchangeStep at h
  split at h <;> simp_all [State.sampleMs, State.emit, eq_comm]

/-- Everything a step of `FLUSH` can do. -/
theorem execFlush_cases {s t : State} (h : execFlush s = .next t) :
    (s.lpState = .idle ∧ s.point = .idle ∧ t = { s with point := .flushAvail }) ∨
    (s.lpState = .idle ∧ s.point = .flushAvail ∧ flushAvailStep (State.owe .ok) s = .next t) ∨
    (s.lpState = .idle ∧ s.point = .flushRead ∧ flushReadStep s = .next t) ∨
    (s.lpState = .idle ∧ s.point = .owe .ok ∧ t = s.deliver 0x00 []) := by
  unfold execFlush at h
  split at h <;> simp_all [eq_comm]

/-! ## The bus commands -/

/-- Everything a step of `RDREG` can do. -/
theorem execRdreg_cases {addr : Byte} {s t : State} (h : execRdreg addr s = .next t) :
    (s.rbPhase = .idle ∧ s.point = .idle ∧
      t = { s with rbPhase := .plain, rxdata := [], txnStep := .acq, point := .txn }) ∨
    (s.rbPhase = .plain ∧ s.point = .txn ∧
      busStep (wireRead s.cfg addr) (fillers s.cfg 1) .rxdata (State.owe .ok) s = .next t) ∨
    (s.rbPhase = .plain ∧ s.point = .owe .ok ∧ ∃ b rest, s.rxdata = b :: rest ∧ t = s.deliver b []) := by
  unfold execRdreg at h
  split at h
  · simp_all [State.openTxn, eq_comm]
  · simp_all [readStep]
  · split at h <;> simp_all [eq_comm]
  · cases h

/-- Everything a step of `WRREG` can do. -/
theorem execWrreg_cases {addr byte : Byte} {s t : State} (h : execWrreg addr byte s = .next t) :
    (s.rbPhase = .idle ∧ s.point = .idle ∧ t = { s with rbPhase := .plain, txnStep := .acq, point := .txn }) ∨
    (s.rbPhase = .plain ∧ s.point = .txn ∧
      busStep (wireWrite s.cfg addr) [byte] .discard (State.owe .ok) s = .next t) ∨
    (s.rbPhase = .plain ∧ s.point = .owe .ok ∧ t = s.deliver 0x00 []) := by
  unfold execWrreg at h
  split at h <;> simp_all [State.openTxn, writeStep, eq_comm]

/-- Everything a step of `RDBURST` can do. -/
theorem execRdburst_cases {addr : Byte} {count : Half} {s t : State} (h : execRdburst addr count s = .next t) :
    (s.rbPhase = .idle ∧ s.point = .idle ∧
      t = { s with rbPhase := .plain, rxdata := [], txnStep := .acq, point := .txn }) ∨
    (s.rbPhase = .plain ∧ s.point = .txn ∧
      busStep (wireRead s.cfg addr) (fillers s.cfg count.toNat) .rxdata (State.owe .ok) s = .next t) ∨
    (s.rbPhase = .plain ∧ s.point = .owe .ok ∧ t = s.deliver 0x00 s.rxdata) := by
  unfold execRdburst at h
  split at h <;> simp_all [State.openTxn, readStep, eq_comm]

/-- Everything a step of `WRBURST` can do. -/
theorem execWrburst_cases {addr : Byte} {bytes : List Byte} {s t : State} (h : execWrburst addr bytes s = .next t) :
    (s.rbPhase = .idle ∧ s.point = .idle ∧ t = { s with rbPhase := .plain, txnStep := .acq, point := .txn }) ∨
    (s.rbPhase = .plain ∧ s.point = .txn ∧
      busStep (wireWrite s.cfg addr) bytes .discard (State.owe .ok) s = .next t) ∨
    (s.rbPhase = .plain ∧ s.point = .owe .ok ∧ t = s.deliver 0x00 []) := by
  unfold execWrburst at h
  split at h <;> simp_all [State.openTxn, writeStep, eq_comm]

/-- The head of a bit-field command. -/
theorem fieldStart_cases (msb lsb : Byte) (s : State) :
    (validRange msb lsb = true ∧ fieldStart msb lsb s = { s with rbPhase := .bfRead, txnStep := .acq, point := .txn }) ∨
    (validRange msb lsb = false ∧ fieldStart msb lsb s = { s with point := .owe .invalidBitRange }) := by
  unfold fieldStart
  cases validRange msb lsb <;> simp [State.openTxn, State.owe]

/-- Everything a step of `GETBF` can do. -/
theorem execGetbf_cases {addr msb lsb : Byte} {s t : State} (h : execGetbf addr msb lsb s = .next t) :
    (s.rbPhase = .idle ∧ s.point = .idle ∧ t = fieldStart msb lsb s) ∨
    (s.rbPhase = .idle ∧ s.point = .owe .invalidBitRange ∧ t = s.raise .invalidBitRange) ∨
    (s.rbPhase = .bfRead ∧ s.point = .txn ∧
      busStep (wireRead s.cfg addr) (fillers s.cfg 1) .cur
        (fun u => State.owe .ok { u with mask := fieldMask msb lsb }) s = .next t) ∨
    (s.rbPhase = .bfRead ∧ s.point = .owe .ok ∧ t = s.deliver ((s.cur &&& s.mask) >>> lsb.toNat) []) := by
  unfold execGetbf at h
  split at h <;> simp_all [readStep, eq_comm]

/-- Everything a step of `SETBF` can do. -/
theorem execSetbf_cases {addr value msb lsb : Byte} {win : Half} {s t : State}
    (h : execSetbf addr value msb lsb win s = .next t) :
    (s.rbPhase = .idle ∧ s.point = .idle ∧ t = fieldStart msb lsb s) ∨
    (s.rbPhase = .idle ∧ s.point = .owe .invalidBitRange ∧ t = s.raise .invalidBitRange) ∨
    (s.rbPhase = .bfRead ∧ s.point = .txn ∧
      busStep (wireRead s.cfg addr) (fillers s.cfg 1) .cur (setbfMerge value msb lsb) s = .next t) ∨
    (s.rbPhase = .bfWrite ∧ s.point = .txn ∧
      busStep (wireWrite s.cfg addr) [s.new] .discard (fun u => { u with point := .sample }) s = .next t) ∨
    (s.rbPhase = .bfWrite ∧ s.point = .sample ∧ t = { s with
      t0 := s.env.clock.nowUs, env := s.env.nowUs.2, last := 0x00, rbPhase := .bfPoll, point := .window
      trace := s.trace ++ [.nowUs s.env.clock.nowUs] }) ∨
    (s.rbPhase = .bfPoll ∧ s.point = .window ∧ t = setbfWindow win s) ∨
    (s.rbPhase = .bfPoll ∧ s.point = .txn ∧
      busStep (wireRead s.cfg addr) (fillers s.cfg 1) .last setbfCompare s = .next t) ∨
    (s.rbPhase = .bfPoll ∧ s.point = .diag ∧ t = { s with
      point := .owe .writeVerificationFailed
      trace := s.trace ++ [.dbgDiag (setbfRecord addr value msb lsb s)] }) ∨
    (s.rbPhase = .bfPoll ∧ s.point = .owe .ok ∧ t = s.deliver 0x00 []) ∨
    (s.rbPhase = .bfPoll ∧ s.point = .owe .writeVerificationFailed ∧ t = s.raise .writeVerificationFailed) := by
  unfold execSetbf at h
  split at h
  case h_11 => cases h
  case h_3 | h_4 | h_7 => simp_all [readStep, writeStep]
  all_goals
    obtain rfl := Host.Outcome.next.inj h
    simp_all [setbfSample, State.sampleUs, State.emit, State.owe]

/-- The window test of the poll. -/
theorem setbfWindow_cases (win : Half) (s : State) :
    (windowElapsed s.env.clock.nowUs s.t0 (win.setWidth 32) = true ∧ s.cfg.debugEn = true ∧ setbfWindow win s = { s with
      env := s.env.nowUs.2, point := .diag, trace := s.trace ++ [.nowUs s.env.clock.nowUs] }) ∨
    (windowElapsed s.env.clock.nowUs s.t0 (win.setWidth 32) = true ∧ s.cfg.debugEn = false ∧ setbfWindow win s = { s with
      env := s.env.nowUs.2, point := .owe .writeVerificationFailed, trace := s.trace ++ [.nowUs s.env.clock.nowUs] }) ∨
    (windowElapsed s.env.clock.nowUs s.t0 (win.setWidth 32) = false ∧ setbfWindow win s = { s with
      env := s.env.nowUs.2, txnStep := .acq, point := .txn, trace := s.trace ++ [.nowUs s.env.clock.nowUs] }) := by
  unfold setbfWindow
  cases hw : windowElapsed s.env.clock.nowUs s.t0 (win.setWidth 32) <;> cases hd : s.cfg.debugEn <;>
    simp [hw, State.emit, State.owe, State.openTxn]

/-- The comparison after a poll read. -/
theorem setbfCompare_cases (s : State) :
    (s.last = s.new ∧ setbfCompare s = { s with point := .owe .ok }) ∨
    (s.last ≠ s.new ∧ setbfCompare s = { s with point := .window }) := by
  unfold setbfCompare
  by_cases h : s.last = s.new <;> simp [h, State.owe]

/-- The timeout test of the wait. -/
theorem awaitWindowStep_cases {s t : State} (h : awaitWindowStep s = .next t) :
    (windowElapsed s.env.clock.nowMs s.t0 s.cfg.responseTimeoutMs = true ∧ t = { s with
      env := s.env.nowMs.2, lpState := .failure, rbuf := [], point := .owe .lineFailure
      trace := s.trace ++ [.nowMs s.env.clock.nowMs] }) ∨
    (windowElapsed s.env.clock.nowMs s.t0 s.cfg.responseTimeoutMs = false ∧ t = { s with
      env := s.env.nowMs.2, point := .poll, trace := s.trace ++ [.nowMs s.env.clock.nowMs] }) := by
  unfold awaitWindowStep at h
  obtain rfl := Host.Outcome.next.inj h
  cases hw : windowElapsed s.env.clock.nowMs s.t0 s.cfg.responseTimeoutMs <;> simp [hw, State.emit]

/-- `Avail` of the wait. -/
theorem awaitPollStep_cases {s t : State} (h : awaitPollStep s = .next t) :
    (s.env.avail.1 = 0 ∧ t = { s with
      env := s.env.avail.2, point := .window, trace := s.trace ++ [.avail s.env.avail.1] }) ∨
    (s.env.avail.1 ≠ 0 ∧ t = { s with
      env := s.env.avail.2, point := .read, trace := s.trace ++ [.avail s.env.avail.1] }) := by
  simp only [awaitPollStep, State.emit, Host.Outcome.next.injEq] at h
  by_cases h0 : s.env.avail.1 = 0
  · left; exact ⟨h0, by simpa [h0, eq_comm] using h⟩
  · right; exact ⟨h0, by simpa [h0, eq_comm] using h⟩

/-- `RdByte` of the wait, and the mirror or the verdict next. -/
theorem awaitReadStep_cases {s t : State} (h : awaitReadStep s = .next t) :
    ∃ b rest, s.env.channel.inbound = b :: rest ∧
      ((s.cfg.debugEn = true ∧ t = { s with
          env := { s.env with channel := { s.env.channel with inbound := rest } }
          point := .mirror b
          trace := s.trace ++ [.rdByte b] }) ∨
       (s.cfg.debugEn = false ∧ t = State.receive b { s with
          env := { s.env with channel := { s.env.channel with inbound := rest } }
          trace := s.trace ++ [.rdByte b] })) := by
  cases hq : s.env.channel.inbound with
  | nil => simp [awaitReadStep, Env.rdByte, hq] at h
  | cons b rest =>
    refine ⟨b, rest, rfl, ?_⟩
    cases hd : s.cfg.debugEn <;> simpa [awaitReadStep, Env.rdByte, hq, hd, State.emit, eq_comm] using h

/-! ## The command in the latches -/

/-- The latches of an accepted legal command hold it. -/
theorem latched_of_decode {c : Command} {s : State} {i : Instr} (h : decode s.cfg.mode c.word c.payload = .ok i) :
    (s.accept c).latched = .ok i := by
  have hz : zeroField c.word = 0 := by
    obtain ⟨-, -, -, hz, -⟩ := decode_eq_ok.mp h
    exact hz
  simpa [State.latched, State.latchedWord, State.accept, State.latch, packWord_fields hz] using h

/-- The latches alone say which command is in progress. -/
theorem latched_congr {s t : State} (h : SameLatches s t) (hc : t.cfg = s.cfg) : t.latched = s.latched := by
  obtain ⟨h1, h2, h3, h4, h5, h6, h7⟩ := h
  simp [State.latched, State.latchedWord, h1, h2, h3, h4, h5, h6, h7, hc]

/-- A decoded command belongs to the engine of the mode. -/
theorem engine_of_decode {m : Mode} {w : Word} {payload : List Byte} {i : Instr} (h : decode m w payload = .ok i) :
    i.engine = m := by
  obtain ⟨k, -, hk, -, -, -, hb⟩ := decode_eq_ok.mp h
  subst hb
  rw [← hk]
  cases k <;> rfl

end Sys2Proof.Machine
end

