-- ==== Sys2Proof/Laws/Frames.lean ====
section
/-! SUPPORT. What the shared steps leave alone, and how a bus step moves inside its transaction. -/

namespace Sys2Proof.Machine

open Sys2Proof

/-! ## The device's memory stays canonical -/

theorem Env.beginTxn_canonical (e : Env) (h : e.device.canonical = true) : e.beginTxn.device.canonical = true := by
  unfold Env.beginTxn
  split
  · exact h
  · next d hd => simp_all [Device.canonical, RefDevice.beginTxn]

theorem Env.selAssert_canonical (e : Env) (h : e.device.canonical = true) : e.selAssert.device.canonical = true := by
  unfold Env.selAssert
  split
  · exact h
  · next d hd => simp_all [Device.canonical, RefDevice.selAssert]

theorem Env.xfer_canonical (e : Env) (b : Byte) (h : e.device.canonical = true) :
    (e.xfer b).2.device.canonical = true := by
  simp only [Env.xfer, Env.answer]
  split
  · simp_all [Device.canonical]
  · simp_all [Device.canonical]
  · next d hd => simp_all [Device.canonical, RefDevice.xfer_wf]

/-! ## The bus step -/

/-- A bus step that does not end the transaction changes none of the registers but those of the bus and the one the bytes are
captured in. -/
structure SameButBus (c : Capture) (s t : State) : Prop where
  latches : SameLatches s t
  rbPhase : t.rbPhase = s.rbPhase
  lpState : t.lpState = s.lpState
  point   : t.point = s.point
  rbuf    : t.rbuf = s.rbuf
  busy    : t.busy = s.busy
  cfg     : t.cfg = s.cfg
  mask    : t.mask = s.mask
  new     : t.new = s.new
  t0      : t.t0 = s.t0
  cur     : c ≠ .cur → t.cur = s.cur
  last    : c ≠ .last → t.last = s.last
  rxdata  : c ≠ .rxdata → t.rxdata = s.rxdata
  offBus  : SameOffBus s t

/-- A bus step is inside the transaction, or it is the release. -/
theorem busStep_frame {wire : Byte} {tx : List Byte} {c : Capture} {released : State → State} {s t : State}
    (h : busStep wire tx c released s = .next t) :
    SameButBus c s t ∨
    (s.txnStep = .rel ∧ t = released { s with busOwned := false, txnStep := .none, trace := s.trace ++ [.endTxn] }) := by
  rcases busStep_cases h with ⟨-, -, rfl⟩ | ⟨-, -, rfl⟩ | ⟨-, rfl⟩ | ⟨-, -, rfl⟩ | ⟨-, -, rfl⟩ | ⟨-, b, -, rfl⟩ |
    ⟨-, rfl⟩ | ⟨h1, h2⟩
  case inr.inr.inr.inr.inr.inr.inr => exact .inr ⟨h1, h2⟩
  case inr.inr.inr.inr.inr.inl => left; cases c <;> constructor <;> simp [State.capture, SameLatches, SameOffBus]
  all_goals left; constructor <;> simp [SameLatches, SameOffBus]

/-- Inside a transaction a bus step keeps the agreement of the bus registers with `TXN_STEP`, the place in the payload and the
count of captured bytes; at its end the bus is free. -/
theorem busStep_keeps {wire : Byte} {tx : List Byte} {c : Capture} {released : State → State} {s t : State}
    (h : busStep wire tx c released s = .next t) (hin : InTxn tx.length s) (hb : BusAgrees s)
    (hx : s.busOwned = true → s.env.otherOwns = false) (hlen : tx.length ≤ 65535) :
    (InTxn tx.length t ∧ BusAgrees t ∧ (t.busOwned = true → t.env.otherOwns = false) ∧
      (s.env.device.canonical = true → t.env.device.canonical = true) ∧
      (c = .rxdata → s.rxdata.length = capturedCount tx.length s → t.rxdata.length = capturedCount tx.length t)) ∨
    (s.txnStep = .rel ∧ s.busOwned = true ∧ s.sel = .inactive ∧
      t = released { s with busOwned := false, txnStep := .none, trace := s.trace ++ [.endTxn] }) := by
  obtain ⟨hp, hn, hi⟩ := hin
  rcases busStep_cases h with ⟨-, -, rfl⟩ | ⟨h1, h2, rfl⟩ | ⟨h1, rfl⟩ | ⟨h1, h2, rfl⟩ | ⟨h1, h2, rfl⟩ | ⟨h1, b, -, rfl⟩ |
    ⟨h1, rfl⟩ | ⟨h1, h2⟩
  · exact .inl ⟨⟨hp, hn, hi⟩, hb, hx, id, fun _ h => h⟩
  · refine .inl ⟨⟨hp, by simp, by simp⟩, ?_, by simp [h2], Env.beginTxn_canonical _, by simp [capturedCount, h1]⟩
    simp_all [BusAgrees]
  · refine .inl ⟨⟨hp, by simp, by simp⟩, ?_, by simpa using hx, Env.selAssert_canonical _, by simp [capturedCount, h1]⟩
    simp_all [BusAgrees]
  · refine .inl ⟨⟨hp, by simp, by simp⟩, ?_, by simpa using hx, Env.xfer_canonical _ _, by simp [capturedCount, h1, h2]⟩
    simp_all [BusAgrees]
  · refine .inl ⟨⟨hp, by simp, by simpa using List.length_pos_iff.mpr h2⟩, ?_, by simpa using hx,
      Env.xfer_canonical _ _, by simp [capturedCount, h1]⟩
    simp_all [BusAgrees]
  · have hi' := hi h1
    have hadd : s.idx.toNat + 1 < tx.length → (s.idx + 1).toNat = s.idx.toNat + 1 := by
      intro hl
      simp [BitVec.toNat_add]
      omega
    refine .inl ⟨⟨by cases c <;> exact hp, by simp; split <;> simp, ?_⟩, ?_, ?_, ?_, ?_⟩
    · intro ht
      by_cases hl : s.idx.toNat + 1 < tx.length
      · have hs := hadd hl
        cases c <;> simp [hl] at ht ⊢ <;> simp at hs <;> omega
      · cases c <;> simp [hl] at ht
    · simp only [BusAgrees, h1] at hb
      by_cases hl : s.idx.toNat + 1 < tx.length <;> cases c <;> simp [BusAgrees, hl, hb, State.capture]
    · cases c <;> simpa [State.capture] using hx
    · cases c <;> exact Env.xfer_canonical _ _
    · rintro rfl hcap
      simp [capturedCount, h1] at hcap
      by_cases hl : s.idx.toNat + 1 < tx.length
      · have hs := hadd hl
        simp only [capturedCount, hl, State.capture, if_true, List.length_append, hcap, List.length_singleton, hs]
      · simp [capturedCount, hl, State.capture, hcap]
        omega
  · refine .inl ⟨⟨hp, by simp, by simp⟩, ?_, by simpa using hx, id, by simp [capturedCount, h1]⟩
    simp_all [BusAgrees]
  · right
    refine ⟨h1, ?_, ?_, h2⟩ <;> simp_all [BusAgrees]

/-! ## The serial steps -/

/-- `Avail` reaches the channel's queue and script and the clock alone. -/
theorem Env.avail_frame (e : Env) :
    e.avail.2.offers = e.offers ∧ e.avail.2.resetLine = e.resetLine ∧ e.avail.2.otherOwns = e.otherOwns ∧
      e.avail.2.device = e.device ∧ e.avail.2.draws = e.draws ∧ e.avail.2.turns = e.turns ∧
      e.avail.2.channel.out = e.channel.out := by
  simp [Env.avail, Channel.receive]

/-- A step of a line command changes none of the registers of the other engine, no latch, and nothing off the serial channel. -/
structure SameButLine (s t : State) : Prop where
  latches : SameLatches s t
  cur     : t.cur = s.cur
  mask    : t.mask = s.mask
  new     : t.new = s.new
  last    : t.last = s.last
  rxdata  : t.rxdata = s.rxdata
  cfg     : t.cfg = s.cfg
  offLine : SameOffLine s t
  bus     : SameBusState s t
  rbPhase : t.rbPhase = s.rbPhase ∨ (t.rbPhase = .idle ∧ t.busy = false)

theorem SameButLine.receive {s u : State} (b : Byte) (h : SameButLine s u) : SameButLine s (u.receive b) := by
  rcases u.receive_cases b with ⟨-, e⟩ | ⟨-, e⟩ | ⟨-, e⟩ <;> rw [e] <;> exact { h with }

theorem SameButLine.toSend {s u : State} (payload term : List Byte) (h : SameButLine s u) :
    SameButLine s (u.toSend payload term) := by
  rcases u.toSend_cases payload term with ⟨-, e⟩ | ⟨-, -, e⟩ | ⟨-, -, e⟩ <;> rw [e] <;> exact { h with }

/-- The frame of a step of an exchange. -/
theorem exchangeStep_frame {payload : List Byte} {s t : State} (h : exchangeStep payload s = .next t) :
    SameButLine s t := by
  have ha := Env.avail_frame s.env
  rcases exchangeStep_cases h with ⟨-, -, rfl⟩ | ⟨-, -, h3⟩ | ⟨-, -, h3⟩ | ⟨-, b, rest, -, rfl⟩ | ⟨-, b, rest, -, rfl⟩ |
    ⟨-, -, rfl⟩ | ⟨-, -, h3⟩ | ⟨-, -, h3⟩ | ⟨-, -, h3⟩ | ⟨-, b, -, rfl⟩ | ⟨-, -, rfl⟩ | ⟨-, -, rfl⟩
  · constructor <;> simp [SameLatches, SameOffLine, SameBusState]
  · rcases flushAvailStep_cases h3 with ⟨-, rfl⟩ | ⟨-, rfl⟩
    · apply SameButLine.toSend
      constructor <;> simp_all [SameLatches, SameOffLine, SameBusState]
    · constructor <;> simp_all [SameLatches, SameOffLine, SameBusState]
  · obtain ⟨b, rest, -, rfl⟩ := flushReadStep_cases h3
    constructor <;> simp [SameLatches, SameOffLine, SameBusState]
  · apply SameButLine.toSend
    constructor <;> simp [SameLatches, SameOffLine, SameBusState, State.sendByte, Env.wrByte]
  · apply SameButLine.toSend
    constructor <;> simp [SameLatches, SameOffLine, SameBusState, State.sendByte, Env.wrByte]
  · constructor <;> simp [SameLatches, SameOffLine, SameBusState]
  · rcases awaitWindowStep_cases h3 with ⟨-, rfl⟩ | ⟨-, rfl⟩ <;>
      constructor <;> simp [SameLatches, SameOffLine, SameBusState]
  · rcases awaitPollStep_cases h3 with ⟨-, rfl⟩ | ⟨-, rfl⟩ <;>
      constructor <;> simp_all [SameLatches, SameOffLine, SameBusState]
  · obtain ⟨b, rest, -, ⟨-, rfl⟩ | ⟨-, rfl⟩⟩ := awaitReadStep_cases h3
    · constructor <;> simp [SameLatches, SameOffLine, SameBusState]
    · apply SameButLine.receive
      constructor <;> simp [SameLatches, SameOffLine, SameBusState]
  · apply SameButLine.receive
    constructor <;> simp [SameLatches, SameOffLine, SameBusState]
  · constructor <;> simp [SameLatches, SameOffLine, SameBusState, State.deliver, State.finish]
  · constructor <;> simp [SameLatches, SameOffLine, SameBusState, State.raise, State.finish]

end Sys2Proof.Machine
end

