-- ==== Sys2Proof/Laws/Clock.lean ====
section
/-! SUPPORT. What a step of a command does to the clock, and which event it records with it (spec/60_exceptions.md R173,
spec/20_memory.md R66). -/

namespace Sys2Proof.Machine

open Sys2Proof

/-- An event that reads no counter and costs no time on `RefClock`. -/
def Event.leavesClock : Event → Prop
  | .xfer _ _ | .avail _ | .nowMs _ | .nowUs _ => False
  | .cmdAccept _ _ | .result _ _ _ | .beginTxn | .selAssert | .selDeassert | .endTxn | .rdByte _ | .wrByte _ | .dbgByte _
  | .dbgDiag _ => True

/-- Such an event counts as no reading of either counter. -/
theorem Event.leavesClock.no_reading {e : Event} (h : e.leavesClock) : e.isNowUs = false ∧ e.isNowMs = false := by
  cases e <;> first | exact ⟨rfl, rfl⟩ | exact h.elim

/-- The five ways a step of a command meets the clock: no event but those that leave it alone; a reading of either counter; an `Xfer`; an
`Avail`. -/
def ClockStep (s t : State) : Prop :=
  (t.env.clock = s.env.clock ∧ ∃ es, t.trace = s.trace ++ es ∧ ∀ e ∈ es, e.leavesClock) ∨
  (t.env.clock = s.env.clock.afterNowUs ∧ ∃ x, t.trace = s.trace ++ [.nowUs x]) ∨
  (t.env.clock = s.env.clock.afterNowMs ∧ ∃ x, t.trace = s.trace ++ [.nowMs x]) ∨
  (t.env.clock = s.env.clock.afterXfer ∧ ∃ tx rx, t.trace = s.trace ++ [.xfer tx rx]) ∨
  (t.env.clock = s.env.clock.afterAvail ∧ ∃ n, t.trace = s.trace ++ [.avail n])

/-- No event. -/
theorem ClockStep.quiet {s t : State} (h1 : t.env.clock = s.env.clock) (h2 : t.trace = s.trace) : ClockStep s t :=
  .inl ⟨h1, [], by simp [h2], by simp⟩

/-- One event that leaves the clock alone. -/
theorem ClockStep.event {s t : State} (e : Event) (h1 : t.env.clock = s.env.clock) (h2 : t.trace = s.trace ++ [e])
    (h3 : e.leavesClock) : ClockStep s t :=
  .inl ⟨h1, [e], h2, by simpa using h3⟩

theorem State.finish_clock (st : Status) (v : Byte) (d : List Byte) (s : State) : ClockStep s (s.finish st v d) :=
  .event _ rfl rfl trivial

/-- What a command does at a release without a port event leaves the environment and the trace. -/
theorem busStep_clock {wire : Byte} {tx : List Byte} {c : Capture} {released : State → State} {s t : State}
    (h : busStep wire tx c released s = .next t)
    (hr : ∀ u, (released u).env = u.env ∧ (released u).trace = u.trace) : ClockStep s t := by
  rcases busStep_cases h with ⟨-, -, rfl⟩ | ⟨-, -, rfl⟩ | ⟨-, rfl⟩ | ⟨-, -, rfl⟩ | ⟨-, -, rfl⟩ | ⟨-, b, -, rfl⟩ |
    ⟨-, rfl⟩ | ⟨-, rfl⟩
  · exact .quiet rfl rfl
  · exact .event _ (by simp) rfl trivial
  · exact .event _ (by simp) rfl trivial
  · exact .inr (.inr (.inr (.inl ⟨by simp, _, _, rfl⟩)))
  · exact .inr (.inr (.inr (.inl ⟨by simp, _, _, rfl⟩)))
  · exact .inr (.inr (.inr (.inl ⟨by simp, _, _, rfl⟩)))
  · exact .event _ rfl rfl trivial
  · exact .event .endTxn (by rw [(hr _).1]) (by rw [(hr _).2]) trivial

theorem State.receive_env_trace (b : Byte) (s : State) :
    (s.receive b).env = s.env ∧ (s.receive b).trace = s.trace := by
  rcases s.receive_cases b with ⟨-, e⟩ | ⟨-, e⟩ | ⟨-, e⟩ <;> simp [e]

theorem State.toSend_env_trace (payload term : List Byte) (s : State) :
    (s.toSend payload term).env = s.env ∧ (s.toSend payload term).trace = s.trace := by
  rcases s.toSend_cases payload term with ⟨-, e⟩ | ⟨-, -, e⟩ | ⟨-, -, e⟩ <;> simp [e]

theorem flushAvailStep_clock {drained : State → State} {s t : State} (h : flushAvailStep drained s = .next t)
    (hd : ∀ u, (drained u).env = u.env ∧ (drained u).trace = u.trace) : ClockStep s t := by
  rcases flushAvailStep_cases h with ⟨-, rfl⟩ | ⟨-, rfl⟩
  · exact .inr (.inr (.inr (.inr ⟨by rw [(hd _).1]; rfl, _, (hd _).2⟩)))
  · exact .inr (.inr (.inr (.inr ⟨rfl, _, rfl⟩)))

theorem flushReadStep_clock {s t : State} (h : flushReadStep s = .next t) : ClockStep s t := by
  obtain ⟨b, rest, -, rfl⟩ := flushReadStep_cases h
  exact .event _ rfl rfl trivial

theorem exchangeStep_clock {payload : List Byte} {s t : State} (h : exchangeStep payload s = .next t) :
    ClockStep s t := by
  rcases exchangeStep_cases h with ⟨-, -, rfl⟩ | ⟨-, -, h3⟩ | ⟨-, -, h3⟩ | ⟨-, b, rest, -, rfl⟩ | ⟨-, b, rest, -, rfl⟩ |
    ⟨-, -, rfl⟩ | ⟨-, -, h3⟩ | ⟨-, -, h3⟩ | ⟨-, -, h3⟩ | ⟨-, b, -, rfl⟩ | ⟨-, -, rfl⟩ | ⟨-, -, rfl⟩
  · exact .quiet rfl rfl
  · exact flushAvailStep_clock h3 (State.toSend_env_trace _ _)
  · exact flushReadStep_clock h3
  · exact .event _ (by rw [(State.toSend_env_trace _ _ _).1]; rfl) (State.toSend_env_trace _ _ _).2 trivial
  · exact .event _ (by rw [(State.toSend_env_trace _ _ _).1]; rfl) (State.toSend_env_trace _ _ _).2 trivial
  · exact .inr (.inr (.inl ⟨rfl, _, rfl⟩))
  · rcases awaitWindowStep_cases h3 with ⟨-, rfl⟩ | ⟨-, rfl⟩ <;> exact .inr (.inr (.inl ⟨rfl, _, rfl⟩))
  · rcases awaitPollStep_cases h3 with ⟨-, rfl⟩ | ⟨-, rfl⟩ <;> exact .inr (.inr (.inr (.inr ⟨rfl, _, rfl⟩)))
  · obtain ⟨b, rest, -, ⟨-, rfl⟩ | ⟨-, rfl⟩⟩ := awaitReadStep_cases h3
    · exact .event _ rfl rfl trivial
    · exact .event (.rdByte b) (by rw [(State.receive_env_trace _ _).1]) (by rw [(State.receive_env_trace _ _).2]) trivial
  · exact .event _ (by rw [(State.receive_env_trace _ _).1]; rfl) (State.receive_env_trace _ _).2 trivial
  · exact State.finish_clock ..
  · exact State.finish_clock ..

theorem fieldStart_clock (msb lsb : Byte) (s : State) : ClockStep s (fieldStart msb lsb s) := by
  rcases fieldStart_cases msb lsb s with ⟨-, e⟩ | ⟨-, e⟩ <;> rw [e] <;> exact .quiet rfl rfl

theorem setbfWindow_clock (win : Half) (s : State) : ClockStep s (setbfWindow win s) := by
  rcases setbfWindow_cases win s with ⟨-, -, e⟩ | ⟨-, -, e⟩ | ⟨-, e⟩ <;> rw [e] <;> exact .inr (.inl ⟨rfl, _, rfl⟩)

/-- Every step of every command meets the clock in one of the five ways. -/
theorem exec_clock {i : Instr} {s t : State} (h : exec i s = .next t) : ClockStep s t := by
  cases i with
  | rdreg addr =>
    rcases execRdreg_cases h with ⟨-, -, rfl⟩ | ⟨-, -, h⟩ | ⟨-, -, b, rest, -, rfl⟩
    · exact .quiet rfl rfl
    · exact busStep_clock h fun _ => ⟨rfl, rfl⟩
    · exact State.finish_clock ..
  | wrreg addr byte =>
    rcases execWrreg_cases h with ⟨-, -, rfl⟩ | ⟨-, -, h⟩ | ⟨-, -, rfl⟩
    · exact .quiet rfl rfl
    · exact busStep_clock h fun _ => ⟨rfl, rfl⟩
    · exact State.finish_clock ..
  | rdburst addr count =>
    rcases execRdburst_cases h with ⟨-, -, rfl⟩ | ⟨-, -, h⟩ | ⟨-, -, rfl⟩
    · exact .quiet rfl rfl
    · exact busStep_clock h fun _ => ⟨rfl, rfl⟩
    · exact State.finish_clock ..
  | wrburst addr bytes =>
    rcases execWrburst_cases h with ⟨-, -, rfl⟩ | ⟨-, -, h⟩ | ⟨-, -, rfl⟩
    · exact .quiet rfl rfl
    · exact busStep_clock h fun _ => ⟨rfl, rfl⟩
    · exact State.finish_clock ..
  | getbf addr msb lsb =>
    rcases execGetbf_cases h with ⟨-, -, rfl⟩ | ⟨-, -, rfl⟩ | ⟨-, -, h⟩ | ⟨-, -, rfl⟩
    · exact fieldStart_clock msb lsb s
    · exact State.finish_clock ..
    · exact busStep_clock h fun _ => ⟨rfl, rfl⟩
    · exact State.finish_clock ..
  | setbf addr value msb lsb win =>
    rcases execSetbf_cases h with ⟨-, -, rfl⟩ | ⟨-, -, rfl⟩ | ⟨-, -, h⟩ | ⟨-, -, h⟩ | ⟨-, -, rfl⟩ | ⟨-, -, rfl⟩ |
      ⟨-, -, h⟩ | ⟨-, -, rfl⟩ | ⟨-, -, rfl⟩ | ⟨-, -, rfl⟩
    · exact fieldStart_clock msb lsb s
    · exact State.finish_clock ..
    · exact busStep_clock h fun _ => ⟨rfl, rfl⟩
    · exact busStep_clock h fun _ => ⟨rfl, rfl⟩
    · exact .inr (.inl ⟨rfl, _, rfl⟩)
    · exact setbfWindow_clock win s
    · exact busStep_clock h fun u => by rcases setbfCompare_cases u with ⟨-, e⟩ | ⟨-, e⟩ <;> simp [e]
    · exact .event _ rfl rfl trivial
    · exact State.finish_clock ..
    · exact State.finish_clock ..
  | flush =>
    rcases execFlush_cases h with ⟨-, -, rfl⟩ | ⟨-, -, h⟩ | ⟨-, -, h⟩ | ⟨-, -, rfl⟩
    · exact .quiet rfl rfl
    · exact flushAvailStep_clock h fun _ => ⟨rfl, rfl⟩
    · exact flushReadStep_clock h
    · exact State.finish_clock ..
  | sendcmd text => exact exchangeStep_clock h
  | senddata bytes => exact exchangeStep_clock h

end Sys2Proof.Machine
end

