-- ==== Sys2Proof/Laws/PerInstr.lean ====
section
/-! SUPPORT. Facts about every command as syntax, one lemma a constructor. -/

namespace Sys2Proof.Laws.FixedBits

open Sys2Proof

/-- The encoded word has the fixed bits of its row of the opcode map: `w & mask = match` (spec/30_encoding.md R74). -/
def Statement (i : Instr) : Prop := encodeWord i &&& i.opcode.mask = i.opcode.matchWord

theorem rdreg (addr : Byte) : Statement (.rdreg addr) := by
  apply BitVec.eq_of_getLsbD_eq
  intro i hi
  interval_cases i <;> simp [encodeWord, packWord, Instr.opcode, Opcode.mask, Opcode.matchWord]

theorem wrreg (addr byte : Byte) : Statement (.wrreg addr byte) := by
  apply BitVec.eq_of_getLsbD_eq
  intro i hi
  interval_cases i <;> simp [encodeWord, packWord, Instr.opcode, Opcode.mask, Opcode.matchWord]

theorem rdburst (addr : Byte) (count : Half) : Statement (.rdburst addr count) := by
  apply BitVec.eq_of_getLsbD_eq
  intro i hi
  interval_cases i <;> simp [encodeWord, packWord, Instr.opcode, Opcode.mask, Opcode.matchWord]

theorem wrburst (addr : Byte) (bytes : List Byte) : Statement (.wrburst addr bytes) := by
  apply BitVec.eq_of_getLsbD_eq
  intro i hi
  generalize hn : BitVec.ofNat 16 bytes.length = n
  interval_cases i <;> simp [encodeWord, packWord, Instr.opcode, Opcode.mask, Opcode.matchWord, hn]

theorem getbf (addr msb lsb : Byte) : Statement (.getbf addr msb lsb) := by
  apply BitVec.eq_of_getLsbD_eq
  intro i hi
  interval_cases i <;> simp [encodeWord, packWord, Instr.opcode, Opcode.mask, Opcode.matchWord]

theorem setbf (addr value msb lsb : Byte) (win : Half) : Statement (.setbf addr value msb lsb win) := by
  apply BitVec.eq_of_getLsbD_eq
  intro i hi
  interval_cases i <;> simp [encodeWord, packWord, Instr.opcode, Opcode.mask, Opcode.matchWord]

theorem flush : Statement .flush := by
  unfold Statement
  decide

theorem sendcmd (text : List Byte) : Statement (.sendcmd text) := by
  apply BitVec.eq_of_getLsbD_eq
  intro i hi
  generalize hn : BitVec.ofNat 16 text.length = n
  interval_cases i <;> simp [encodeWord, packWord, Instr.opcode, Opcode.mask, Opcode.matchWord, hn]

theorem senddata (bytes : List Byte) : Statement (.senddata bytes) := by
  apply BitVec.eq_of_getLsbD_eq
  intro i hi
  generalize hn : BitVec.ofNat 16 bytes.length = n
  interval_cases i <;> simp [encodeWord, packWord, Instr.opcode, Opcode.mask, Opcode.matchWord, hn]

end Sys2Proof.Laws.FixedBits
end

