-- ==== Sys2Proof/Laws/Transaction.lean ====
section
/-! SUPPORT. A whole bus transaction, run step by step: what `Txn` leaves, for any command whose step is the bus step. -/

namespace Sys2Proof.Machine

open Sys2Proof

/-- The state once all bytes of a transaction have gone where the command keeps them. -/
def State.captureAll (c : Capture) (rx : List Byte) (s : State) : State :=
  match c with
  | .discard => s
  | .rxdata => { s with rxdata := s.rxdata ++ rx }
  | .cur => { s with cur := rx.getLastD s.cur }
  | .last => { s with last := rx.getLastD s.last }

theorem State.captureAll_nil (c : Capture) (s : State) : s.captureAll c [] = s := by cases c <;> simp [State.captureAll]

theorem State.captureAll_cons (c : Capture) (b : Byte) (rx : List Byte) (s : State) :
    s.captureAll c (b :: rx) = (s.capture c b).captureAll c rx := by
  cases c <;> simp only [State.captureAll, State.capture, List.getLastD_cons, List.append_assoc, List.singleton_append]

/-- As many bytes are received as are sent. -/
@[simp] theorem Env.transfers_length (tx : List Byte) (e : Env) : (Env.transfers tx e).1.length = tx.length := by
  induction tx generalizing e with
  | nil => rfl
  | cons b tx ih => simp [Env.transfers, ih]

@[simp] theorem Env.transaction_rx_length (wire : Byte) (tx : List Byte) (e : Env) :
    (e.transaction wire tx).rx.length = tx.length := by
  simp [Env.transaction]

/-- A transaction of one payload position receives one byte. -/
theorem Env.transaction_one (wire b : Byte) (e : Env) :
    (e.transaction wire [b]).rx = [(e.transaction wire [b]).byte] := by
  simp [Env.transaction, Env.transfers, TxnRun.byte]

/-- The byte bus leaves the rest of the environment alone. -/
theorem Env.transfers_frame (tx : List Byte) (e : Env) :
    (Env.transfers tx e).2.offers = e.offers ∧ (Env.transfers tx e).2.resetLine = e.resetLine ∧
    (Env.transfers tx e).2.otherOwns = e.otherOwns ∧ (Env.transfers tx e).2.channel = e.channel ∧
    (Env.transfers tx e).2.turns = e.turns := by
  induction tx generalizing e with
  | nil => simp [Env.transfers]
  | cons b tx ih => simpa [Env.transfers] using ih (e.xfer b).2

theorem Env.transaction_frame (wire : Byte) (tx : List Byte) (e : Env) :
    (e.transaction wire tx).env.offers = e.offers ∧ (e.transaction wire tx).env.resetLine = e.resetLine ∧
    (e.transaction wire tx).env.otherOwns = e.otherOwns ∧ (e.transaction wire tx).env.channel = e.channel ∧
    (e.transaction wire tx).env.turns = e.turns := by
  have h := Env.transfers_frame tx (e.beginTxn.selAssert.xfer wire).2
  simpa [Env.transaction] using h

/-- The command `i` is in a transaction: its step is the bus step wherever the point, the phase, the handle and `NEW` are
these. -/
def StepsTxn (i : Instr) (phase : RbPhase) (cfg : DeviceHandle) (new wire : Byte) (tx : List Byte) (capture : Capture)
    (released : State → State) : Prop :=
  ∀ u : State, u.point = .txn → u.rbPhase = phase → u.cfg = cfg → u.new = new →
    exec i u = busStep wire tx capture released u

/-- One step of the transaction, and the rest. -/
theorem StepsTxn.run {i : Instr} {phase : RbPhase} {cfg : DeviceHandle} {new wire : Byte} {tx : List Byte} {c : Capture}
    {released : State → State} (hx : StepsTxn i phase cfg new wire tx c released) {u t : State} {k : Nat}
    (hp : u.point = .txn) (hph : u.rbPhase = phase) (hcfg : u.cfg = cfg) (hnew : u.new = new)
    (hb : busStep wire tx c released u = .next t) : execFor i (k + 1) u = execFor i k t :=
  execFor_succ k (by rw [hx u hp hph hcfg hnew, hb])

/-- The payload positions from `IDX` on. -/
theorem execFor_data {i : Instr} {phase : RbPhase} {cfg : DeviceHandle} {new wire : Byte} {tx : List Byte}
    {c : Capture} {released : State → State} (hx : StepsTxn i phase cfg new wire tx c released) (htx : tx.length ≤ 65536)
    (rest : List Byte) (b : Byte) (s : State) (hp : s.point = .txn) (hph : s.rbPhase = phase) (hcfg : s.cfg = cfg)
    (hnew : s.new = new) (ht : s.txnStep = .data) (hd : tx.drop s.idx.toNat = b :: rest) :
    execFor i (rest.length + 1) s = .next { s.captureAll c (Env.transfers (b :: rest) s.env).1 with
      idx := BitVec.ofNat 16 (tx.length - 1)
      txnStep := .desel
      env := (Env.transfers (b :: rest) s.env).2
      trace := s.trace ++ List.zipWith Event.xfer (b :: rest) (Env.transfers (b :: rest) s.env).1 } := by
  have hget : tx[s.idx.toNat]? = some b := by
    have h0 : (tx.drop s.idx.toNat)[0]? = some b := by rw [hd]; rfl
    simpa using h0
  induction rest generalizing b s with
  | nil =>
    have hlen : tx.length = s.idx.toNat + 1 := by
      have := congrArg List.length hd
      simp at this; omega
    have hidx : BitVec.ofNat 16 (tx.length - 1) = s.idx := by
      rw [hlen]; simp
    rw [List.length_nil, Nat.zero_add, execFor, hx s hp hph hcfg hnew, hidx]
    simp only [busStep, ht, hget, hlen, Nat.lt_irrefl, if_false]
    cases c <;> simp [State.capture, State.captureAll, Env.transfers, State.emit]
  | cons b2 rest ih =>
    have hlen : tx.length = s.idx.toNat + (rest.length + 2) := by
      have := congrArg List.length hd
      simp at this; omega
    have hidx : (s.idx + 1).toNat = s.idx.toNat + 1 := by
      simp [BitVec.toNat_add]; omega
    have hd2 : tx.drop (s.idx + 1).toNat = b2 :: rest := by
      rw [hidx, ← List.drop_drop, hd]; rfl
    have hget2 : tx[(s.idx + 1).toNat]? = some b2 := by
      have h0 : (tx.drop (s.idx + 1).toNat)[0]? = some b2 := by rw [hd2]; rfl
      simpa using h0
    have hlt : s.idx.toNat + 1 < tx.length := by omega
    rw [List.length_cons, execFor, hx s hp hph hcfg hnew]
    simp only [busStep, ht, hget, hlt, if_true]
    rw [ih b2 _ _ _ _ _ _ hd2 hget2]
    · cases c <;> simp [State.capture, State.captureAll_cons, Env.transfers, State.emit] <;>
        simp [State.captureAll]
    all_goals cases c <;> simp [State.capture, hp, hph, hcfg, hnew]

/-- One whole transaction, from `T_ACQ` with the bus free to the release. -/
theorem execFor_txn {i : Instr} {phase : RbPhase} {cfg : DeviceHandle} {new wire : Byte} {tx : List Byte} {c : Capture}
    {released : State → State} (hx : StepsTxn i phase cfg new wire tx c released) (htx : tx.length ≤ 65536) (s : State)
    (hp : s.point = .txn) (hph : s.rbPhase = phase) (hcfg : s.cfg = cfg) (hnew : s.new = new) (ht : s.txnStep = .acq)
    (hfree : s.env.otherOwns = false) :
    execFor i (tx.length + 5) s = .next (released { s.captureAll c (s.env.transaction wire tx).rx with
      idx := idxAfter tx.length s
      txnStep := .none
      busOwned := false
      sel := .inactive
      env := (s.env.transaction wire tx).env
      trace := s.trace ++ (s.env.transaction wire tx).events wire tx }) := by
  have h1 : execFor i 3 s = .next
      { s with
        busOwned := true
        sel := .active
        env := (s.env.beginTxn.selAssert.xfer wire).2
        trace := s.trace ++ [.beginTxn, .selAssert, .xfer wire (s.env.beginTxn.selAssert.xfer wire).1]
        txnStep := if tx = [] then .desel else .data
        idx := if tx = [] then s.idx else 0 } := by
    have e1 : exec i s = .next { s with
        busOwned := true, txnStep := .sel, env := s.env.beginTxn, trace := s.trace ++ [.beginTxn] } := by
      rw [hx s hp hph hcfg hnew]
      simp [busStep, ht, Env.busFree, hfree, State.emit]
    rw [execFor_succ 2 e1]
    refine (hx.run ?_ ?_ ?_ ?_ rfl).trans ((hx.run ?_ ?_ ?_ ?_ rfl).trans ?_)
    any_goals assumption
    rw [execFor_zero]
    by_cases htx : tx = [] <;> simp [htx, State.emit]
  have h3 : ∀ u : State, u.point = .txn → u.rbPhase = phase → u.cfg = cfg → u.new = new → u.txnStep = .desel →
      execFor i 2 u = .next (released { u with
        txnStep := .none
        busOwned := false
        sel := .inactive
        trace := u.trace ++ [.selDeassert, .endTxn] }) := by
    intro u h1 h2 h3 h4 h5
    have e1 : exec i u = .next { u with txnStep := .rel, sel := .inactive, trace := u.trace ++ [.selDeassert] } := by
      rw [hx u h1 h2 h3 h4]
      simp [busStep, h5, State.emit]
    rw [execFor_succ 1 e1]
    refine (hx.run ?_ ?_ ?_ ?_ rfl).trans ?_
    any_goals assumption
    rw [execFor_zero]
    simp [State.emit]
  cases tx with
  | nil =>
    rw [List.length_nil, show 0 + 5 = 3 + 2 from rfl, execFor_add _ _ h1, h3]
    · simp [State.captureAll_nil, Env.transaction, TxnRun.events, idxAfter, Env.transfers]
    all_goals simp [hp, hph, hcfg, hnew]
  | cons b tx =>
    have h2 := execFor_data hx htx tx b { s with
        busOwned := true
        sel := .active
        env := (s.env.beginTxn.selAssert.xfer wire).2
        trace := s.trace ++ [.beginTxn, .selAssert, .xfer wire (s.env.beginTxn.selAssert.xfer wire).1]
        txnStep := if (b :: tx) = [] then .desel else .data
        idx := if (b :: tx) = [] then s.idx else 0 } hp hph hcfg hnew rfl rfl
    rw [List.length_cons, show tx.length + 1 + 5 = 3 + (tx.length + 1 + 2) from by omega, execFor_add _ _ h1,
      execFor_add _ _ h2, h3]
    · cases c <;> simp [State.captureAll, Env.transaction, TxnRun.events, idxAfter]
    all_goals cases c <;> simp [State.captureAll, hp, hph, hcfg, hnew]

/-! The bus steps of the plain commands and of the three transactions of the bit-field commands, each with its address byte and
its payload positions. -/

theorem rdreg_stepsTxn (addr : Byte) (cfg : DeviceHandle) (new : Byte) :
    StepsTxn (.rdreg addr) .plain cfg new (addr ||| cfg.cmdRead) [cfg.filler] .rxdata (State.owe .ok) := by
  rintro u h1 h2 rfl -
  simp [exec, execRdreg, h1, h2, readStep, wireRead, fillers]

theorem wrreg_stepsTxn (addr byte : Byte) (cfg : DeviceHandle) (new : Byte) :
    StepsTxn (.wrreg addr byte) .plain cfg new (addr ||| cfg.cmdWrite) [byte] .discard (State.owe .ok) := by
  rintro u h1 h2 rfl -
  simp [exec, execWrreg, h1, h2, writeStep, wireWrite]

theorem rdburst_stepsTxn (addr : Byte) (count : Half) (cfg : DeviceHandle) (new : Byte) :
    StepsTxn (.rdburst addr count) .plain cfg new (addr ||| cfg.cmdRead) (List.replicate count.toNat cfg.filler) .rxdata
      (State.owe .ok) := by
  rintro u h1 h2 rfl -
  simp [exec, execRdburst, h1, h2, readStep, wireRead, fillers]

theorem wrburst_stepsTxn (addr : Byte) (bytes : List Byte) (cfg : DeviceHandle) (new : Byte) :
    StepsTxn (.wrburst addr bytes) .plain cfg new (addr ||| cfg.cmdWrite) bytes .discard (State.owe .ok) := by
  rintro u h1 h2 rfl -
  simp [exec, execWrburst, h1, h2, writeStep, wireWrite]

theorem getbf_stepsTxn (addr msb lsb : Byte) (cfg : DeviceHandle) (new : Byte) :
    StepsTxn (.getbf addr msb lsb) .bfRead cfg new (addr ||| cfg.cmdRead) [cfg.filler] .cur
      (fun u => State.owe .ok { u with mask := fieldMask msb lsb }) := by
  rintro u h1 h2 rfl -
  simp [exec, execGetbf, h1, h2, readStep, wireRead, fillers]

theorem setbf_read_stepsTxn (addr value msb lsb : Byte) (win : Half) (cfg : DeviceHandle) (new : Byte) :
    StepsTxn (.setbf addr value msb lsb win) .bfRead cfg new (addr ||| cfg.cmdRead) [cfg.filler] .cur
      (setbfMerge value msb lsb) := by
  rintro u h1 h2 rfl -
  simp [exec, execSetbf, h1, h2, readStep, wireRead, fillers]

theorem setbf_write_stepsTxn (addr value msb lsb : Byte) (win : Half) (cfg : DeviceHandle) (new : Byte) :
    StepsTxn (.setbf addr value msb lsb win) .bfWrite cfg new (addr ||| cfg.cmdWrite) [new] .discard
      (fun u => { u with point := .sample }) := by
  rintro u h1 h2 rfl rfl
  simp [exec, execSetbf, h1, h2, writeStep, wireWrite]

theorem setbf_poll_stepsTxn (addr value msb lsb : Byte) (win : Half) (cfg : DeviceHandle) (new : Byte) :
    StepsTxn (.setbf addr value msb lsb win) .bfPoll cfg new (addr ||| cfg.cmdRead) [cfg.filler] .last setbfCompare := by
  rintro u h1 h2 rfl -
  simp [exec, execSetbf, h1, h2, readStep, wireRead, fillers]

end Sys2Proof.Machine
end

