-- ==== Sys2Proof/Laws/Runs.lean ====
section
/-! SUPPORT. Runs of `SETBF` up to its poll and through its poll reads, the clock over a transaction, and a transaction with the
ideal `RefDevice`. -/

namespace Sys2Proof.Machine

open Sys2Proof

/-! ## `SETBF` -/

/-- `SETBF` from its head to the first window test: the read, the write and the sample of `T0`. -/
theorem execFor_setbf_prefix (addr value msb lsb : Byte) (win : Half) (s : State) (r : SetbfRun)
    (hv : validRange msb lsb = true) (h : AtStart s) (ho : s.env.otherOwns = false)
    (hr : r = setbfRun addr value msb lsb s) :
    execFor (.setbf addr value msb lsb win) 14 s = .next { s with
      rbPhase := .bfPoll, txnStep := .none, point := .window, busOwned := false, sel := .inactive
      cur := r.read.byte, mask := fieldMask msb lsb, new := r.new, last := 0x00
      t0 := r.t0, idx := 0
      env := r.env
      trace := s.trace ++ r.events s.cfg addr } := by
  obtain ⟨h1, -, h3⟩ := h
  subst hr
  have e1 : exec (.setbf addr value msb lsb win) s =
      .next { s with rbPhase := .bfRead, txnStep := .acq, point := .txn } := by
    simp [exec, execSetbf, h1, h3, fieldStart, hv, State.openTxn]
  have e2 := execFor_txn (setbf_read_stepsTxn addr value msb lsb win s.cfg s.new) (by simp)
    { s with rbPhase := .bfRead, txnStep := .acq, point := .txn } rfl rfl rfl rfl rfl ho
  have e3 := execFor_txn (setbf_write_stepsTxn addr value msb lsb win s.cfg (setbfRun addr value msb lsb s).new) (by simp)
    { s with
      rbPhase := .bfWrite, txnStep := .acq, point := .txn, busOwned := false, sel := .inactive
      cur := (setbfRun addr value msb lsb s).read.byte, mask := fieldMask msb lsb
      new := (setbfRun addr value msb lsb s).new
      idx := 0
      env := (setbfRun addr value msb lsb s).read.env
      trace := s.trace ++ (setbfRun addr value msb lsb s).read.events (addr ||| s.cfg.cmdRead) [s.cfg.filler] }
    rfl rfl rfl rfl rfl (by simpa [setbfRun, Env.transaction_frame] using ho)
  refine (execFor_succ (1 + 5 + (6 + 1)) e1).trans ((execFor_add _ (6 + 1) e2).trans ?_)
  simp only [State.captureAll, List.length_singleton] at e3
  simp only [setbfMerge, State.openTxn, State.captureAll, Env.transaction_one, List.getLastD, List.length_singleton,
    idxAfter, one_ne_zero, if_false]
  refine (execFor_add 6 1 (Eq.trans ?_ e3)).trans ?_
  · rfl
  · simp [execFor, exec, execSetbf, setbfSample, State.sampleUs, State.emit, idxAfter, setbfRun, SetbfRun.events,
      SetbfRun.t0, SetbfRun.env]

/-- The polls leave the other users of the bus alone. -/
@[simp] theorem pollEnv_otherOwns (cfg : DeviceHandle) (addr : Byte) (e : Env) (k : Nat) :
    (pollEnv cfg addr e k).otherOwns = e.otherOwns := by
  induction k with
  | zero => rfl
  | succ k ih => simp [pollEnv, Env.transaction_frame, ih]

/-- One window test that has not elapsed, the poll read and the comparison. -/
theorem execFor_setbf_poll (addr value msb lsb : Byte) (win : Half) (s : State) (r : TxnRun) (h1 : s.rbPhase = .bfPoll)
    (h2 : s.point = .window) (ho : s.env.otherOwns = false)
    (hw : windowElapsed s.env.clock.nowUs s.t0 (win.setWidth 32) = false)
    (hr : r = s.env.nowUs.2.transaction (addr ||| s.cfg.cmdRead) [s.cfg.filler]) :
    execFor (.setbf addr value msb lsb win) 7 s = .next { s with
      txnStep := .none, busOwned := false, sel := .inactive
      point := if r.byte = s.new then .owe .ok else .window
      last := r.byte
      idx := 0
      env := r.env
      trace := s.trace ++ [.nowUs s.env.clock.nowUs] ++ r.events (addr ||| s.cfg.cmdRead) [s.cfg.filler] } := by
  subst hr
  have e1 : exec (.setbf addr value msb lsb win) s =
      .next { s with
        env := s.env.nowUs.2, txnStep := .acq, point := .txn, trace := s.trace ++ [.nowUs s.env.clock.nowUs] } := by
    simp [exec, execSetbf, h1, h2, setbfWindow, hw, State.openTxn, State.emit]
  have e2 := execFor_txn (setbf_poll_stepsTxn addr value msb lsb win s.cfg s.new) (by simp)
    { s with
        env := s.env.nowUs.2, txnStep := .acq, point := .txn, trace := s.trace ++ [.nowUs s.env.clock.nowUs] }
    rfl h1 rfl rfl rfl ho
  rw [execFor_succ _ e1]
  refine e2.trans ?_
  simp only [State.captureAll, Env.transaction_one, setbfCompare, State.owe, List.getLastD]
  split <;> rename_i hl <;> simp_all [idxAfter]

/-- `n` polls that do not match. -/
theorem execFor_setbf_polls (addr value msb lsb : Byte) (win : Half) (s : State) (e : Env) (n : Nat)
    (h1 : s.rbPhase = .bfPoll) (h2 : s.point = .window) (ho : s.env.otherOwns = false) (he : s.env = e)
    (hz : s.idx = 0) (ht : s.txnStep = .none) (hb : s.busOwned = false) (hs : s.sel = .inactive)
    (hl : s.last = 0)
    (hw : ∀ k < n, pollElapsed s.cfg addr win s.t0 e k = false) (hne : ∀ k < n, (pollRun s.cfg addr e k).byte ≠ s.new) :
    execFor (.setbf addr value msb lsb win) (7 * n) s = .next { s with
      last := if n = 0 then 0x00 else (pollRun s.cfg addr e (n - 1)).byte
      env := pollEnv s.cfg addr e n
      trace := s.trace ++ (List.range n).flatMap (pollEvents s.cfg addr e) } := by
  induction n with
  | zero =>
    subst he
    simp [pollEnv, ← hl]
  | succ n ih =>
    have hprev := ih (fun k hk => hw k (by omega)) (fun k hk => hne k (by omega))
    rw [show 7 * (n + 1) = 7 * n + 7 from by ring, execFor_add _ _ hprev]
    refine (execFor_setbf_poll addr value msb lsb win _ _ ?_ ?_ ?_ ?_ rfl).trans ?_
    · exact h1
    · exact h2
    · simp [← he, ho]
    · simpa [pollElapsed] using hw n (by omega)
    · have hn := hne n (by omega)
      simp only [pollRun] at hn
      simp [hn, List.range_succ, pollEvents, pollRun, pollEnv, h2, hz, ht, hb, hs]

/-! ## The clock over a transaction -/

theorem Env.transfers_clock (tx : List Byte) (e : Env) (tau x p : Nat) (h : e.clock = .ref tau x p) :
    (Env.transfers tx e).2.clock = .ref (tau + tx.length * x) x p := by
  induction tx generalizing e tau with
  | nil => simp [Env.transfers, h]
  | cons b tx ih =>
    rw [Env.transfers, ih (e.xfer b).2 (tau + x) (by simp [h, Clock.afterXfer])]
    simp
    ring

/-- A transaction of one payload byte costs two transfers. -/
theorem Env.transaction_one_clock (wire b : Byte) (e : Env) (tau x p : Nat) (h : e.clock = .ref tau x p) :
    (e.transaction wire [b]).env.clock = .ref (tau + 2 * x) x p := by
  simp only [Env.transaction]
  rw [Env.transfers_clock _ _ (tau + x) x p (by simp [h, Clock.afterXfer])]
  simp
  ring

theorem pollEnv_clock (cfg : DeviceHandle) (addr : Byte) (e : Env) (tau x p k : Nat) (h : e.clock = .ref tau x p) :
    (pollEnv cfg addr e k).clock = .ref (tau + 2 * x * k) x p := by
  induction k with
  | zero => simp [pollEnv, h]
  | succ k ih =>
    rw [pollEnv, Env.transaction_one_clock _ _ _ (tau + 2 * x * k) x p (by simp [ih])]
    simp
    ring

/-! ## The ideal `RefDevice` -/

/-- Bit 7 of an address and the address without it. -/
theorem addr_bits (a : Byte) (h : a.toNat < 128) :
    a.getLsbD 7 = false ∧ (a ||| 0x80).getLsbD 7 = true ∧ (a.setWidth 7).toNat = a.toNat ∧
      ((a ||| 0x80#8).setWidth 7).toNat = a.toNat := by
  revert a
  decide

/-- A read of one byte delivers the register and changes none. -/
theorem Env.read_ideal (a filler : Byte) (e : Env) (d : RefDevice) (hd : e.device = .ref d) (hi : d.variant = .ideal)
    (ha : a.toNat < 128) :
    (e.transaction a [filler]).byte = d.reg.read a.toNat ∧
      ∃ d', (e.transaction a [filler]).env.device = .ref d' ∧ d'.variant = .ideal ∧ d'.reg = d.reg := by
  have b1 : a[7] = false := (addr_bits a ha).1
  have b3 : a.toNat % 128 = a.toNat := by omega
  simp [Env.transaction, Env.transfers, TxnRun.byte, Env.xfer, Env.answer, Env.beginTxn, Env.selAssert, hd,
    RefDevice.beginTxn, RefDevice.selAssert, RefDevice.xfer, RefDevice.target, b1, RefDevice.load, hi, b3]

/-- A write of one byte stores it. -/
theorem Env.write_ideal (a b : Byte) (e : Env) (d : RefDevice) (hd : e.device = .ref d) (hi : d.variant = .ideal)
    (ha : a.toNat < 128) :
    ∃ d', (e.transaction (a ||| 0x80) [b]).env.device = .ref d' ∧ d'.variant = .ideal ∧
      d'.reg = d.reg.write a.toNat b := by
  obtain ⟨-, b2, -, b4⟩ := addr_bits a ha
  have b2' : (a ||| 128#8)[7] = true := b2
  simp only [BitVec.toNat_setWidth] at b4
  simp [Env.transaction, Env.transfers, Env.xfer, Env.answer, Env.beginTxn, Env.selAssert,
    hd, RefDevice.beginTxn, RefDevice.selAssert, RefDevice.xfer, RefDevice.target, RefDevice.store, hi, b2']
  congr 1
  omega

end Sys2Proof.Machine
end

