-- ==== Sys2Proof/Tests/Slice0.lean ====
section
/-! SUPPORT. Tests of single steps against the spec's own examples, the well-formedness checks, the decoding of written-out words,
and a state that meets the hypotheses of each obligation that has some. -/

namespace Sys2Proof.Tests

open Sys2Proof Sys2Proof.Machine

/-! ## Helpers -/

/-- The state a step answers; the reset state where it answers none. -/
def after : StepResult → State
  | .next s => s
  | .fault _ => State.reset
  | .refused _ => State.reset

/-- The step answers a next state. -/
def goes : StepResult → Bool
  | .next _ => true
  | .fault _ => false
  | .refused _ => false

/-- The command a decoder accepts. -/
def accepted (mode : Mode) (w : Word) (payload : List Byte) : Option Instr := (decode mode w payload).toOption

/-- A `RefDevice` of this variant holding these registers. -/
def device (reg : Memory) (variant : RefVariant) : RefDevice where
  reg       := reg
  a         := 0
  w         := false
  first     := false
  ntxn      := 0
  variant   := variant
  unsettled := []

/-- A BTE with `MODE = BYTE`, this device and this clock, nothing offered. -/
def onBytes (d : Device) (clock : Clock) : State :=
  { State.reset with env := { Env.quiet with device := d, clock := clock } }

/-- A BTE with `MODE = LINE`, this inbound queue and this clock, nothing offered. -/
def onLine (inbound : List Byte) (clock : Clock) : State :=
  { State.reset with
    cfg := { Config.defaultHandle with mode := .line }
    env := { Env.quiet with channel := { Env.quiet.channel with inbound := inbound }, clock := clock } }

/-- The ideal device of the spec's examples, one register set. -/
def ideal (a : Nat) (b : Byte) : State := onBytes (.ref (device (Memory.write [] a b) .ideal)) (.ref 0 10 10)

/-- The machine at a point of a bus command. -/
def at_ (s : State) (phase : RbPhase) (step : TxnStep) (point : Point) : State :=
  { s with busy := true, rbPhase := phase, txnStep := step, point := point }

/-- The machine at a point of a line command. -/
def atLine (s : State) (lp : LpState) (point : Point) : State :=
  { s with busy := true, lpState := lp, point := point }

/-! ## Well-formedness: each check refuses an ill-formed term -/

/-- A payload one byte longer than `arg16` can count. -/
def tooLong : List Byte := List.replicate 65536 0

theorem tooLong_length : tooLong.length = 65536 := List.length_replicate

theorem test_wellFormed_refuses_wrburst_of_65536 : (Instr.wrburst 0x10 tooLong).wellFormed = false := by
  simp only [Instr.wellFormed, payloadFits, tooLong_length]
  decide

theorem test_wellFormed_refuses_sendcmd_of_65536 : (Instr.sendcmd tooLong).wellFormed = false := by
  simp only [Instr.wellFormed, payloadFits, tooLong_length]
  decide

theorem test_wellFormed_refuses_senddata_of_65536 : (Instr.senddata tooLong).wellFormed = false := by
  simp only [Instr.wellFormed, payloadFits, tooLong_length]
  decide

theorem test_wellFormed_takes_65535 : (Instr.senddata (tooLong.drop 1)).wellFormed = true := by
  simp only [Instr.wellFormed, payloadFits, List.length_drop, tooLong_length]
  decide

/-! ## Decoding: words written out from the layout of R71 and the opcodes of R74 -/

/-- `op = 01`, `addr = 7F`. -/
theorem test_decode_rdreg : accepted .byte 0x017F000000000000 [] = some (.rdreg 0x7F) := by decide

/-- `op = 02`, `addr = 01`, `data = F0` (R89). -/
theorem test_decode_wrreg : accepted .byte 0x0201F00000000000 [] = some (.wrreg 0x01 0xF0) := by decide

/-- `op = 03`, `addr = 10`, `arg16 = 0003` in bits 23 to 8 (R89). -/
theorem test_decode_rdburst : accepted .byte 0x0310000000000300 [] = some (.rdburst 0x10 3) := by decide

/-- `op = 04`, `addr = 10`, `arg16 = 0003` (R89). -/
theorem test_decode_wrburst : accepted .byte 0x0410000000000300 [1, 2, 3] = some (.wrburst 0x10 [1, 2, 3]) := by decide

/-- `op = 05`, `addr = 01`, `msb = 03`, `lsb = 01` (R89). -/
theorem test_decode_getbf : accepted .byte 0x0501000301000000 [] = some (.getbf 0x01 3 1) := by decide

/-- `op = 06`, `addr = 01`, `data = 05`, `msb = 03`, `lsb = 01`, `arg16 = 07D0`, 2000 in decimal (R89). -/
theorem test_decode_setbf : accepted .byte 0x060105030107D000 [] = some (.setbf 0x01 5 3 1 2000) := by decide

/-- `op = 10`, nothing else (R89). -/
theorem test_decode_flush : accepted .line 0x1000000000000000 [] = some .flush := by decide

/-- `op = 11`, `arg16 = 0002`, the text "AT" (R89). -/
theorem test_decode_sendcmd : accepted .line 0x1100000000000200 [0x41, 0x54] = some (.sendcmd [0x41, 0x54]) := by decide

/-- `op = 12`, `arg16 = 0003` (R89). -/
theorem test_decode_senddata :
    accepted .line 0x1200000000000300 [0xDE, 0xAD, 0x00] = some (.senddata [0xDE, 0xAD, 0x00]) := by decide

/-- The reserved opcodes 00, 07, 0F, 13 and FF (R79) and the illegal examples of R89. -/
theorem test_decode_refuses :
    accepted .byte 0 [] = none ∧ accepted .byte 0x0700000000000000 [] = none ∧
    accepted .line 0x0F00000000000000 [] = none ∧ accepted .line 0x1300000000000000 [] = none ∧
    accepted .line 0xFF00000000000000 [] = none ∧ accepted .byte 0x0101000000000001 [] = none ∧
    accepted .byte 0x0101AA0000000000 [] = none ∧ accepted .line 0x1000000000000100 [] = none ∧
    accepted .line 0x1100000000000200 [1, 2, 3] = none ∧ accepted .line 0x0101000000000000 [] = none := by decide

/-- An index of 200 is a legal encoding (R73). -/
theorem test_decode_takes_wide_index : accepted .byte 0x050100C800000000 [] = some (.getbf 0x01 200 0) := by decide

/-- The assembler: the window left out (R81), a string (R80), an operand too wide (R80). -/
theorem test_assemble :
    assemble (.setbf 1 5 3 1 none) = some (.setbf 1 5 3 1 2000) ∧ assemble (.sendcmd "AT") = some (.sendcmd [0x41, 0x54]) ∧
    assemble (.wrreg 1 256) = none := by decide

/-- A table word of a row with a payload stands for `arg16` zero bytes; one of a line command for a line instance (log 7). -/
theorem test_decodeTableWord :
    decodeTableWord 64 0x0410000000000200 = some (.wrburst 0x10 [0, 0]) ∧
    decodeTableWord 64 0x1000000000000000 = some .flush ∧ decodeTableWord 64 0x0101000000000001 = none := by decide

/-- The first step after reset runs the word at the command port: `CmdAccept`, and `RDREG` enters `PLAIN` (R25). -/
theorem test_withFetchWord_runs :
    (after (step (State.reset.withFetchWord 64 0x0101000000000000))).trace = [.cmdAccept 0x0101000000000000 []] ∧
    (after (step (State.reset.withFetchWord 64 0x0101000000000000))).rbPhase = .plain ∧
    (after (step (State.reset.withFetchWord 64 0x1100000000000000))).lpState = .sending := by decide

/-! ## Single steps, against the spec's examples -/

/-- The address byte of `RDREG 0x01` goes out as `0x01` (R102, example). -/
theorem test_rdreg_address :
    (after (exec (.rdreg 0x01) { at_ (ideal 1 0xFA) .plain .addr .txn with
      env := (ideal 1 0xFA).env.selAssert })).trace = [.xfer 0x01 0x00] := by decide

/-- `RDREG` delivers the byte read (R102, example: `Result(OK, 0xFA, [])`). -/
theorem test_rdreg_result :
    (after (exec (.rdreg 0x01) { at_ (ideal 1 0) .plain .none (.owe .ok) with rxdata := [0xFA] })).trace =
      [.result 0x00 0xFA []] := by decide

/-- `WRREG 0x01, 0xF0` sends the address with the write bit, `0x81` (R103, example). -/
theorem test_wrreg_address :
    (after (exec (.wrreg 0x01 0xF0) (at_ (onBytes (.oracle [9]) (.counters ⟨0, 0, 0⟩ ⟨0, 0, 0⟩)) .plain .addr .txn))).trace =
      [.xfer 0x81 9] := by decide

/-- The byte of `WRREG` goes out, the byte received with it is kept nowhere (R56). -/
theorem test_wrreg_data :
    (after (exec (.wrreg 0x01 0xF0) (at_ (onBytes (.oracle [9]) (.counters ⟨0, 0, 0⟩ ⟨0, 0, 0⟩)) .plain .data .txn))).trace =
      [.xfer 0xF0 9] ∧
    (after (exec (.wrreg 0x01 0xF0) (at_ (onBytes (.oracle [9]) (.counters ⟨0, 0, 0⟩ ⟨0, 0, 0⟩)) .plain .data .txn))).rxdata = [] := by
  decide

/-- `RDBURST` sends the filler and keeps the byte behind those it has (R104). -/
theorem test_rdburst_data :
    (after (exec (.rdburst 0x10 3) { at_ (onBytes (.oracle [2]) (.counters ⟨0, 0, 0⟩ ⟨0, 0, 0⟩)) .plain .data .txn with
      idx := 1, rxdata := [1] })).rxdata = [1, 2] := by decide

/-- A burst of zero bytes goes from the address to the deassertion (R106). -/
theorem test_rdburst_zero :
    (after (exec (.rdburst 0x10 0) (at_ (onBytes (.oracle [9]) (.counters ⟨0, 0, 0⟩ ⟨0, 0, 0⟩)) .plain .addr .txn))).txnStep = .desel := by
  decide

/-- `WRBURST` sends its payload in index order (R105, example). -/
theorem test_wrburst_data :
    (after (exec (.wrburst 0x10 [1, 2, 3]) { at_ (onBytes (.oracle [9]) (.counters ⟨0, 0, 0⟩ ⟨0, 0, 0⟩)) .plain .data .txn with
      idx := 2 })).trace = [.xfer 3 9] := by decide

/-- `GETBF 0x01, 3, 1` of `0xFA` delivers `0x05` (R115, example). -/
theorem test_getbf_result :
    (after (exec (.getbf 0x01 3 1) { at_ (ideal 1 0xFA) .bfRead .none (.owe .ok) with
      cur := 0xFA, mask := 0x0E })).trace = [.result 0x00 0x05 []] := by decide

/-- An index above 7 ends in `InvalidBitRange` (R110). -/
theorem test_getbf_invalid :
    (after (exec (.getbf 0x10 8 0) (at_ (ideal 1 0) .idle .none .idle))).point = .owe .invalidBitRange := by decide

/-- `SETBF 0x01, 0b101, 3, 1` on `0xF0`: `MASK = 0x0E`, `NEW = 0xFA` (R116, R117). -/
theorem test_setbf_merge :
    (after (exec (.setbf 0x01 5 3 1 2000) { at_ (ideal 1 0xF0) .bfRead .rel .txn with cur := 0xF0 })).mask = 0x0E ∧
    (after (exec (.setbf 0x01 5 3 1 2000) { at_ (ideal 1 0xF0) .bfRead .rel .txn with cur := 0xF0 })).new = 0xFA := by
  decide

/-- The record of `DbgDiag` in the order of R88, from the registers as they stand (R120). -/
theorem test_setbf_diag :
    (after (exec (.setbf 0x20 1 7 7 50) { at_ (ideal 1 0) .bfPoll .none .diag with
      cur := 0, mask := 0x80, new := 0x80, last := 0 })).trace =
      [.dbgDiag (DiagRecord.mk 0x20 7 7 1 0x00 0x80 0x80 0x00)] := by decide

/-- An empty queue: `Avail->0` and the result is next (R133). -/
theorem test_flush_empty :
    (after (exec .flush (atLine (onLine [] (.counters ⟨0, 0, 0⟩ ⟨0, 0, 0⟩)) .idle .flushAvail))).trace = [.avail 0] ∧
    (after (exec .flush (atLine (onLine [] (.counters ⟨0, 0, 0⟩ ⟨0, 0, 0⟩)) .idle .flushAvail))).point = .owe .ok := by decide

/-- Two queued bytes: `Avail->2` and a byte is read next (R133, example). -/
theorem test_flush_queued :
    (after (exec .flush (atLine (onLine [0x4F, 0x4B] (.counters ⟨0, 0, 0⟩ ⟨0, 0, 0⟩)) .idle .flushAvail))).trace = [.avail 2] := by decide

/-- Behind the last byte of the text the terminator begins (R134). -/
theorem test_sendcmd_last_byte :
    (after (exec (.sendcmd [0x41, 0x54]) (atLine (onLine [] (.counters ⟨0, 0, 0⟩ ⟨0, 0, 0⟩)) .sending (.send [0x54])))).trace =
      [.wrByte 0x54] ∧
    (after (exec (.sendcmd [0x41, 0x54]) (atLine (onLine [] (.counters ⟨0, 0, 0⟩ ⟨0, 0, 0⟩)) .sending (.send [0x54])))).point =
      .term [0x0D, 0x0A] := by decide

/-- The `K` of `ERROOK` completes "OK" (R146, example). -/
theorem test_sendcmd_verdict :
    (after (exec (.sendcmd []) { atLine (onLine [] (.counters ⟨0, 0, 0⟩ ⟨0, 0, 0⟩)) .awaiting (.mirror 0x4B) with
      rbuf := [0x45, 0x52, 0x52, 0x4F, 0x4F] })).point = .owe .ok := by decide

/-- The last `R` of "ERROR" ends the wait in `LineFailure` and clears `RBUF` (R135, example; R148). -/
theorem test_senddata_verdict :
    (after (exec (.senddata [1]) { atLine (onLine [] (.counters ⟨0, 0, 0⟩ ⟨0, 0, 0⟩)) .awaiting (.mirror 0x52) with
      rbuf := [0x45, 0x52, 0x52, 0x4F] })).point = .owe .lineFailure ∧
    (after (exec (.senddata [1]) { atLine (onLine [] (.counters ⟨0, 0, 0⟩ ⟨0, 0, 0⟩)) .awaiting (.mirror 0x52) with
      rbuf := [0x45, 0x52, 0x52, 0x4F] })).rbuf = [] := by decide

/-- With an empty payload and an empty terminator nothing is written: the drained flush enters the wait (R139). -/
theorem test_senddata_nothing_to_write :
    (after (exec (.senddata []) (atLine { onLine [] (.counters ⟨0, 0, 0⟩ ⟨0, 0, 0⟩) with
      cfg := { Config.defaultHandle with mode := .line, lineTerm := [] } } .sending .flushAvail))).lpState = .awaiting := by
  decide

/-- A slow device still shows the old byte at the first read after a store, and the new one at the second (R65, `slow(1)`). -/
theorem test_slow_device :
    (((device [] (.slow 1)).store 5 9).load 5).1 = 0 ∧ ((((device [] (.slow 1)).store 5 9).load 5).2.load 5).1 = 9 := by
  decide

/-- A stuck address does not take a store (R65). -/
theorem test_stuck_device : (((device [(5, 1)] (.stuck [5])).store 5 9).load 5).1 = 1 := by decide

/-- No event but `Xfer` and `Avail` changes `tau` of `RefClock` (R66). -/
theorem test_refClock_moves_at_xfer_and_avail :
    let c := Clock.ref 5 10 100
    c.tick 7 7 = c ∧ c.afterNowUs = c ∧ c.afterNowMs = c ∧ c.afterXfer = .ref 15 10 100 ∧ c.afterAvail = .ref 105 10 100 := by
  decide

/-- A reading of one counter leaves the other alone, and time passes by one tick at least where no reading is left to stand
still (R172, R173). -/
theorem test_time_passes_at_a_reading :
    (Clock.counters ⟨5, 1, 0⟩ ⟨7, 0, 0⟩).afterNowUs = .counters ⟨5, 0, 0⟩ ⟨7, 0, 0⟩ ∧
    5 < ((⟨5, 0, 0⟩ : Counter).read .us).ticks := by
  refine ⟨rfl, ?_⟩
  simp only [Counter.read]
  omega

/-- The elapsed time of the vectors' wrap: from `0xFFFFFFCE` to `0x00000000` is 50 ticks (R118). -/
theorem test_window_across_the_wrap :
    windowElapsed 0x00000000 0xFFFFFFCE 50 = true ∧ windowElapsed 0x00000000 0xFFFFFFCE 51 = false := by decide

/-! ## Witnesses: a state and operands that meet the hypotheses of each obligation -/

/-- The machine ready, this command offered. -/
def offering (s : State) (word : Word) (payload : List Byte) : State :=
  { s with env := { s.env with offers := [{ word := word, payload := payload }] } }

/-- The machine in the middle of `RDREG 0x01`, the bus owned and the select line active. -/
def midRead : State :=
  { at_ (ideal 1 0xFA) .plain .data .txn with
    op := 0x01, addr := 0x01, busOwned := true, sel := .active, idx := 0 }

/-- The machine in the wait of `SENDCMD "A"`, a byte queued. -/
def midWait : State :=
  { atLine (onLine [0x4B] (.counters ⟨0, 0, 0⟩ ⟨0, 0, 0⟩)) .awaiting .read with
    op := 0x11, arg := 1, payload := [0x41], rbuf := [0x4F] }

/-- The machine in the wait of `SENDCMD ""`, about to poll an empty queue. -/
def midPoll : State := { atLine (onLine [] (.ref 0 10 100)) .awaiting .poll with op := 0x11, rbuf := [0x4F] }

/-- The machine owing the result of an illegal command. -/
def illegalOwed : State := at_ (ideal 1 0) .idle .none (.owe .illegalCommand)

/-- `s` with these turns to come. -/
def withTurns (s : State) (turns : List Turn) : State := { s with env := { s.env with turns := turns } }

/-- The bus in another user's hands. -/
def busTaken (s : State) : State := { s with env := { s.env with otherOwns := true } }

theorem midRead_inv : Inv midRead where
  bus := ⟨rfl, rfl⟩
  exclusive := fun _ => rfl
  resting := fun h => absurd h (by decide)
  running := fun _ => .inr ⟨.rdreg 0x01, rfl, ⟨rfl, rfl, .inl ⟨rfl, by decide, fun _ => by decide⟩⟩, rfl⟩
  buffer := fun _ => rfl
  unclassified := by decide
  byteMode := fun _ => rfl
  lineMode := fun h => absurd h (by decide)
  memory := by decide

theorem midWait_inv : Inv midWait where
  bus := ⟨rfl, rfl⟩
  exclusive := fun _ => rfl
  resting := fun h => absurd h (by decide)
  running := fun _ => .inr ⟨.sendcmd [0x41], rfl, rfl, rfl,
    .inr (.inl ⟨rfl, .inr (.inr (.inr (.inl ⟨rfl, by decide⟩)))⟩)⟩
  buffer := fun h => absurd rfl h
  unclassified := by decide
  byteMode := fun h => absurd h (by decide)
  lineMode := fun _ => ⟨rfl, rfl⟩
  memory := by decide

theorem midPoll_inv : Inv midPoll where
  bus := ⟨rfl, rfl⟩
  exclusive := fun _ => rfl
  resting := fun h => absurd h (by decide)
  running := fun _ => .inr ⟨.sendcmd [], rfl, rfl, rfl, .inr (.inl ⟨rfl, .inr (.inr (.inl rfl))⟩)⟩
  buffer := fun h => absurd rfl h
  unclassified := by decide
  byteMode := fun h => absurd h (by decide)
  lineMode := fun _ => ⟨rfl, rfl⟩
  memory := by decide

theorem illegalOwed_inv : Inv illegalOwed where
  bus := ⟨rfl, rfl⟩
  exclusive := fun _ => rfl
  resting := fun h => absurd h (by decide)
  running := fun _ => .inl ⟨rfl, rfl, rfl, rfl⟩
  buffer := fun _ => rfl
  unclassified := by decide
  byteMode := fun _ => rfl
  lineMode := fun h => absurd h (by decide)
  memory := by decide

/-! ### Reset and the step -/

theorem witness_resetAbandonsTheCommand :
    (withTurns midRead [.env .assertReset]).env.turns = [.env .assertReset] ∧ midRead.sel = .active ∧
      midRead.busOwned = true := ⟨rfl, rfl, rfl⟩

theorem witness_resetHoldsTheSequencer :
    let s := { midRead with env := { midRead.env with resetLine := true } }
    s.env.resetLine = true ∧ s.env.turns = [] ∧ (withTurns s [.seq]).env.turns = [.seq] := ⟨rfl, rfl, rfl⟩

theorem witness_stepRuns_nothing_offered :
    State.reset.env.turns = [] ∧ State.reset.env.resetLine = false ∧ State.reset.busy = false ∧
      State.reset.env.offers = [] := ⟨rfl, rfl, rfl, rfl⟩

theorem witness_stepRuns_legal :
    let s := offering (ideal 1 0) 0x0101000000000000 []
    s.env.turns = [] ∧ s.env.resetLine = false ∧ s.busy = false ∧
      decode s.cfg.mode 0x0101000000000000 [] = .ok (.rdreg 1) := ⟨rfl, rfl, rfl, rfl⟩

theorem witness_stepRuns_illegal :
    let s := offering (ideal 1 0) 0 []
    s.env.offers = [⟨0, []⟩] ∧ s.busy = false ∧ decode s.cfg.mode 0 [] = .error .reservedOpcode := ⟨rfl, rfl, rfl⟩

theorem witness_stepRuns_owed : illegalOwed.busy = true ∧ illegalOwed.point = .owe .illegalCommand := ⟨rfl, rfl⟩

theorem witness_stepRuns_running :
    midRead.busy = true ∧ midRead.point ≠ .owe .illegalCommand ∧ midRead.latched = .ok (.rdreg 1) :=
  ⟨rfl, by decide, rfl⟩

/-- A second clause for a pair that spells a command; the first has no hypothesis. -/
theorem witness_acceptLoadsTheLatches :
    decode (ideal 1 0).cfg.mode 0x060105030107D000 [] = .ok (.setbf 1 5 3 1 2000) := rfl

/-- A `GETBF` with an invalid range: the second of its two steps delivers the result. -/
theorem witness_stepsRunTheWholeCommand :
    let c : Command := ⟨0x0510000205000000, []⟩
    let s := offering (ideal 1 0) c.word c.payload
    s.busy = false ∧ s.env.turns = [] ∧ s.env.resetLine = false ∧ s.env.offers = [c] ∧
      decode s.cfg.mode c.word c.payload = .ok (.getbf 0x10 2 5) ∧
      (∀ j, 0 < j → j ≤ 1 → ∃ u, execFor (.getbf 0x10 2 5) j (s.accept c) = .next u ∧ u.busy = true) ∧
      ∃ t, execFor (.getbf 0x10 2 5) (1 + 1) (s.accept c) = .next t := by
  refine ⟨rfl, rfl, rfl, rfl, rfl, ?_, ⟨_, rfl⟩⟩
  intro j h0 h1
  obtain rfl : j = 1 := by omega
  exact ⟨_, rfl, rfl⟩

theorem witness_turnsAreTakenInOrder :
    (withTurns (ideal 1 0) [.seq]).env.turns = [.seq] ∧
    ((.tick 5 0 : Move) ≠ .assertReset ∧ (withTurns (ideal 1 0) [.env (.tick 5 0)]).env.turns = [.env (.tick 5 0)]) ∧
    ((withTurns midRead [.env .otherBegin]).env.turns = [.env .otherBegin] ∧ midRead.busOwned = true) :=
  ⟨rfl, ⟨by decide, rfl⟩, rfl, rfl⟩

/-- A turn of each kind of move, on a state in which its clauses speak. -/
theorem witness_turns_moves :
    (withTurns (ideal 1 0) [.env (.offer ⟨0, []⟩), .seq]).env.turns = .env (.offer ⟨0, []⟩) :: [.seq] ∧
    (withTurns (ideal 1 0) [.env .releaseReset]).env.turns = [.env .releaseReset] ∧
    ((withTurns State.reset [.env (.devAnswers [9])]).env.turns = [.env (.devAnswers [9])] ∧
      State.reset.env.device = .oracle []) ∧
    ((withTurns (ideal 1 0) [.env (.devStore 127 9)]).env.turns = [.env (.devStore 127 9)] ∧
      (ideal 1 0).env.device = .ref (device [] .ideal) ∧ (device [] .ideal).reg.wf = true) ∧
    ((withTurns (ideal 1 0) [.env .otherBegin]).env.turns = [.env .otherBegin] ∧ (ideal 1 0).busOwned = false) ∧
    (withTurns (busTaken (ideal 1 0)) [.env .otherEnd]).env.turns = [.env .otherEnd] ∧
    (withTurns midWait [.env (.arrive [0x0D])]).env.turns = [.env (.arrive [0x0D])] ∧
    ((withTurns midWait [.env (.tick 5 6)]).env.turns = [.env (.tick 5 6)] ∧
      midWait.env.clock = .counters ⟨0, 0, 0⟩ ⟨0, 0, 0⟩ ∧ (ideal 1 0).env.clock = .ref 0 10 10) := by decide

/-! ### Encoding -/

theorem witness_decodeGivesBack :
    (Instr.wrburst 0xFF (tooLong.drop 1)).wellFormed = true ∧ (Instr.setbf 0xFF 0xFF 0xFF 0xFF 0xFFFF).wellFormed = true :=
  ⟨test_wellFormed_takes_65535, rfl⟩

theorem witness_decodedPairs : decode .byte 0x06FFFFFFFFFFFF00 [] = .ok (.setbf 0xFF 0xFF 0xFF 0xFF 0xFFFF) := rfl

theorem witness_modeSelects :
    decode .byte 0x01FF000000000000 [] = .ok (.rdreg 0xFF) ∧
    decode .byte 0x0600000000000000 [] = .ok (.setbf 0 0 0 0 0) ∧
    decode .line 0x1000000000000000 [] = .ok .flush ∧ decode .line 0x1200000000000000 [] = .ok (.senddata []) ∧
    Mode.line ≠ Mode.byte := ⟨rfl, rfl, rfl, rfl, by decide⟩

theorem witness_illegalCommandsOnlyAnswer :
    let s := offering (ideal 1 0) 0x1000000000000000 []
    s.busy = false ∧ s.env.turns = [] ∧ s.env.resetLine = false ∧ s.env.offers = [⟨0x1000000000000000, []⟩] ∧
      decode s.cfg.mode 0x1000000000000000 [] = .error .wrongEngine := ⟨rfl, rfl, rfl, rfl, rfl⟩

/-! ### Arithmetic -/

theorem witness_validRange :
    validRange 7 0 = true ∧ validRange 0 0 = true ∧ validRange 7 7 = true ∧
      (0xFA : Byte) &&& fieldMask 3 1 = 0x0A &&& fieldMask 3 1 := by decide

theorem witness_verdict :
    (contains [0x4F] [0x4F, 0x4B] = false ∧ contains [0x4F] [0x45, 0x52, 0x52, 0x4F, 0x52] = false ∧
      classify ([0x4F] ++ [0x4B]) = .success) ∧
    (contains [0x45, 0x52, 0x52, 0x4F] [0x4F, 0x4B] = false ∧
      contains [0x45, 0x52, 0x52, 0x4F] [0x45, 0x52, 0x52, 0x4F, 0x52] = false ∧
      classify ([0x45, 0x52, 0x52, 0x4F] ++ [0x52]) = .failure) := by decide

/-! ### Where commands start and end -/

/-- The head of every command, with the bus free: what the whole-command statements of the register commands ask for. -/
theorem witness_atStart : AtStart State.reset ∧ State.reset.env.otherOwns = false := ⟨⟨rfl, rfl, rfl⟩, rfl⟩

theorem witness_eachCommandDelivers :
    let plain := { at_ (ideal 1 0) .plain .none (.owe .ok) with rxdata := [0xFA] }
    let field := { at_ (ideal 1 0) .bfRead .none (.owe .ok) with mask := fieldMask 3 1 }
    let poll := at_ (ideal 1 0) .bfPoll .none (.owe .ok)
    (plain.point = .owe .ok ∧ plain.rbPhase = .plain ∧ plain.rxdata = [0xFA]) ∧
    (field.point = .owe .ok ∧ field.rbPhase = .bfRead ∧ field.mask = fieldMask 3 1) ∧
    (poll.point = .owe .ok ∧ poll.rbPhase = .bfPoll) ∧
    ((atLine State.reset .idle (.owe .ok)).point = .owe .ok ∧ (atLine State.reset .idle (.owe .ok)).lpState = .idle) ∧
    ((atLine State.reset .success (.owe .ok)).point = .owe .ok ∧
      (atLine State.reset .success (.owe .ok)).lpState = .success) :=
  ⟨⟨rfl, rfl, rfl⟩, ⟨rfl, rfl, rfl⟩, ⟨rfl, rfl⟩, ⟨rfl, rfl⟩, rfl, rfl⟩

theorem witness_wrburst : payloadFits (tooLong.drop 1) = true ∧ payloadFits [] = true :=
  ⟨test_wellFormed_takes_65535, rfl⟩

theorem witness_transactionsWait :
    let s := at_ (ideal 1 0) .plain .acq .txn
    (s.point = .txn ∧ s.txnStep = .acq ∧ s.rbPhase = .plain ∧ (Instr.rdreg 1).opcode ∈ [.rdreg, .wrreg, .rdburst, .wrburst]) ∧
    ((at_ s .bfRead .acq .txn).rbPhase = .bfRead ∧ (Instr.getbf 1 0 0).opcode ∈ [.getbf, .setbf]) ∧
    ((at_ s .bfPoll .acq .txn).rbPhase = .bfPoll ∧ (Instr.setbf 1 0 0 0 0).opcode = .setbf) ∧
    s.env.otherOwns = false ∧ (busTaken s).env.otherOwns = true ∧ midRead.busOwned = true := by decide

/-- The ideal device at the two ends of its addresses. -/
theorem witness_idealDevice :
    let d := device (Memory.write [] 127 9) .ideal
    pollElapsed (ideal 127 9).cfg 127 1 (setbfRun 127 1 7 0 (ideal 127 9)).t0 (setbfRun 127 1 7 0 (ideal 127 9)).env 0 = false ∧
    (ideal 127 9).env.device = .ref d ∧ d.variant = .ideal ∧ d.reg.wf = true ∧ (ideal 127 9).cfg.cmdRead = 0x00 ∧
      (ideal 127 9).cfg.cmdWrite = 0x80 ∧ AtStart (ideal 127 9) ∧ (ideal 127 9).env.otherOwns = false ∧
      (127 : Byte).toNat < 128 ∧ (0 : Byte).toNat < 128 ∧ 128 ≤ (0x80 : Byte).toNat ∧ 128 ≤ (0xFF : Byte).toNat :=
  ⟨rfl, rfl, rfl, rfl, rfl, rfl, ⟨rfl, rfl, rfl⟩, rfl, by decide, by decide, by decide, by decide⟩

/-! ### Bit fields -/

/-- An index just above 7, either one, and an order just inverted. -/
theorem witness_invalidRanges :
    ¬ ((8 : Byte).toNat ≤ 7 ∧ (0 : Byte).toNat ≤ 7 ∧ (0 : Byte).toNat ≤ (8 : Byte).toNat) ∧
    ¬ ((9 : Byte).toNat ≤ 7 ∧ (8 : Byte).toNat ≤ 7 ∧ (8 : Byte).toNat ≤ (9 : Byte).toNat) ∧
    ¬ ((2 : Byte).toNat ≤ 7 ∧ (3 : Byte).toNat ≤ 7 ∧ (3 : Byte).toNat ≤ (2 : Byte).toNat) ∧
    validRange 8 0 = false := by decide

/-- On the ideal device the first poll read matches. -/
theorem witness_setbf_first_match :
    let s := ideal 1 0xF0
    let r := setbfRun 0x01 5 3 1 s
    validRange 3 1 = true ∧ AtStart s ∧ s.env.otherOwns = false ∧
      (∀ k ≤ 0, pollElapsed s.cfg 0x01 2000 r.t0 r.env k = false) ∧
      (pollRun s.cfg 0x01 r.env 0).byte = r.new := by
  refine ⟨rfl, ⟨rfl, rfl, rfl⟩, rfl, ?_, rfl⟩
  intro k hk
  obtain rfl : k = 0 := by omega
  rfl

/-- On a slow device the first poll read still shows the old byte and the second one matches. -/
theorem witness_setbf_second_match :
    let s := onBytes (.ref (device [(1, 0xF0)] (.slow 1))) (.ref 0 10 10)
    let r := setbfRun 0x01 5 3 1 s
    (∀ k ≤ 1, pollElapsed s.cfg 0x01 2000 r.t0 r.env k = false) ∧
      (∀ k < 1, (pollRun s.cfg 0x01 r.env k).byte ≠ r.new) ∧ (pollRun s.cfg 0x01 r.env 1).byte = r.new := by
  refine ⟨?_, ?_, rfl⟩
  · intro k hk
    obtain rfl | rfl : k = 0 ∨ k = 1 := by omega
    · rfl
    · rfl
  · intro k hk
    obtain rfl : k = 0 := by omega
    decide

/-- On a stuck device a window of 20 microseconds elapses at the test behind one poll read of two transfers. -/
theorem witness_setbf_window_elapses :
    let s := onBytes (.ref (device [(1, 0xF0)] (.stuck [1]))) (.ref 0 10 10)
    let r := setbfRun 0x01 5 3 1 s
    (∀ k < 1, pollElapsed s.cfg 0x01 20 r.t0 r.env k = false) ∧
      (∀ k < 1, (pollRun s.cfg 0x01 r.env k).byte ≠ r.new) ∧ pollElapsed s.cfg 0x01 20 r.t0 r.env 1 = true ∧
      pollElapsed s.cfg 0x01 0 r.t0 r.env 0 = true := by
  refine ⟨?_, ?_, rfl, rfl⟩
  · intro k hk
    obtain rfl : k = 0 := by omega
    rfl
  · intro k hk
    obtain rfl : k = 0 := by omega
    decide

/-- The window test at its boundary: 50 ticks against 50 and against 51. -/
theorem witness_windowTest :
    let s := { at_ (onBytes (.oracle []) (.counters ⟨150, 0, 0⟩ ⟨0, 0, 0⟩)) .bfPoll .none .window with t0 := 100 }
    s.rbPhase = .bfPoll ∧ s.point = .window ∧ (50 : Half).toNat ≤ (s.env.clock.nowUs - s.t0).toNat ∧
      (s.env.clock.nowUs - s.t0).toNat < (51 : Half).toNat := by decide

/-- The slowest and the fastest clock the running-clock statement of `SETBF` admits for the longest window. -/
theorem witness_setbf_runningClock :
    (ideal 1 0).env.clock = .ref 0 10 10 ∧ 1 ≤ 10 ∧ (0xFFFF : Half).toNat + 2 * 1 ≤ 2 ^ 32 ∧
      (0xFFFF : Half).toNat + 2 * 2147450880 ≤ 2 ^ 32 := by decide

/-! ### The line -/

theorem witness_flush :
    let s := atLine (onLine [1, 2] (.counters ⟨0, 0, 0⟩ ⟨0, 0, 0⟩)) .idle .idle
    s.lpState = .idle ∧ s.point = .idle ∧ s.env.channel.silent := ⟨rfl, rfl, rfl, rfl⟩

theorem witness_chatter :
    let s := atLine (onLine [] (.counters ⟨0, 0, 0⟩ ⟨0, 0, 0⟩)) .idle .idle
    let c := { s with env := { s.env with channel := { s.env.channel with chatter := [0x2E] } } }
    c.busy = true ∧ c.lpState = .idle ∧ c.point = .idle ∧ c.env.channel.chatter ≠ [] := ⟨rfl, rfl, rfl, by decide⟩

/-- With a terminator and without one. -/
theorem witness_exchanges :
    let s := atLine (onLine [7] (.counters ⟨0, 0, 0⟩ ⟨0, 0, 0⟩)) .idle .idle
    (Instr.senddata [1] = .sendcmd [1] ∨ Instr.senddata [1] = .senddata [1]) ∧ s.lpState = .idle ∧ s.point = .idle ∧
      s.env.channel.silent ∧ ([0x0D, 0x0A] : List Byte) = (if s.cfg.lineTerm = [] then [1] else s.cfg.lineTerm) :=
  ⟨.inr rfl, rfl, rfl, ⟨rfl, rfl⟩, rfl⟩

/-- "OK" behind other bytes, and "ERROR", each with a byte behind it. -/
theorem witness_wait :
    let s := atLine (onLine [0x2E, 0x4F, 0x4B, 0x0D] (.ref 5000 10 100)) .awaiting .sample
    (s.lpState = .awaiting ∧ s.point = .sample ∧ s.rbuf = [] ∧ s.env.channel.silent) ∧
      s.env.channel.inbound = [0x2E, 0x4F] ++ 0x4B :: [0x0D] ∧
      (∀ k ≤ 2, windowElapsed (waitClock s.env.nowMs.2.clock k).nowMs s.env.clock.nowMs s.cfg.responseTimeoutMs = false) ∧
      classify [0x2E, 0x4F] = .pending ∧
      classify ([0x2E, 0x4F] ++ [0x4B]) ≠ .pending ∧ classify [0x45, 0x52, 0x52, 0x4F] = .pending ∧
      classify ([0x45, 0x52, 0x52, 0x4F] ++ [0x52]) ≠ .pending :=
  ⟨⟨rfl, rfl, rfl, rfl, rfl⟩, rfl, by decide, by decide, by decide, by decide, by decide⟩

/-- A device that answers "OK" and a line end once the text and its terminator have been written. -/
theorem witness_reply :
    let s := atLine (onLine [0x4B] (.ref 0 10 100)) .idle .idle
    let u := { s with env := { s.env with channel := { s.env.channel with
      script := [⟨.afterOut 4 0, [0x4F, 0x4B, 0x0D, 0x0A]⟩] } } }
    u.env.channel.chatter = [] ∧
      u.env.channel.script = [⟨.afterOut (u.env.channel.out.length + [(0x41 : Byte), 0x54].length + u.cfg.lineTerm.length) 0,
        [0x4F] ++ 0x4B :: [0x0D, 0x0A]⟩] ∧
      [(0x41 : Byte), 0x54] ++ u.cfg.lineTerm ≠ [] ∧
      (∀ k ≤ 1, windowElapsed (waitClock (u.env.clock.afterAvails (u.env.channel.inbound.length + 1)).afterNowMs k).nowMs
        (u.env.clock.afterAvails (u.env.channel.inbound.length + 1)).nowMs u.cfg.responseTimeoutMs = false) := by decide

/-- The timeout test at its boundary: 1000 milliseconds have elapsed, and 999. -/
theorem witness_timeout :
    let s := atLine (onLine [] (.counters ⟨0, 0, 0⟩ ⟨1000, 0, 0⟩)) .awaiting .window
    s.lpState = .awaiting ∧ s.point = .window ∧
      s.cfg.responseTimeoutMs.toNat ≤ (s.env.clock.nowMs - s.t0).toNat ∧
      ((atLine (onLine [] (.counters ⟨0, 0, 0⟩ ⟨999, 0, 0⟩)) .awaiting .window).env.clock.nowMs - s.t0).toNat <
        s.cfg.responseTimeoutMs.toNat := by decide

/-- An empty poll and one that finds a byte. -/
theorem witness_poll :
    let s := atLine (onLine [] (.ref 0 10 100)) .awaiting .poll
    let u := atLine (onLine [0x4F] (.ref 0 10 100)) .awaiting .poll
    s.lpState = .awaiting ∧ s.point = .poll ∧ s.env.avail.1 = 0 ∧ u.lpState = .awaiting ∧ u.point = .poll ∧
      u.env.avail.1 ≠ 0 := by decide

/-- The slowest clock the running-clock statement of the wait admits. -/
theorem witness_wait_runningClock :
    let s := atLine (onLine [] (.ref 0 10 1)) .awaiting .sample
    s.lpState = .awaiting ∧ s.point = .sample ∧ s.env.clock = .ref 0 10 1 ∧ 1 ≤ 1 ∧
      s.cfg.responseTimeoutMs.toNat + 1 / 1000 + 1 ≤ 2 ^ 32 := by decide

/-! ### Frames and the whole machine: a next state of each command, and states that meet the invariant -/

theorem witness_plain_steps :
    goes (exec (.rdreg 1) (ideal 1 0)) = true ∧ goes (exec (.wrreg 1 2) (ideal 1 0)) = true ∧
    goes (exec (.rdburst 1 0) (ideal 1 0)) = true ∧ goes (exec (.wrburst 1 []) (ideal 1 0)) = true ∧
    goes (exec (.rdreg 1) midRead) = true := by decide

theorem witness_field_steps :
    goes (exec (.getbf 1 3 1) (ideal 1 0)) = true ∧ goes (exec (.setbf 1 5 3 1 9) (ideal 1 0)) = true ∧
    goes (exec (.setbf 1 5 3 1 9) (at_ (ideal 1 0) .bfPoll .none .window)) = true := by decide

theorem witness_line_steps :
    goes (exec .flush (onLine [1] (.counters ⟨0, 0, 0⟩ ⟨0, 0, 0⟩))) = true ∧ goes (exec (.sendcmd [1]) (onLine [1] (.counters ⟨0, 0, 0⟩ ⟨0, 0, 0⟩))) = true ∧
    goes (exec (.senddata [1]) (onLine [1] (.counters ⟨0, 0, 0⟩ ⟨0, 0, 0⟩))) = true ∧ goes (exec (.sendcmd [0x41]) midWait) = true := by
  decide

/-- A device about to store, and one that is not; a step that is an `Xfer`, and the head of a command, which is none. -/
theorem witness_deviceMemory :
    let d := { device [(1, 9)] .ideal with a := 1, w := true }
    d.target = some 1 ∧ d.reg.wf = true ∧ (device [(1, 9)] .ideal).target = none ∧
      goes (exec (.wrreg 1 5) (at_ (onBytes (.ref d) (.counters ⟨0, 0, 0⟩ ⟨0, 0, 0⟩)) .plain .data .txn)) = true ∧
      goes (exec (.rdreg 1) (onBytes (.ref d) (.counters ⟨0, 0, 0⟩ ⟨0, 0, 0⟩))) = true ∧
      ¬ ((onBytes (.ref d) (.counters ⟨0, 0, 0⟩ ⟨0, 0, 0⟩)).point = .txn) := by decide

theorem witness_inv_step :
    Inv midRead ∧ goes (step midRead) = true ∧ midRead.cfg.mode = .byte ∧ SeqTurn midRead ∧ midRead.busy = true ∧
      midRead.env.turns.head? ≠ some (.env .assertReset) :=
  ⟨midRead_inv, rfl, rfl, .inl rfl, rfl, by decide⟩

theorem witness_inv_step_line : Inv midWait ∧ goes (step midWait) = true ∧ midWait.cfg.mode = .line ∧ SeqTurn midWait :=
  ⟨midWait_inv, rfl, rfl, .inl rfl⟩

theorem witness_command_ends :
    Inv illegalOwed ∧ SeqTurn illegalOwed ∧ illegalOwed.busy = true ∧ (after (step illegalOwed)).busy = false ∧
      goes (step illegalOwed) = true := ⟨illegalOwed_inv, .inl rfl, rfl, rfl, rfl⟩

theorem witness_clocks :
    midWait.env.clock = .counters ⟨0, 0, 0⟩ ⟨0, 0, 0⟩ ∧ midRead.env.clock = .ref 0 10 10 ∧ goes (step midRead) = true := by decide

/-- On `RefClock` a step that is an `Xfer`, one that is an `Avail` and one that is neither. -/
theorem witness_refClock_steps :
    (Inv midRead ∧ ∃ t, step midRead = .next t ∧ ∃ tx rx, t.trace = midRead.trace ++ [.xfer tx rx]) ∧
    (Inv midPoll ∧ ∃ t, step midPoll = .next t ∧ t.trace = midPoll.trace ++ [.avail 0]) ∧
    (Inv illegalOwed ∧ ∃ t, step illegalOwed = .next t ∧ t.trace = illegalOwed.trace ++ [.result 0x04 0x00 []]) ∧
    midRead.env.clock = .ref 0 10 10 ∧ midPoll.env.clock = .ref 0 10 100 ∧ illegalOwed.env.clock = .ref 0 10 10 :=
  ⟨⟨midRead_inv, _, rfl, _, _, rfl⟩, ⟨midPoll_inv, _, rfl, rfl⟩, ⟨illegalOwed_inv, _, rfl, rfl⟩, rfl, rfl, rfl⟩

/-- A run of one step that reads the millisecond counter. -/
theorem witness_time_passes :
    let s := { atLine (onLine [] (.counters ⟨0, 0, 0⟩ ⟨7, 0, 0⟩)) .awaiting .window with op := 0x11 }
    s.env.clock = .counters ⟨0, 0, 0⟩ ⟨7, 0, 0⟩ ∧
      ∃ t, Host.Core.run Sys2Proof.core 1 s = .next t ∧
        s.trace.countP Event.isNowMs + 1 ≤ t.trace.countP Event.isNowMs :=
  ⟨rfl, _, rfl, by decide⟩

/-- A final state, its next turn the environment's: a byte arrives. -/
theorem witness_final :
    let s := withTurns State.reset [.env (.arrive [0x0D])]
    Inv s ∧ Final s ∧ goes (step s) = true :=
  ⟨{ bus := ⟨rfl, rfl⟩, exclusive := fun _ => rfl, resting := fun _ => ⟨⟨rfl, rfl, rfl⟩, rfl⟩
     running := fun h => absurd h (by decide), buffer := fun _ => rfl, unclassified := by decide
     byteMode := fun _ => rfl, lineMode := fun h => absurd h (by decide), memory := by decide },
   ⟨rfl, rfl, fun c h => by simp [withTurns] at h⟩, rfl⟩

theorem witness_debug :
    midWait.cfg.debugEn = true ∧ goes (execFor (.sendcmd [0x41]) 1 midWait) = true := by decide

theorem witness_workingRegisters : AtStart State.reset ∧ goes (execFor (.rdreg 1) 1 State.reset) = true :=
  ⟨⟨rfl, rfl, rfl⟩, rfl⟩

end Sys2Proof.Tests
end

/-! # Proofs: the whole machine, step by step

A step takes a turn of the environment or one of `SEQ`; a step of `SEQ` waits, answers an illegal command, or is one step of
`exec`.  What a step of `exec` can do to `BUSY` and to the trace is said once (`exec_endsOrGoesOn`), and so is that it goes on
wherever `SEQ` stands at a point of the command's rule (`exec_next_of_inSequence`). -/

section

namespace Sys2Proof.Machine

open Sys2Proof

/-! ## Turns -/

theorem seqTurn_or_envTurn (s : State) : SeqTurn s ∨ ∃ m rest, s.env.turns = .env m :: rest := by
  unfold SeqTurn
  cases s.env.turns with
  | nil => exact .inl (.inl rfl)
  | cons turn rest =>
    cases turn with
    | seq => exact .inl (.inr ⟨rest, rfl⟩)
    | env m => exact .inr ⟨m, rest, rfl⟩

/-- A list without a turn is as good as one that begins with a turn of `SEQ`. -/
theorem step_of_seqTurn {s : State} (h : SeqTurn s) : step s = seqStep s.dropTurn := by
  rcases h with h | ⟨rest, h⟩
  · have htail : s.env.turns.tail = s.env.turns := by rw [h]; rfl
    have hs : s.dropTurn = s := by rw [State.dropTurn, htail]
    rw [hs]
    simp [step, turnStep, h]
  · simp [step, turnStep, h]

theorem step_of_envTurn {s : State} {m : Move} {rest : List Turn} (h : s.env.turns = .env m :: rest) :
    step s = .next (s.dropTurn.environmentMove m) := by
  simp [step, turnStep, h]

/-- Taking a turn from the list is invisible to the invariant. -/
theorem Inv.dropTurn {s : State} (h : Inv s) : Inv s.dropTurn where
  bus := h.bus
  exclusive := h.exclusive
  resting := h.resting
  running hb := by
    rcases h.running hb with ho | ⟨i, hl, hi⟩
    · exact .inl ho
    · exact .inr ⟨i, hl, by cases i <;> exact hi⟩
  buffer := h.buffer
  unclassified := h.unclassified
  byteMode := h.byteMode
  lineMode := h.lineMode
  memory := h.memory

/-! ## Moves of the environment -/

theorem State.environmentMove_of_ne {m : Move} (s : State) (hm : m ≠ .assertReset) :
    s.environmentMove m = { s with env := s.env.move s.busOwned m } := by
  cases m with
  | assertReset => exact absurd rfl hm
  | _ => rfl

@[simp] theorem Env.move_turns (e : Env) (owned : Bool) (m : Move) : (e.move owned m).turns = e.turns := by
  cases m <;> rfl

theorem Env.move_offers (e : Env) (owned : Bool) {m : Move} (hm : ∀ c, m ≠ .offer c) :
    (e.move owned m).offers = e.offers := by
  cases m with
  | offer c => exact absurd rfl (hm c)
  | _ => rfl

/-! ## A step of `SEQ` -/

/-- Everything a step of `SEQ` can do. -/
theorem seqStep_cases {s t : State} (h : seqStep s = .next t) :
    ((s.env.resetLine = true ∨ (s.busy = false ∧ s.env.offers = [])) ∧ t = s) ∨
    (s.busy = true ∧ s.point = .owe .illegalCommand ∧ t = s.raise .illegalCommand) ∨
    (s.busy = true ∧ s.point ≠ .owe .illegalCommand ∧ ∃ i, s.latched = .ok i ∧ exec i s = .next t) ∨
    (s.busy = false ∧ ∃ c rest, s.env.offers = c :: rest ∧
      ((∃ i, decode s.cfg.mode c.word c.payload = .ok i ∧ exec i (s.accept c) = .next t) ∨
       (∃ r, decode s.cfg.mode c.word c.payload = .error r ∧ t = (s.accept c).owe .illegalCommand))) := by
  unfold seqStep at h
  split at h
  · next hr => exact .inl ⟨.inl hr, (Host.Outcome.next.inj h).symm⟩
  split at h
  · next hb =>
    unfold State.continueStep at h
    split at h
    · next hp => exact .inr (.inl ⟨hb, hp, (Host.Outcome.next.inj h).symm⟩)
    · next hp =>
      split at h
      · next i hl => exact .inr (.inr (.inl ⟨hb, hp, i, hl, h⟩))
      · cases h
  · next hb =>
    have hb : s.busy = false := by simpa using hb
    unfold State.acceptStep at h
    split at h
    · next ho => exact .inl ⟨.inr ⟨hb, ho⟩, (Host.Outcome.next.inj h).symm⟩
    · next c rest ho =>
      refine .inr (.inr (.inr ⟨hb, c, rest, ho, ?_⟩))
      split at h
      · next i hd => exact .inl ⟨i, hd, h⟩
      · next r hd => exact .inr ⟨r, hd, (Host.Outcome.next.inj h).symm⟩

/-! ## What a step of a command does to `BUSY` and to the trace -/

/-- The command ends with the `Result` it owes. -/
def Ends (s t : State) : Prop := ∃ st value data, s.point = .owe st ∧ t = s.finish st value data

/-- The command stays in progress, with one port event or none. -/
def GoesOn (s t : State) : Prop := t.busy = s.busy ∧ (t.trace = s.trace ∨ ∃ e, t.trace = s.trace ++ [e])

theorem GoesOn.quiet {s t : State} (hb : t.busy = s.busy) (ht : t.trace = s.trace) : GoesOn s t := ⟨hb, .inl ht⟩

theorem GoesOn.event {s t : State} (e : Event) (hb : t.busy = s.busy) (ht : t.trace = s.trace ++ [e]) : GoesOn s t :=
  ⟨hb, .inr ⟨e, ht⟩⟩

/-- What a command does without a port event, once this one is over, matters to neither. -/
theorem GoesOn.then {s u t : State} (h : GoesOn s u) (hb : t.busy = u.busy) (ht : t.trace = u.trace) : GoesOn s t := by
  unfold GoesOn at h ⊢
  rwa [hb, ht]

theorem Ends.owed {s : State} {st : Status} (hp : s.point = .owe st) (value : Byte) (data : List Byte) :
    Ends s (s.finish st value data) := ⟨st, value, data, hp, rfl⟩

theorem busStep_goesOn {wire : Byte} {tx : List Byte} {c : Capture} {released : State → State} {s t : State}
    (h : busStep wire tx c released s = .next t)
    (hr : ∀ u, (released u).busy = u.busy ∧ (released u).trace = u.trace) : GoesOn s t := by
  rcases busStep_cases h with ⟨-, -, rfl⟩ | ⟨-, -, rfl⟩ | ⟨-, rfl⟩ | ⟨-, -, rfl⟩ | ⟨-, -, rfl⟩ | ⟨-, b, -, rfl⟩ |
    ⟨-, rfl⟩ | ⟨-, rfl⟩
  · exact .quiet rfl rfl
  · exact .event _ rfl rfl
  · exact .event _ rfl rfl
  · exact .event _ rfl rfl
  · exact .event _ rfl rfl
  · exact .event _ (by cases c <;> rfl) rfl
  · exact .event _ rfl rfl
  · exact .event _ (hr _).1 (hr _).2

theorem State.toSend_busy (payload term : List Byte) (s : State) : (s.toSend payload term).busy = s.busy := by
  rcases s.toSend_cases payload term with ⟨-, e⟩ | ⟨-, -, e⟩ | ⟨-, -, e⟩ <;> rw [e]

theorem State.receive_busy (b : Byte) (s : State) : (s.receive b).busy = s.busy := by
  rcases s.receive_cases b with ⟨-, e⟩ | ⟨-, e⟩ | ⟨-, e⟩ <;> rw [e]

theorem GoesOn.toSend {s u : State} (payload term : List Byte) (h : GoesOn s u) : GoesOn s (u.toSend payload term) :=
  h.then (State.toSend_busy _ _ _) (State.toSend_env_trace _ _ _).2

theorem GoesOn.receive {s u : State} (b : Byte) (h : GoesOn s u) : GoesOn s (u.receive b) :=
  h.then (State.receive_busy _ _) (State.receive_env_trace _ _).2

theorem flushAvailStep_goesOn {drained : State → State} {s t : State} (h : flushAvailStep drained s = .next t)
    (hd : ∀ u, (drained u).busy = u.busy ∧ (drained u).trace = u.trace) : GoesOn s t := by
  rcases flushAvailStep_cases h with ⟨-, rfl⟩ | ⟨-, rfl⟩
  · exact .event _ (hd _).1 (hd _).2
  · exact .event _ rfl rfl

theorem flushReadStep_goesOn {s t : State} (h : flushReadStep s = .next t) : GoesOn s t := by
  obtain ⟨b, rest, -, rfl⟩ := flushReadStep_cases h
  exact .event _ rfl rfl

theorem fieldStart_goesOn (msb lsb : Byte) (s : State) : GoesOn s (fieldStart msb lsb s) := by
  rcases fieldStart_cases msb lsb s with ⟨-, e⟩ | ⟨-, e⟩ <;> rw [e] <;> exact .quiet rfl rfl

theorem setbfWindow_goesOn (win : Half) (s : State) : GoesOn s (setbfWindow win s) := by
  rcases setbfWindow_cases win s with ⟨-, -, e⟩ | ⟨-, -, e⟩ | ⟨-, e⟩ <;> rw [e] <;> exact .event _ rfl rfl

theorem exchangeStep_endsOrGoesOn {payload : List Byte} {s t : State} (h : exchangeStep payload s = .next t) :
    Ends s t ∨ GoesOn s t := by
  rcases exchangeStep_cases h with ⟨-, -, rfl⟩ | ⟨-, -, h⟩ | ⟨-, -, h⟩ | ⟨-, b, rest, -, rfl⟩ | ⟨-, b, rest, -, rfl⟩ |
    ⟨-, -, rfl⟩ | ⟨-, -, h⟩ | ⟨-, -, h⟩ | ⟨-, -, h⟩ | ⟨-, b, -, rfl⟩ | ⟨-, hp, rfl⟩ | ⟨-, hp, rfl⟩
  · exact .inr (.quiet rfl rfl)
  · exact .inr (flushAvailStep_goesOn h fun u => ⟨State.toSend_busy _ _ u, (State.toSend_env_trace _ _ u).2⟩)
  · exact .inr (flushReadStep_goesOn h)
  · exact .inr (.toSend _ _ (.event _ rfl rfl))
  · exact .inr (.toSend _ _ (.event _ rfl rfl))
  · exact .inr (.event _ rfl rfl)
  · rcases awaitWindowStep_cases h with ⟨-, rfl⟩ | ⟨-, rfl⟩ <;> exact .inr (.event _ rfl rfl)
  · rcases awaitPollStep_cases h with ⟨-, rfl⟩ | ⟨-, rfl⟩ <;> exact .inr (.event _ rfl rfl)
  · obtain ⟨b, rest, -, ⟨-, rfl⟩ | ⟨-, rfl⟩⟩ := awaitReadStep_cases h
    · exact .inr (.event _ rfl rfl)
    · exact .inr (.receive _ (.event (.rdByte b) rfl rfl))
  · exact .inr (.receive _ (.event _ rfl rfl))
  · exact .inl (.owed hp _ _)
  · exact .inl (.owed hp _ _)

/-- Every step of every command either delivers the owed `Result` or goes on with at most one port event. -/
theorem exec_endsOrGoesOn {i : Instr} {s t : State} (h : exec i s = .next t) : Ends s t ∨ GoesOn s t := by
  cases i with
  | rdreg addr =>
    rcases execRdreg_cases h with ⟨-, -, rfl⟩ | ⟨-, -, h⟩ | ⟨-, hp, b, rest, -, rfl⟩
    · exact .inr (.quiet rfl rfl)
    · exact .inr (busStep_goesOn h fun _ => ⟨rfl, rfl⟩)
    · exact .inl (.owed hp _ _)
  | wrreg addr byte =>
    rcases execWrreg_cases h with ⟨-, -, rfl⟩ | ⟨-, -, h⟩ | ⟨-, hp, rfl⟩
    · exact .inr (.quiet rfl rfl)
    · exact .inr (busStep_goesOn h fun _ => ⟨rfl, rfl⟩)
    · exact .inl (.owed hp _ _)
  | rdburst addr count =>
    rcases execRdburst_cases h with ⟨-, -, rfl⟩ | ⟨-, -, h⟩ | ⟨-, hp, rfl⟩
    · exact .inr (.quiet rfl rfl)
    · exact .inr (busStep_goesOn h fun _ => ⟨rfl, rfl⟩)
    · exact .inl (.owed hp _ _)
  | wrburst addr bytes =>
    rcases execWrburst_cases h with ⟨-, -, rfl⟩ | ⟨-, -, h⟩ | ⟨-, hp, rfl⟩
    · exact .inr (.quiet rfl rfl)
    · exact .inr (busStep_goesOn h fun _ => ⟨rfl, rfl⟩)
    · exact .inl (.owed hp _ _)
  | getbf addr msb lsb =>
    rcases execGetbf_cases h with ⟨-, -, rfl⟩ | ⟨-, hp, rfl⟩ | ⟨-, -, h⟩ | ⟨-, hp, rfl⟩
    · exact .inr (fieldStart_goesOn msb lsb s)
    · exact .inl (.owed hp _ _)
    · exact .inr (busStep_goesOn h fun _ => ⟨rfl, rfl⟩)
    · exact .inl (.owed hp _ _)
  | setbf addr value msb lsb win =>
    rcases execSetbf_cases h with ⟨-, -, rfl⟩ | ⟨-, hp, rfl⟩ | ⟨-, -, h⟩ | ⟨-, -, h⟩ | ⟨-, -, rfl⟩ | ⟨-, -, rfl⟩ |
      ⟨-, -, h⟩ | ⟨-, -, rfl⟩ | ⟨-, hp, rfl⟩ | ⟨-, hp, rfl⟩
    · exact .inr (fieldStart_goesOn msb lsb s)
    · exact .inl (.owed hp _ _)
    · exact .inr (busStep_goesOn h fun _ => ⟨rfl, rfl⟩)
    · exact .inr (busStep_goesOn h fun _ => ⟨rfl, rfl⟩)
    · exact .inr (.event _ rfl rfl)
    · exact .inr (setbfWindow_goesOn win s)
    · exact .inr (busStep_goesOn h fun u => by rcases setbfCompare_cases u with ⟨-, e⟩ | ⟨-, e⟩ <;> simp [e])
    · exact .inr (.event _ rfl rfl)
    · exact .inl (.owed hp _ _)
    · exact .inl (.owed hp _ _)
  | flush =>
    rcases execFlush_cases h with ⟨-, -, rfl⟩ | ⟨-, -, h⟩ | ⟨-, -, h⟩ | ⟨-, hp, rfl⟩
    · exact .inr (.quiet rfl rfl)
    · exact .inr (flushAvailStep_goesOn h fun _ => ⟨rfl, rfl⟩)
    · exact .inr (flushReadStep_goesOn h)
    · exact .inl (.owed hp _ _)
  | sendcmd text => exact exchangeStep_endsOrGoesOn h
  | senddata bytes => exact exchangeStep_endsOrGoesOn h

/-- One port event or none, whether the command ends or not. -/
theorem exec_trace {i : Instr} {s t : State} (h : exec i s = .next t) :
    t.trace = s.trace ∨ ∃ e, t.trace = s.trace ++ [e] := by
  rcases exec_endsOrGoesOn h with ⟨st, value, data, -, rfl⟩ | ⟨-, ht⟩
  · exact .inr ⟨_, State.finish_trace ..⟩
  · exact ht

/-! ## Where a command goes on -/

/-- Every command starts at its head, and without a port event. -/
theorem exec_of_atStart (i : Instr) {s : State} (h : AtStart s) : ∃ t, exec i s = .next t ∧ t.trace = s.trace := by
  obtain ⟨hr, hl, hp⟩ := h
  have hfield : ∀ msb lsb, (fieldStart msb lsb s).trace = s.trace := fun msb lsb => by
    rcases fieldStart_cases msb lsb s with ⟨-, e⟩ | ⟨-, e⟩ <;> rw [e]
  cases i with
  | rdreg addr => simp [exec, execRdreg, hr, hp]
  | wrreg addr byte => simp [exec, execWrreg, hr, hp]
  | rdburst addr count => simp [exec, execRdburst, hr, hp]
  | wrburst addr bytes => simp [exec, execWrburst, hr, hp]
  | getbf addr msb lsb => simp [exec, execGetbf, hr, hp, hfield]
  | setbf addr value msb lsb win => simp [exec, execSetbf, hr, hp, hfield]
  | flush => simp [exec, execFlush, hl, hp]
  | sendcmd text => simp [exec, execSendcmd, exchangeStep, hl, hp]
  | senddata bytes => simp [exec, execSenddata, exchangeStep, hl, hp]

theorem InTxn.point {n : Nat} {s : State} (h : InTxn n s) : s.point = .txn := h.1

theorem readStep_next {addr : Byte} {n : Nat} {c : Capture} {released : State → State} {s : State} (h : InTxn n s) :
    ∃ t, readStep addr n c released s = .next t :=
  busStep_next (by simpa [fillers] using h)

theorem writeStep_next {addr : Byte} {v : List Byte} {released : State → State} {s : State} (h : InTxn v.length s) :
    ∃ t, writeStep addr v released s = .next t :=
  busStep_next h

theorem flushReadStep_next {s : State} (h : s.env.channel.inbound ≠ []) : ∃ t, flushReadStep s = .next t := by
  obtain ⟨b, rest, hq⟩ := List.exists_cons_of_ne_nil h
  simp [flushReadStep, Env.rdByte, hq]

theorem awaitReadStep_next {s : State} (h : s.env.channel.inbound ≠ []) : ∃ t, awaitReadStep s = .next t := by
  obtain ⟨b, rest, hq⟩ := List.exists_cons_of_ne_nil h
  simp [awaitReadStep, Env.rdByte, hq]

theorem execRdreg_next {addr : Byte} {s : State} (h : InPlain 1 s) (hx : s.rxdata.length = capturedCount 1 s) :
    ∃ t, execRdreg addr s = .next t := by
  obtain ⟨hr, -, hin | ⟨hp, hn⟩⟩ := h
  · simpa only [execRdreg, hr, hin.point] using readStep_next hin
  · have hone : s.rxdata.length = 1 := by simpa [capturedCount, hn] using hx
    obtain ⟨b, hb⟩ := List.length_eq_one_iff.mp hone
    simp [execRdreg, hr, hp, hb]

theorem execWrreg_next {addr byte : Byte} {s : State} (h : InPlain 1 s) : ∃ t, execWrreg addr byte s = .next t := by
  obtain ⟨hr, -, hin | ⟨hp, -⟩⟩ := h
  · simpa only [execWrreg, hr, hin.point] using writeStep_next (v := [byte]) hin
  · simp [execWrreg, hr, hp]

theorem execRdburst_next {addr : Byte} {count : Half} {s : State} (h : InPlain count.toNat s) :
    ∃ t, execRdburst addr count s = .next t := by
  obtain ⟨hr, -, hin | ⟨hp, -⟩⟩ := h
  · simpa only [execRdburst, hr, hin.point] using readStep_next hin
  · simp [execRdburst, hr, hp]

theorem execWrburst_next {addr : Byte} {bytes : List Byte} {s : State} (h : InPlain bytes.length s) :
    ∃ t, execWrburst addr bytes s = .next t := by
  obtain ⟨hr, -, hin | ⟨hp, -⟩⟩ := h
  · simpa only [execWrburst, hr, hin.point] using writeStep_next hin
  · simp [execWrburst, hr, hp]

theorem execGetbf_next {addr msb lsb : Byte} {s : State} (h : InGetbf msb lsb s) :
    ∃ t, execGetbf addr msb lsb s = .next t := by
  rcases h with ⟨-, hr, -, hp, -⟩ | ⟨-, hr, -, hin | ⟨⟨hp, -⟩, -⟩⟩
  · simp [execGetbf, hr, hp]
  · simpa only [execGetbf, hr, hin.point] using readStep_next hin
  · simp [execGetbf, hr, hp]

theorem execSetbf_next {addr value msb lsb : Byte} {win : Half} {s : State} (h : InSetbf value msb lsb s) :
    ∃ t, execSetbf addr value msb lsb win s = .next t := by
  rcases h with ⟨-, hr, -, hp, -⟩ | ⟨-, -, ⟨hr, hin⟩ | ⟨-, -, ⟨hr, hin | ⟨hp, -⟩⟩ |
    ⟨hr, hin | ⟨hp, -⟩ | ⟨hp, -⟩ | ⟨⟨hp, -⟩, -⟩ | ⟨hp, -⟩⟩⟩⟩
  · simp [execSetbf, hr, hp]
  · simpa only [execSetbf, hr, hin.point] using readStep_next hin
  · simpa only [execSetbf, hr, hin.point] using writeStep_next (v := [s.new]) hin
  · simp [execSetbf, hr, hp]
  · simpa only [execSetbf, hr, hin.point] using readStep_next hin
  · simp [execSetbf, hr, hp]
  · simp [execSetbf, hr, hp]
  · simp [execSetbf, hr, hp]
  · simp [execSetbf, hr, hp]

theorem execFlush_next {s : State} (h : InFlush s) : ∃ t, execFlush s = .next t := by
  obtain ⟨-, hl, -, hp | ⟨hp, hq⟩ | hp⟩ := h
  · simp [execFlush, hl, hp, flushAvailStep]
  · simpa only [execFlush, hl, hp] using flushReadStep_next hq
  · simp [execFlush, hl, hp]

theorem exchangeStep_next {payload : List Byte} {s : State} (h : InExchange s) :
    ∃ t, exchangeStep payload s = .next t := by
  obtain ⟨-, -, ⟨hl, hp | ⟨hp, hq⟩ | ⟨b, rest, hp⟩ | ⟨b, rest, hp⟩⟩ | ⟨hl, hp | hp | hp | ⟨hp, hq⟩ | ⟨b, hp⟩⟩ | ⟨hl, hp⟩ |
    ⟨hl, hp⟩⟩ := h
  · simp [exchangeStep, hl, hp, flushAvailStep]
  · simpa only [exchangeStep, hl, hp] using flushReadStep_next hq
  · simp [exchangeStep, hl, hp]
  · simp [exchangeStep, hl, hp]
  · simp [exchangeStep, hl, hp]
  · simp [exchangeStep, hl, hp, awaitWindowStep]
  · simp [exchangeStep, hl, hp, awaitPollStep]
  · simpa only [exchangeStep, hl, hp] using awaitReadStep_next hq
  · simp [exchangeStep, hl, hp]
  · simp [exchangeStep, hl, hp]
  · simp [exchangeStep, hl, hp]

/-- At every point of its rule a command has a next step. -/
theorem exec_next_of_inSequence {i : Instr} {s : State} (h : InSequence i s) : ∃ t, exec i s = .next t := by
  cases i with
  | rdreg addr => exact execRdreg_next h.1 h.2
  | wrreg addr byte => exact execWrreg_next h
  | rdburst addr count => exact execRdburst_next h.1
  | wrburst addr bytes => exact execWrburst_next h
  | getbf addr msb lsb => exact execGetbf_next h
  | setbf addr value msb lsb win => exact execSetbf_next h
  | flush => exact execFlush_next h
  | sendcmd text => exact exchangeStep_next h
  | senddata bytes => exact exchangeStep_next h

/-- From a state that meets the invariant `SEQ` has a next step. -/
theorem seqStep_next {s : State} (h : Inv s) : ∃ t, seqStep s = .next t := by
  unfold seqStep
  split
  · exact ⟨_, rfl⟩
  split
  · next hb =>
    unfold State.continueStep
    rcases h.running hb with ⟨-, -, hp, -⟩ | ⟨i, hl, hi⟩
    · simp [hp]
    · split
      · exact ⟨_, rfl⟩
      · simpa only [hl] using exec_next_of_inSequence hi
  · next hb =>
    obtain ⟨hstart, -⟩ := h.resting (by simpa using hb)
    unfold State.acceptStep
    split
    · exact ⟨_, rfl⟩
    · next c rest ho =>
      split
      · next i hd =>
        obtain ⟨t, ht, -⟩ := exec_of_atStart i (s := s.accept c) hstart
        exact ⟨t, ht⟩
      · exact ⟨_, rfl⟩

/-- Settles O51: a move of the environment always has an outcome, and `SEQ` stands at a point of the command's rule. -/
theorem stepNeverStops : Obligations.StepNeverStops := by
  intro s hi
  rcases seqTurn_or_envTurn s with hs | ⟨m, rest, hm⟩
  · rw [step_of_seqTurn hs]
    exact seqStep_next hi.dropTurn
  · exact ⟨_, step_of_envTurn hm⟩

/-! ## The events of a step -/

/-- From a state that meets the invariant a step of `SEQ` adds at most one event: the start behind a `CmdAccept` has none. -/
theorem seqStep_trace {s t : State} (hi : Inv s) (h : seqStep s = .next t) :
    t.trace = s.trace ∨ ∃ e, t.trace = s.trace ++ [e] := by
  rcases seqStep_cases h with ⟨-, rfl⟩ | ⟨-, -, rfl⟩ | ⟨-, -, i, -, he⟩ | ⟨hb, c, rest, -, ⟨i, -, he⟩ | ⟨r, -, rfl⟩⟩
  · exact .inl rfl
  · exact .inr ⟨_, State.finish_trace ..⟩
  · exact exec_trace he
  · obtain ⟨hstart, -⟩ := hi.resting hb
    obtain ⟨u, hu, htrace⟩ := exec_of_atStart i (s := s.accept c) hstart
    obtain rfl := Host.Outcome.next.inj (hu.symm.trans he)
    exact .inr ⟨_, htrace⟩
  · exact .inr ⟨_, rfl⟩

/-- Settles O54: a step of `SEQ` adds at most one event, a move of the environment but reset none. -/
theorem stepsAppendAtMostOneEvent : Obligations.StepsAppendAtMostOneEvent := by
  intro s t hi hreset h
  rcases seqTurn_or_envTurn s with hs | ⟨m, rest, hm⟩
  · rw [step_of_seqTurn hs] at h
    simpa using seqStep_trace hi.dropTurn h
  · have hne : m ≠ .assertReset := by rintro rfl; simp [hm] at hreset
    rw [step_of_envTurn hm, State.environmentMove_of_ne _ hne] at h
    obtain rfl := Host.Outcome.next.inj h
    exact .inl rfl

/-! ## The bus at the end of a command -/

/-- At a point of its rule a command is inside a transaction only where the next event is one of the bus. -/
theorem InSequence.txnStep_none {i : Instr} {s : State} (h : InSequence i s) (hp : s.point ≠ .txn) :
    s.txnStep = .none := by
  have hout : ∀ n, ¬ InTxn n s := fun n hin => hp hin.point
  have hplain : ∀ n, InPlain n s → s.txnStep = .none := by
    rintro n ⟨-, -, hin | ⟨-, hn⟩⟩
    · exact absurd hin (hout n)
    · exact hn
  cases i with
  | rdreg addr => exact hplain _ h.1
  | wrreg addr byte => exact hplain _ h
  | rdburst addr count => exact hplain _ h.1
  | wrburst addr bytes => exact hplain _ h
  | getbf addr msb lsb =>
    rcases h with ⟨-, -, -, -, hn⟩ | ⟨-, -, -, hin | ⟨⟨-, hn⟩, -⟩⟩
    · exact hn
    · exact absurd hin (hout 1)
    · exact hn
  | setbf addr value msb lsb win =>
    rcases h with ⟨-, -, -, -, hn⟩ | ⟨-, -, ⟨-, hin⟩ | ⟨-, -, ⟨-, hin | ⟨-, hn⟩⟩ |
      ⟨-, hin | ⟨-, hn⟩ | ⟨-, hn⟩ | ⟨⟨-, hn⟩, -⟩ | ⟨-, hn⟩⟩⟩⟩
    · exact hn
    · exact absurd hin (hout 1)
    · exact absurd hin (hout 1)
    · exact hn
    · exact absurd hin (hout 1)
    · exact hn
    · exact hn
    · exact hn
    · exact hn
  | flush =>
    obtain ⟨-, -, hn, -⟩ := h
    exact hn
  | sendcmd text | senddata bytes =>
    obtain ⟨-, hn, -⟩ := h
    exact hn

/-- Outside a transaction the bus is free. -/
theorem Inv.bus_free {s : State} (h : Inv s) (hp : s.point ≠ .txn) : s.busOwned = false ∧ s.sel = .inactive := by
  have hn : s.txnStep = .none := by
    cases hb : s.busy with
    | false => exact (h.resting hb).2
    | true =>
      rcases h.running hb with ⟨-, -, -, hn⟩ | ⟨i, -, hs⟩
      · exact hn
      · exact hs.txnStep_none hp
  simpa [BusAgrees, hn] using h.bus

/-- The step of `SEQ` that clears `BUSY` delivers the `Result` that is owed. -/
theorem seqStep_ends {s t : State} (h : seqStep s = .next t) (hs : s.busy = true) (ht : t.busy = false) : Ends s t := by
  rcases seqStep_cases h with ⟨-, rfl⟩ | ⟨-, hp, rfl⟩ | ⟨-, -, i, -, he⟩ | ⟨hb, -⟩
  · simp [hs] at ht
  · exact .owed hp _ _
  · rcases exec_endsOrGoesOn he with hend | ⟨hb, -⟩
    · exact hend
    · simp [hb, hs] at ht
  · simp [hb] at hs

/-! ## The end of a run -/

/-- A list of turns that offers nothing still offers nothing without its first. -/
theorem Final.dropTurn {s : State} (h : Final s) : Final s.dropTurn := by
  obtain ⟨hb, ho, hturns⟩ := h
  exact ⟨hb, ho, fun c hc => hturns c (List.mem_of_mem_tail hc)⟩

/-- Where the run has ended `SEQ` waits. -/
theorem seqStep_of_final {s t : State} (hf : Final s) (h : seqStep s = .next t) : t = s := by
  obtain ⟨hb, ho, -⟩ := hf
  rcases seqStep_cases h with ⟨-, ht⟩ | ⟨hb', -⟩ | ⟨hb', -⟩ | ⟨-, c, rest, ho', -⟩
  · exact ht
  · simp [hb] at hb'
  · simp [hb] at hb'
  · simp [ho] at ho'

/-- Reset of a machine at rest owes no release. -/
theorem State.assertReset_trace_of_free {s : State} (ho : s.busOwned = false) (hs : s.sel = .inactive) :
    s.assertReset.trace = s.trace := by
  simp [State.assertReset, ho, hs]

/-- A move that offers nothing keeps the end of a run. -/
theorem environmentMove_of_final {s : State} {m : Move} (hi : Inv s) (hf : Final s) (hm : ∀ c, m ≠ .offer c) :
    Final (s.environmentMove m) ∧ (s.environmentMove m).trace = s.trace := by
  obtain ⟨hb, ho, hturns⟩ := hf
  by_cases hr : m = .assertReset
  · subst hr
    obtain ⟨⟨-, -, hp⟩, -⟩ := hi.resting hb
    obtain ⟨hbus, hsel⟩ := hi.bus_free (by simp [hp])
    exact ⟨⟨rfl, ho, hturns⟩, State.assertReset_trace_of_free hbus hsel⟩
  · rw [State.environmentMove_of_ne s hr]
    exact ⟨⟨hb, by simpa [Env.move_offers _ _ hm] using ho, by simpa using hturns⟩, rfl⟩

/-- Settles O58: `BUSY` is cleared by the owed `Result` alone, which comes outside every transaction; behind the last command
`SEQ` waits and no move but an offer changes that. -/
theorem commandsEndWithTheBusFree : Obligations.CommandsEndWithTheBusFree := by
  constructor
  · intro s t hi hturn h hs ht
    rw [step_of_seqTurn hturn] at h
    obtain ⟨st, value, data, hp, rfl⟩ := seqStep_ends h hs ht
    obtain ⟨hbus, hsel⟩ := hi.dropTurn.bus_free (by rw [hp]; nofun)
    exact ⟨hbus, hsel, hbus, hsel, st, value, data, rfl⟩
  · intro s t hi hf h
    rcases seqTurn_or_envTurn s with hs | ⟨m, rest, hm⟩
    · rw [step_of_seqTurn hs] at h
      obtain rfl := seqStep_of_final hf.dropTurn h
      exact ⟨hf.dropTurn, rfl⟩
    · have hoffer : ∀ c, m ≠ .offer c := by
        rintro c rfl
        obtain ⟨-, -, hturns⟩ := hf
        exact hturns c (by simp [hm])
      rw [step_of_envTurn hm] at h
      obtain rfl := Host.Outcome.next.inj h
      exact environmentMove_of_final hi.dropTurn hf.dropTurn hoffer

end Sys2Proof.Machine
end

/-! # Proofs: what a step of a command leaves alone

A register command reaches the byte bus and its own working registers (`SameOffByteEngine`), a line command the serial channel
(`SameButLine`); what both leave alone, the command in progress and the caller, is `SameCommand`. -/

section

namespace Sys2Proof.Machine

open Sys2Proof

/-! ## Register commands -/

/-- What no step of a register command touches. -/
structure SameOffByteEngine (s t : State) : Prop where
  latches : SameLatches s t
  cfg     : t.cfg = s.cfg
  offBus  : SameOffBus s t
  line    : LineRestsOrEnds s t

/-- What no step of a plain register command touches, `RXDATA` apart. -/
structure PlainFrame (s t : State) : Prop extends SameOffByteEngine s t where
  cur  : t.cur = s.cur
  mask : t.mask = s.mask
  new  : t.new = s.new
  last : t.last = s.last
  t0   : t.t0 = s.t0

/-- What no step of a bit-field command touches. -/
structure FieldFrame (s t : State) : Prop extends SameOffByteEngine s t where
  rxdata : t.rxdata = s.rxdata

/-- The registers that `SETBF` alone of the bit-field commands writes. -/
def SameSetbfRegisters (s t : State) : Prop := t.new = s.new ∧ t.last = s.last ∧ t.t0 = s.t0

/-- A state that has the same latches, handle and line engine, and the same environment off the bus. -/
theorem SameOffByteEngine.of_same {s t : State} (hl : SameLatches s t) (hc : t.cfg = s.cfg) (he : SameOffBus s t)
    (hlp : t.lpState = s.lpState) (hr : t.rbuf = s.rbuf) (hb : t.busy = s.busy) : SameOffByteEngine s t :=
  ⟨hl, hc, he, .inl ⟨hlp, hr, hb⟩⟩

theorem SameLatches.refl (s : State) : SameLatches s s := ⟨rfl, rfl, rfl, rfl, rfl, rfl, rfl⟩

theorem SameOffBus.refl (s : State) : SameOffBus s s := ⟨rfl, rfl, rfl, rfl, rfl⟩

theorem SameOffByteEngine.refl (s : State) : SameOffByteEngine s s := .of_same (.refl s) rfl (.refl s) rfl rfl rfl

theorem SameButBus.off {c : Capture} {s t : State} (h : SameButBus c s t) : SameOffByteEngine s t :=
  .of_same h.latches h.cfg h.offBus h.lpState h.rbuf h.busy

theorem SameOffByteEngine.finish (st : Status) (v : Byte) (d : List Byte) (s : State) :
    SameOffByteEngine s (s.finish st v d) :=
  ⟨.refl s, rfl, .refl s, .inr ⟨rfl, rfl, rfl⟩⟩

theorem PlainFrame.finish (st : Status) (v : Byte) (d : List Byte) (s : State) : PlainFrame s (s.finish st v d) :=
  ⟨.finish st v d s, rfl, rfl, rfl, rfl, rfl⟩

theorem FieldFrame.finish (st : Status) (v : Byte) (d : List Byte) (s : State) : FieldFrame s (s.finish st v d) :=
  ⟨.finish st v d s, rfl⟩

/-- A bus step that captures no byte of a bit field. -/
theorem busStep_plainFrame {wire : Byte} {tx : List Byte} {c : Capture} {s t : State}
    (h : busStep wire tx c (State.owe .ok) s = .next t) (hcur : c ≠ .cur) (hlast : c ≠ .last) : PlainFrame s t := by
  rcases busStep_frame h with hf | ⟨-, rfl⟩
  · exact ⟨hf.off, hf.cur hcur, hf.mask, hf.new, hf.last hlast, hf.t0⟩
  · exact ⟨{ SameOffByteEngine.refl s with }, rfl, rfl, rfl, rfl, rfl⟩

theorem busStep_discard_rxdata {wire : Byte} {tx : List Byte} {s t : State}
    (h : busStep wire tx .discard (State.owe .ok) s = .next t) : t.rxdata = s.rxdata := by
  rcases busStep_frame h with hf | ⟨-, rfl⟩
  · exact hf.rxdata nofun
  · rfl

/-- A bus step that captures a byte of a bit field, with what the command does at the release. -/
theorem busStep_fieldFrame {wire : Byte} {tx : List Byte} {c : Capture} {released : State → State} {s t : State}
    (h : busStep wire tx c released s = .next t) (hc : c ≠ .rxdata) (hr : ∀ u, FieldFrame u (released u)) :
    FieldFrame s t := by
  rcases busStep_frame h with hf | ⟨-, rfl⟩
  · exact ⟨hf.off, hf.rxdata hc⟩
  · exact { hr _ with }

theorem fieldStart_fieldFrame (msb lsb : Byte) (s : State) : FieldFrame s (fieldStart msb lsb s) := by
  rcases fieldStart_cases msb lsb s with ⟨-, e⟩ | ⟨-, e⟩ <;> rw [e] <;> exact ⟨{ SameOffByteEngine.refl s with }, rfl⟩

theorem setbfWindow_fieldFrame (win : Half) (s : State) : FieldFrame s (setbfWindow win s) := by
  rcases setbfWindow_cases win s with ⟨-, -, e⟩ | ⟨-, -, e⟩ | ⟨-, e⟩ <;> rw [e] <;>
    exact ⟨{ SameOffByteEngine.refl s with }, rfl⟩

theorem setbfCompare_fieldFrame (s : State) : FieldFrame s (setbfCompare s) := by
  rcases setbfCompare_cases s with ⟨-, e⟩ | ⟨-, e⟩ <;> rw [e] <;> exact ⟨{ SameOffByteEngine.refl s with }, rfl⟩

theorem execRdreg_frame {addr : Byte} {s t : State} (h : execRdreg addr s = .next t) : PlainFrame s t := by
  rcases execRdreg_cases h with ⟨-, -, rfl⟩ | ⟨-, -, h⟩ | ⟨-, -, b, rest, -, rfl⟩
  · exact ⟨{ SameOffByteEngine.refl s with }, rfl, rfl, rfl, rfl, rfl⟩
  · exact busStep_plainFrame h nofun nofun
  · exact .finish ..

theorem execRdburst_frame {addr : Byte} {count : Half} {s t : State} (h : execRdburst addr count s = .next t) :
    PlainFrame s t := by
  rcases execRdburst_cases h with ⟨-, -, rfl⟩ | ⟨-, -, h⟩ | ⟨-, -, rfl⟩
  · exact ⟨{ SameOffByteEngine.refl s with }, rfl, rfl, rfl, rfl, rfl⟩
  · exact busStep_plainFrame h nofun nofun
  · exact .finish ..

theorem execWrreg_frame {addr byte : Byte} {s t : State} (h : execWrreg addr byte s = .next t) :
    PlainFrame s t ∧ t.rxdata = s.rxdata := by
  rcases execWrreg_cases h with ⟨-, -, rfl⟩ | ⟨-, -, h⟩ | ⟨-, -, rfl⟩
  · exact ⟨⟨{ SameOffByteEngine.refl s with }, rfl, rfl, rfl, rfl, rfl⟩, rfl⟩
  · exact ⟨busStep_plainFrame h nofun nofun, busStep_discard_rxdata h⟩
  · exact ⟨.finish .., rfl⟩

theorem execWrburst_frame {addr : Byte} {bytes : List Byte} {s t : State} (h : execWrburst addr bytes s = .next t) :
    PlainFrame s t ∧ t.rxdata = s.rxdata := by
  rcases execWrburst_cases h with ⟨-, -, rfl⟩ | ⟨-, -, h⟩ | ⟨-, -, rfl⟩
  · exact ⟨⟨{ SameOffByteEngine.refl s with }, rfl, rfl, rfl, rfl, rfl⟩, rfl⟩
  · exact ⟨busStep_plainFrame h nofun nofun, busStep_discard_rxdata h⟩
  · exact ⟨.finish .., rfl⟩

theorem execGetbf_frame {addr msb lsb : Byte} {s t : State} (h : execGetbf addr msb lsb s = .next t) :
    FieldFrame s t := by
  rcases execGetbf_cases h with ⟨-, -, rfl⟩ | ⟨-, -, rfl⟩ | ⟨-, -, h⟩ | ⟨-, -, rfl⟩
  · exact fieldStart_fieldFrame msb lsb s
  · exact .finish ..
  · exact busStep_fieldFrame h nofun fun u => ⟨{ SameOffByteEngine.refl u with }, rfl⟩
  · exact .finish ..

theorem execGetbf_sameSetbfRegisters {addr msb lsb : Byte} {s t : State} (h : execGetbf addr msb lsb s = .next t) :
    SameSetbfRegisters s t := by
  rcases execGetbf_cases h with ⟨-, -, rfl⟩ | ⟨-, -, rfl⟩ | ⟨-, -, h⟩ | ⟨-, -, rfl⟩
  · rcases fieldStart_cases msb lsb s with ⟨-, e⟩ | ⟨-, e⟩ <;> rw [e] <;> exact ⟨rfl, rfl, rfl⟩
  · exact ⟨rfl, rfl, rfl⟩
  · rcases busStep_frame h with hf | ⟨-, rfl⟩
    · exact ⟨hf.new, hf.last nofun, hf.t0⟩
    · exact ⟨rfl, rfl, rfl⟩
  · exact ⟨rfl, rfl, rfl⟩

theorem execSetbf_frame {addr value msb lsb : Byte} {win : Half} {s t : State}
    (h : execSetbf addr value msb lsb win s = .next t) : FieldFrame s t := by
  rcases execSetbf_cases h with ⟨-, -, rfl⟩ | ⟨-, -, rfl⟩ | ⟨-, -, h⟩ | ⟨-, -, h⟩ | ⟨-, -, rfl⟩ | ⟨-, -, rfl⟩ |
    ⟨-, -, h⟩ | ⟨-, -, rfl⟩ | ⟨-, -, rfl⟩ | ⟨-, -, rfl⟩
  · exact fieldStart_fieldFrame msb lsb s
  · exact .finish ..
  · exact busStep_fieldFrame h nofun fun u => ⟨{ SameOffByteEngine.refl u with }, rfl⟩
  · exact busStep_fieldFrame h nofun fun u => ⟨{ SameOffByteEngine.refl u with }, rfl⟩
  · exact ⟨{ SameOffByteEngine.refl s with }, rfl⟩
  · exact setbfWindow_fieldFrame win s
  · exact busStep_fieldFrame h nofun setbfCompare_fieldFrame
  · exact ⟨{ SameOffByteEngine.refl s with }, rfl⟩
  · exact .finish ..
  · exact .finish ..

/-- Settles O45: each of the four is a start, a bus step or its `Result`. -/
theorem plainCommandsFrame : Obligations.PlainCommandsFrame := by
  intro i s t hi h
  have hframe : PlainFrame s t ∧ (i.opcode = .rdreg ∨ i.opcode = .rdburst ∨ t.rxdata = s.rxdata) := by
    cases i with
    | rdreg addr => exact ⟨execRdreg_frame h, .inl rfl⟩
    | wrreg addr byte => exact ⟨(execWrreg_frame h).1, .inr (.inr (execWrreg_frame h).2)⟩
    | rdburst addr count => exact ⟨execRdburst_frame h, .inr (.inl rfl)⟩
    | wrburst addr bytes => exact ⟨(execWrburst_frame h).1, .inr (.inr (execWrburst_frame h).2)⟩
    | getbf | setbf | flush | sendcmd | senddata => simp [Instr.opcode] at hi
  obtain ⟨hf, hrx⟩ := hframe
  exact ⟨hf.latches, hf.cur, hf.mask, hf.new, hf.last, hf.t0, hf.cfg, hf.offBus, hf.line, hrx⟩

/-- Settles O46: `GETBF` writes `CUR` and `MASK` alone, `SETBF` the other registers of the bit-field engine too. -/
theorem fieldCommandsFrame : Obligations.FieldCommandsFrame := by
  intro i s t hi h
  have hframe : FieldFrame s t ∧ (i.opcode = .setbf ∨ SameSetbfRegisters s t) := by
    cases i with
    | getbf addr msb lsb => exact ⟨execGetbf_frame h, .inr (execGetbf_sameSetbfRegisters h)⟩
    | setbf addr value msb lsb win => exact ⟨execSetbf_frame h, .inl rfl⟩
    | rdreg | wrreg | rdburst | wrburst | flush | sendcmd | senddata => simp [Instr.opcode] at hi
  obtain ⟨hf, hregs⟩ := hframe
  exact ⟨hf.latches, hf.rxdata, hf.cfg, hf.offBus, hf.line, hregs⟩

/-! ## Line commands -/

theorem SameOffLine.refl (s : State) : SameOffLine s s := ⟨rfl, rfl, rfl, rfl, rfl, rfl⟩

theorem SameButLine.refl (s : State) : SameButLine s s :=
  ⟨.refl s, rfl, rfl, rfl, rfl, rfl, rfl, .refl s, ⟨rfl, rfl, rfl⟩, .inl rfl⟩

/-- What a step of `FLUSH` leaves alone besides: the index, the sample of time and the outbound bytes. -/
def SameOutbound (s t : State) : Prop := t.idx = s.idx ∧ t.t0 = s.t0 ∧ t.env.channel.out = s.env.channel.out

/-- `Avail` of the environment changes nothing off the serial channel. -/
theorem SameOffLine.avail (s : State) : SameOffLine s { s with env := s.env.avail.2 } := by
  obtain ⟨ho, hr, hw, hd, hn, ht, -⟩ := Env.avail_frame s.env
  exact ⟨ho, hr, hw, hd, hn, ht⟩

theorem execFlush_frame {s t : State} (h : execFlush s = .next t) : SameButLine s t ∧ SameOutbound s t := by
  rcases execFlush_cases h with ⟨-, -, rfl⟩ | ⟨-, -, h⟩ | ⟨-, -, h⟩ | ⟨-, -, rfl⟩
  · exact ⟨{ SameButLine.refl s with }, rfl, rfl, rfl⟩
  · have hoff := SameOffLine.avail s
    rcases flushAvailStep_cases h with ⟨-, rfl⟩ | ⟨-, rfl⟩ <;>
      exact ⟨{ SameButLine.refl s with offLine := hoff }, rfl, rfl, rfl⟩
  · obtain ⟨b, rest, -, rfl⟩ := flushReadStep_cases h
    exact ⟨{ SameButLine.refl s with }, rfl, rfl, rfl⟩
  · exact ⟨{ SameButLine.refl s with rbPhase := .inr ⟨rfl, rfl⟩ }, rfl, rfl, rfl⟩

/-- Settles O47: the exchanges by their common step, `FLUSH` by its own four. -/
theorem lineCommandsFrame : Obligations.LineCommandsFrame := by
  intro i s t hi h
  have hframe : SameButLine s t ∧ (i.opcode ≠ .flush ∨ SameOutbound s t) := by
    cases i with
    | flush => exact ⟨(execFlush_frame h).1, .inr (execFlush_frame h).2⟩
    | sendcmd text => exact ⟨exchangeStep_frame h, .inl nofun⟩
    | senddata bytes => exact ⟨exchangeStep_frame h, .inl nofun⟩
    | rdreg | wrreg | rdburst | wrburst | getbf | setbf => simp [Instr.opcode] at hi
  obtain ⟨hf, hout⟩ := hframe
  exact ⟨hf.latches, hf.cur, hf.mask, hf.new, hf.last, hf.rxdata, hf.cfg, hf.offLine, hf.bus, hf.rbPhase, hout⟩

/-! ## Every command -/

/-- What no step of any command touches: the latches, the handle, the caller's side and the turns to come. -/
structure SameCommand (s t : State) : Prop where
  latches   : SameLatches s t
  cfg       : t.cfg = s.cfg
  offers    : t.env.offers = s.env.offers
  resetLine : t.env.resetLine = s.env.resetLine
  turns     : t.env.turns = s.env.turns

theorem SameOffByteEngine.sameCommand {s t : State} (h : SameOffByteEngine s t) : SameCommand s t := by
  obtain ⟨ho, hr, -, -, ht⟩ := h.offBus
  exact ⟨h.latches, h.cfg, ho, hr, ht⟩

theorem SameButLine.sameCommand {s t : State} (h : SameButLine s t) : SameCommand s t := by
  obtain ⟨ho, hr, -, -, -, ht⟩ := h.offLine
  exact ⟨h.latches, h.cfg, ho, hr, ht⟩

theorem exec_sameCommand {i : Instr} {s t : State} (h : exec i s = .next t) : SameCommand s t := by
  cases i with
  | rdreg addr => exact (execRdreg_frame h).sameCommand
  | wrreg addr byte => exact (execWrreg_frame h).1.sameCommand
  | rdburst addr count => exact (execRdburst_frame h).sameCommand
  | wrburst addr bytes => exact (execWrburst_frame h).1.sameCommand
  | getbf addr msb lsb => exact (execGetbf_frame h).sameCommand
  | setbf addr value msb lsb win => exact (execSetbf_frame h).sameCommand
  | flush => exact (execFlush_frame h).1.sameCommand
  | sendcmd text | senddata bytes => exact (exchangeStep_frame h).sameCommand

/-- The command in the latches is the same behind a step of a command. -/
theorem SameCommand.latched {s t : State} (h : SameCommand s t) : t.latched = s.latched := latched_congr h.latches h.cfg

end Sys2Proof.Machine
end

/-! # Proofs: the step of the machine around a command

Reset, the acceptance of a command, its start, the turns, and what a step of the machine leaves alone. -/

section

namespace Sys2Proof.Machine

open Sys2Proof

/-! ## Reset -/

/-- Settles O1: every control register is written out in the reset state. -/
theorem resetGivesTheLaunchPremises : Obligations.ResetGivesTheLaunchPremises := ⟨rfl, rfl, rfl, rfl, rfl, rfl⟩

/-- A machine at rest, its bus and its response buffer free, meets the invariant. -/
theorem Inv.of_atRest {s : State} (hs : AtStart s) (hbusy : s.busy = false) (ht : s.txnStep = .none)
    (ho : s.busOwned = false) (hsel : s.sel = .inactive) (hr : s.rbuf = []) (hm : s.env.device.canonical = true) :
    Inv s where
  bus := by simp [BusAgrees, ht, ho, hsel]
  exclusive h := by simp [ho] at h
  resting _ := ⟨hs, ht⟩
  running h := by simp [hbusy] at h
  buffer _ := hr
  unclassified := by rw [hr]; rfl
  byteMode _ := by obtain ⟨-, hl, -⟩ := hs; exact hl
  lineMode _ := by obtain ⟨hp, -, -⟩ := hs; exact ⟨hp, ht⟩
  memory := hm

/-- Reset leaves a machine at rest, whatever it interrupts. -/
theorem Inv.assertReset {s : State} (hm : s.env.device.canonical = true) : Inv s.assertReset :=
  .of_atRest ⟨rfl, rfl, rfl⟩ rfl rfl rfl rfl rfl hm

/-- Settles O2: the reset state is at rest, and the oracle beside it has no memory. -/
theorem resetSatisfiesTheInvariant : Obligations.ResetSatisfiesTheInvariant :=
  .of_atRest ⟨rfl, rfl, rfl⟩ rfl rfl rfl rfl rfl rfl

/-- Taking the listed turn. -/
theorem State.dropTurn_of_turns {s : State} {turn : Turn} {rest : List Turn} (h : s.env.turns = turn :: rest) :
    s.dropTurn = { s with env := { s.env with turns := rest } } := by
  simp [State.dropTurn, h]

/-- Settles O3: the step that asserts reset is the reset of the machine whose turn is taken. -/
theorem resetAbandonsTheCommand : Obligations.ResetAbandonsTheCommand := by
  intro s rest h
  refine ⟨s.dropTurn.assertReset, step_of_envTurn h, rfl, rfl, rfl, rfl, rfl, rfl, rfl, rfl, ?_, rfl⟩
  rw [State.dropTurn_of_turns h]
  rfl

/-! ## The step and the command -/

theorem step_of_noTurn {s : State} (h : s.env.turns = []) : step s = seqStep s := by simp [step, turnStep, h]

theorem seqStep_of_idle {s : State} (hr : s.env.resetLine = false) (hb : s.busy = false) : seqStep s = s.acceptStep := by
  simp [seqStep, hr, hb]

theorem seqStep_of_busy {s : State} (hr : s.env.resetLine = false) (hb : s.busy = true) : seqStep s = s.continueStep := by
  simp [seqStep, hr, hb]

theorem State.acceptStep_of_ok {s : State} {c : Command} {rest : List Command} {i : Instr}
    (ho : s.env.offers = c :: rest) (hd : decode s.cfg.mode c.word c.payload = .ok i) :
    s.acceptStep = exec i (s.accept c) := by
  simp [State.acceptStep, ho, hd]

theorem State.acceptStep_of_error {s : State} {c : Command} {rest : List Command} {r : IllegalReason}
    (ho : s.env.offers = c :: rest) (hd : decode s.cfg.mode c.word c.payload = .error r) :
    s.acceptStep = .next ((s.accept c).owe .illegalCommand) := by
  simp [State.acceptStep, ho, hd]

theorem State.continueStep_of_latched {s : State} {i : Instr} (hp : s.point ≠ .owe .illegalCommand)
    (hl : s.latched = .ok i) : s.continueStep = exec i s := by
  unfold State.continueStep
  split
  · next h => exact absurd h hp
  · simp [hl]

/-- Settles O5: with no turn listed a step is a step of `SEQ`, which `BUSY` and the command decide. -/
theorem stepRunsTheDecodedCommand : Obligations.StepRunsTheDecodedCommand := by
  intro s ht hr
  rw [step_of_noTurn ht]
  refine ⟨fun hb ho => ?_, fun hb c rest ho => ⟨fun i hd => ?_, fun r hd => ?_⟩, fun hb hp => ?_, fun hb hp i hl => ?_⟩
  · rw [seqStep_of_idle hr hb, State.acceptStep, ho]
  · rw [seqStep_of_idle hr hb, State.acceptStep_of_ok ho hd]
  · rw [seqStep_of_idle hr hb, State.acceptStep_of_error ho hd]
  · rw [seqStep_of_busy hr hb, State.continueStep, hp]
  · rw [seqStep_of_busy hr hb, State.continueStep_of_latched hp hl]

/-- Settles O6: the fields of the word are its bit ranges, and packing them again gives a legal word back. -/
theorem acceptLoadsTheLatches : Obligations.AcceptLoadsTheLatches := fun _ _ => ⟨rfl, fun _ => latched_of_decode⟩

/-- Settles O21: the start of each command at rest phases. -/
theorem eachCommandStarts : Obligations.EachCommandStarts := by
  rintro s ⟨hr, hl, hp⟩
  have hfield : ∀ msb lsb, validRange msb lsb = true →
      fieldStart msb lsb s = { s with rbPhase := .bfRead, txnStep := .acq, point := .txn } := by
    intro msb lsb hv
    rcases fieldStart_cases msb lsb s with ⟨-, e⟩ | ⟨hv', -⟩
    · exact e
    · simp [hv] at hv'
  refine ⟨fun addr => ?_, fun addr byte => ?_, fun addr count => ?_, fun addr bytes => ?_, fun addr msb lsb hv => ?_,
    fun addr value msb lsb win hv => ?_, ?_, fun text => ?_, fun bytes => ?_⟩
  · simp [exec, execRdreg, hr, hp, State.openTxn]
  · simp [exec, execWrreg, hr, hp, State.openTxn]
  · simp [exec, execRdburst, hr, hp, State.openTxn]
  · simp [exec, execWrburst, hr, hp, State.openTxn]
  · simp [exec, execGetbf, hr, hp, hfield msb lsb hv]
  · simp [exec, execSetbf, hr, hp, hfield msb lsb hv]
  · simp [exec, execFlush, hl, hp]
  · simp [exec, execSendcmd, exchangeStep, hl, hp]
  · simp [exec, execSenddata, exchangeStep, hl, hp]

/-! ## A whole command -/

/-- No command has a step where `IllegalCommand` is owed. -/
theorem exec_point_ne_illegal {i : Instr} {s t : State} (h : exec i s = .next t) : s.point ≠ .owe .illegalCommand := by
  intro hp
  cases i with
  | rdreg addr => simp [exec, execRdreg, hp] at h
  | wrreg addr byte => simp [exec, execWrreg, hp] at h
  | rdburst addr count => simp [exec, execRdburst, hp] at h
  | wrburst addr bytes => simp [exec, execWrburst, hp] at h
  | getbf addr msb lsb => simp [exec, execGetbf, hp] at h
  | setbf addr value msb lsb win => simp [exec, execSetbf, hp] at h
  | flush => simp [exec, execFlush, hp] at h
  | sendcmd text => simp [exec, execSendcmd, exchangeStep, hp] at h
  | senddata bytes => simp [exec, execSenddata, exchangeStep, hp] at h

/-- `SEQ` moves by itself, on the command `i` in its latches: no turn is listed and reset is released. -/
structure Alone (i : Instr) (s : State) : Prop where
  turns     : s.env.turns = []
  resetLine : s.env.resetLine = false
  latched   : s.latched = .ok i

theorem Alone.next {i : Instr} {s t : State} (h : Alone i s) (he : exec i s = .next t) : Alone i t := by
  have hs := exec_sameCommand he
  exact ⟨hs.turns.trans h.turns, hs.resetLine.trans h.resetLine, hs.latched.trans h.latched⟩

/-- While the command is in progress a step of the machine is a step of the command. -/
theorem Alone.step_next {i : Instr} {s t : State} (h : Alone i s) (hb : s.busy = true) (he : exec i s = .next t) :
    step s = .next t := by
  rw [step_of_noTurn h.turns, seqStep_of_busy h.resetLine hb,
    State.continueStep_of_latched (exec_point_ne_illegal he) h.latched, he]

theorem run_succ {s t : State} (k : Nat) (h : step s = .next t) :
    Host.Core.run Sys2Proof.core (k + 1) s = Host.Core.run Sys2Proof.core k t := by
  have hcore : Sys2Proof.core.step s = .next t := h
  simp only [Host.Core.run, hcore]

/-- The steps of a command in progress are steps of the machine. -/
theorem Alone.run {i : Instr} {k : Nat} {s t : State} (h : Alone i s)
    (hb : ∀ j < k, ∃ u, execFor i j s = .next u ∧ u.busy = true) (hx : execFor i k s = .next t) :
    Host.Core.run Sys2Proof.core k s = .next t := by
  induction k generalizing s with
  | zero => exact hx
  | succ k ih =>
    obtain ⟨u, he, hx⟩ := execFor_succ_cases hx
    have hbusy : s.busy = true := by
      obtain ⟨v, hv, hvb⟩ := hb 0 (Nat.succ_pos k)
      obtain rfl := Host.Outcome.next.inj hv
      exact hvb
    rw [run_succ k (h.step_next hbusy he)]
    refine ih (h.next he) (fun j hj => ?_) hx
    simpa [execFor_succ j he] using hb (j + 1) (Nat.succ_lt_succ hj)

/-- Settles O7: the step that accepts the command is its first, and the latches hold it from then on. -/
theorem stepsRunTheWholeCommand : Obligations.StepsRunTheWholeCommand := by
  intro s t c rest i k hb hturns hreset ho hd hbusy hx
  obtain ⟨u, he, hx⟩ := execFor_succ_cases hx
  have haccept : Alone i (s.accept c) := ⟨hturns, hreset, latched_of_decode hd⟩
  have hstep : step s = .next u := by
    rw [step_of_noTurn hturns, seqStep_of_idle hreset hb, State.acceptStep_of_ok ho hd, he]
  rw [run_succ k hstep]
  refine (haccept.next he).run (fun j hj => ?_) hx
  simpa [execFor_succ j he] using hbusy (j + 1) (Nat.succ_pos j) hj

/-! ## The turns -/

/-- A listed move of the environment other than asserting reset is a change of the environment. -/
theorem step_of_move {s : State} {m : Move} {rest : List Turn} (h : s.env.turns = .env m :: rest)
    (hm : m ≠ .assertReset) :
    step s = .next { s with env := ({ s.env with turns := rest } : Env).move s.busOwned m } := by
  rw [step_of_envTurn h, State.environmentMove_of_ne _ hm, State.dropTurn_of_turns h]

/-- Settles O8: each move, by what it does to the environment whose turn is taken. -/
theorem turnsAreTakenInOrder : Obligations.TurnsAreTakenInOrder := by
  intro s rest
  refine ⟨fun h => ?_, fun m hm h => step_of_move h hm, fun c h => (step_of_move h nofun :), fun h => (step_of_move h nofun :),
    fun answers h => ⟨fun pending hd => ?_, fun d hd => ?_⟩, fun a b h => ⟨fun d hd hwf => ?_, fun pending hd => ?_⟩,
    fun h => ⟨fun ho => ?_, fun ho => ?_⟩, fun h => (step_of_move h nofun :), fun bytes h => (step_of_move h nofun :),
    fun us ms h => ⟨fun u m hc => ?_, fun tau xferCost pollCost hc => ?_⟩⟩
  · rw [step_of_seqTurn (.inr ⟨rest, h⟩), State.dropTurn_of_turns h]
  · simp [step_of_move h nofun, Env.move, hd, Device.settleAnswers]
  · simp [step_of_move h nofun, Env.move, hd, Device.settleAnswers]
  · exact ⟨d.reg.write a.toNat b, by simp [step_of_move h nofun, Env.move, hd, Device.change], Memory.write_wf _ _ _ hwf,
      fun x => Memory.read_write _ _ _ _ hwf⟩
  · simp [step_of_move h nofun, Env.move, hd, Device.change]
  · simp [step_of_move h nofun, Env.move, ho]
  · simp [step_of_move h nofun, Env.move, ho]
  · simp [step_of_move h nofun, Env.move, hc, Counter.advance]
  · simp [step_of_move h nofun, Env.move, hc]

/-! ## What a step of the machine leaves alone -/

/-- Settles O52: a command, its acceptance, its end, a move of the environment and reset all keep the handle. -/
theorem configurationNeverChanges : Obligations.ConfigurationNeverChanges := by
  intro s t h
  rcases seqTurn_or_envTurn s with hs | ⟨m, rest, hm⟩
  · rw [step_of_seqTurn hs] at h
    rcases seqStep_cases h with ⟨-, rfl⟩ | ⟨-, -, rfl⟩ | ⟨-, -, i, -, he⟩ | ⟨-, c, rest, -, ⟨i, -, he⟩ | ⟨r, -, rfl⟩⟩
    · rfl
    · rfl
    · exact (exec_sameCommand he).cfg
    · exact (exec_sameCommand he).cfg
    · rfl
  · rw [step_of_envTurn hm] at h
    obtain rfl := Host.Outcome.next.inj h
    cases m <;> rfl

/-- A step of `SEQ` with `BUSY = 1` waits, delivers the owed `IllegalCommand` or is a step of a command. -/
theorem seqStep_busy_cases {s t : State} (h : seqStep s = .next t) (hb : s.busy = true) :
    t = s ∨ t = s.raise .illegalCommand ∨ ∃ i, exec i s = .next t := by
  rcases seqStep_cases h with ⟨-, ht⟩ | ⟨-, -, ht⟩ | ⟨-, -, i, -, he⟩ | ⟨hb', -⟩
  · exact .inl ht
  · exact .inr (.inl ht)
  · exact .inr (.inr ⟨i, he⟩)
  · simp [hb] at hb'

/-- Settles O53: no step of a command writes a latch, and no move of the environment but reset does. -/
theorem latchesStayDuringACommand : Obligations.LatchesStayDuringACommand := by
  intro s t hb hreset h
  rcases seqTurn_or_envTurn s with hs | ⟨m, rest, hm⟩
  · rw [step_of_seqTurn hs] at h
    rcases seqStep_busy_cases h hb with rfl | rfl | ⟨i, he⟩
    · exact .refl s
    · exact .refl s
    · exact (exec_sameCommand he).latches
  · have hne : m ≠ .assertReset := by rintro rfl; simp [hm] at hreset
    rw [step_of_move hm hne] at h
    obtain rfl := Host.Outcome.next.inj h
    exact .refl s

/-! ## The events of an engine -/

/-- An event that a command of the engine may perform: each has its own transport, counter and debug event, and both return a
`Result`. -/
def Event.ofEngine : Mode → Event → Bool
  | .byte, .beginTxn | .byte, .selAssert | .byte, .xfer _ _ | .byte, .selDeassert | .byte, .endTxn | .byte, .nowUs _
  | .byte, .dbgDiag _ => true
  | .line, .avail _ | .line, .rdByte _ | .line, .wrByte _ | .line, .nowMs _ | .line, .dbgByte _ => true
  | _, .result _ _ _ => true
  | _, _ => false

/-- No command performs a `CmdAccept`. -/
theorem Event.ofEngine_not_accept {m : Mode} {e : Event} (h : e.ofEngine m = true) : e.isAccept = false := by
  cases e with
  | cmdAccept word payload => cases m <;> exact nomatch h
  | _ => rfl

/-- From `s` to `t` there is no event, or one of the engine's. -/
def Performs (m : Mode) (s t : State) : Prop := t.trace = s.trace ∨ ∃ e, t.trace = s.trace ++ [e] ∧ e.ofEngine m = true

theorem Performs.quiet {m : Mode} {s t : State} (h : t.trace = s.trace) : Performs m s t := .inl h

theorem Performs.event {m : Mode} {s t : State} (e : Event) (h : t.trace = s.trace ++ [e]) (he : e.ofEngine m = true) :
    Performs m s t := .inr ⟨e, h, he⟩

/-- Every command may perform its `Result`. -/
theorem Performs.finish (m : Mode) (st : Status) (v : Byte) (d : List Byte) (s : State) :
    Performs m s (s.finish st v d) := .event (.result st.code v d) rfl (by cases m <;> rfl)

theorem busStep_performs {wire : Byte} {tx : List Byte} {c : Capture} {released : State → State} {s t : State}
    (h : busStep wire tx c released s = .next t) (hr : ∀ u, (released u).trace = u.trace) : Performs .byte s t := by
  rcases busStep_cases h with ⟨-, -, rfl⟩ | ⟨-, -, rfl⟩ | ⟨-, rfl⟩ | ⟨-, -, rfl⟩ | ⟨-, -, rfl⟩ | ⟨-, b, -, rfl⟩ |
    ⟨-, rfl⟩ | ⟨-, rfl⟩
  · exact .quiet rfl
  · exact .event .beginTxn rfl rfl
  · exact .event .selAssert rfl rfl
  · exact .event (.xfer _ _) rfl rfl
  · exact .event (.xfer _ _) rfl rfl
  · exact .event (.xfer _ _) rfl rfl
  · exact .event .selDeassert rfl rfl
  · exact .event .endTxn (hr _) rfl

theorem flushAvailStep_performs {drained : State → State} {s t : State} (h : flushAvailStep drained s = .next t)
    (hd : ∀ u, (drained u).trace = u.trace) : Performs .line s t := by
  rcases flushAvailStep_cases h with ⟨-, rfl⟩ | ⟨-, rfl⟩
  · exact .event (.avail _) (hd _) rfl
  · exact .event (.avail _) rfl rfl

theorem flushReadStep_performs {s t : State} (h : flushReadStep s = .next t) : Performs .line s t := by
  obtain ⟨b, rest, -, rfl⟩ := flushReadStep_cases h
  exact .event (.rdByte b) rfl rfl

theorem exchangeStep_performs {payload : List Byte} {s t : State} (h : exchangeStep payload s = .next t) :
    Performs .line s t := by
  rcases exchangeStep_cases h with ⟨-, -, rfl⟩ | ⟨-, -, h⟩ | ⟨-, -, h⟩ | ⟨-, b, rest, -, rfl⟩ | ⟨-, b, rest, -, rfl⟩ |
    ⟨-, -, rfl⟩ | ⟨-, -, h⟩ | ⟨-, -, h⟩ | ⟨-, -, h⟩ | ⟨-, b, -, rfl⟩ | ⟨-, -, rfl⟩ | ⟨-, -, rfl⟩
  · exact .quiet rfl
  · exact flushAvailStep_performs h fun u => (State.toSend_env_trace _ _ u).2
  · exact flushReadStep_performs h
  · exact .event (.wrByte b) (State.toSend_env_trace _ _ _).2 rfl
  · exact .event (.wrByte b) (State.toSend_env_trace _ _ _).2 rfl
  · exact .event (.nowMs _) rfl rfl
  · rcases awaitWindowStep_cases h with ⟨-, rfl⟩ | ⟨-, rfl⟩ <;> exact .event (.nowMs _) rfl rfl
  · rcases awaitPollStep_cases h with ⟨-, rfl⟩ | ⟨-, rfl⟩ <;> exact .event (.avail _) rfl rfl
  · obtain ⟨b, rest, -, ⟨-, rfl⟩ | ⟨-, rfl⟩⟩ := awaitReadStep_cases h
    · exact .event (.rdByte b) rfl rfl
    · exact .event (.rdByte b) (State.receive_env_trace _ _).2 rfl
  · exact .event (.dbgByte b) (State.receive_env_trace _ _).2 rfl
  · exact .finish ..
  · exact .finish ..

theorem fieldStart_trace (msb lsb : Byte) (s : State) : (fieldStart msb lsb s).trace = s.trace := by
  rcases fieldStart_cases msb lsb s with ⟨-, e⟩ | ⟨-, e⟩ <;> rw [e]

theorem setbfWindow_performs (win : Half) (s : State) : Performs .byte s (setbfWindow win s) := by
  rcases setbfWindow_cases win s with ⟨-, -, e⟩ | ⟨-, -, e⟩ | ⟨-, e⟩ <;> rw [e] <;> exact .event (.nowUs _) rfl rfl

theorem setbfCompare_trace (s : State) : (setbfCompare s).trace = s.trace := by
  rcases setbfCompare_cases s with ⟨-, e⟩ | ⟨-, e⟩ <;> rw [e]

/-- A step of a command performs no event but those of its engine. -/
theorem exec_performs {i : Instr} {s t : State} (h : exec i s = .next t) : Performs i.engine s t := by
  cases i with
  | rdreg addr =>
    rcases execRdreg_cases h with ⟨-, -, rfl⟩ | ⟨-, -, h⟩ | ⟨-, -, b, rest, -, rfl⟩
    · exact .quiet rfl
    · exact busStep_performs h fun _ => rfl
    · exact .finish ..
  | wrreg addr byte =>
    rcases execWrreg_cases h with ⟨-, -, rfl⟩ | ⟨-, -, h⟩ | ⟨-, -, rfl⟩
    · exact .quiet rfl
    · exact busStep_performs h fun _ => rfl
    · exact .finish ..
  | rdburst addr count =>
    rcases execRdburst_cases h with ⟨-, -, rfl⟩ | ⟨-, -, h⟩ | ⟨-, -, rfl⟩
    · exact .quiet rfl
    · exact busStep_performs h fun _ => rfl
    · exact .finish ..
  | wrburst addr bytes =>
    rcases execWrburst_cases h with ⟨-, -, rfl⟩ | ⟨-, -, h⟩ | ⟨-, -, rfl⟩
    · exact .quiet rfl
    · exact busStep_performs h fun _ => rfl
    · exact .finish ..
  | getbf addr msb lsb =>
    rcases execGetbf_cases h with ⟨-, -, rfl⟩ | ⟨-, -, rfl⟩ | ⟨-, -, h⟩ | ⟨-, -, rfl⟩
    · exact .quiet (fieldStart_trace msb lsb s)
    · exact .finish ..
    · exact busStep_performs h fun _ => rfl
    · exact .finish ..
  | setbf addr value msb lsb win =>
    rcases execSetbf_cases h with ⟨-, -, rfl⟩ | ⟨-, -, rfl⟩ | ⟨-, -, h⟩ | ⟨-, -, h⟩ | ⟨-, -, rfl⟩ | ⟨-, -, rfl⟩ |
      ⟨-, -, h⟩ | ⟨-, -, rfl⟩ | ⟨-, -, rfl⟩ | ⟨-, -, rfl⟩
    · exact .quiet (fieldStart_trace msb lsb s)
    · exact .finish ..
    · exact busStep_performs h fun _ => rfl
    · exact busStep_performs h fun _ => rfl
    · exact .event (.nowUs _) rfl rfl
    · exact setbfWindow_performs win s
    · exact busStep_performs h setbfCompare_trace
    · exact .event (.dbgDiag _) rfl rfl
    · exact .finish ..
    · exact .finish ..
  | flush =>
    rcases execFlush_cases h with ⟨-, -, rfl⟩ | ⟨-, -, h⟩ | ⟨-, -, h⟩ | ⟨-, -, rfl⟩
    · exact .quiet rfl
    · exact flushAvailStep_performs h fun _ => rfl
    · exact flushReadStep_performs h
    · exact .finish ..
  | sendcmd text => exact exchangeStep_performs h
  | senddata bytes => exact exchangeStep_performs h

/-- Settles O55: a step of a command takes no offer, and the events of its engine are no `CmdAccept`. -/
theorem commandsDoNotOverlap : Obligations.CommandsDoNotOverlap := by
  intro s t hb hturn h
  rw [step_of_seqTurn hturn] at h
  rcases seqStep_busy_cases h hb with rfl | rfl | ⟨i, he⟩
  · exact ⟨rfl, [], by simp⟩
  · exact ⟨rfl, [.result Status.illegalCommand.code 0x00 []], rfl, by simp [Event.isAccept]⟩
  · refine ⟨(exec_sameCommand he).offers, ?_⟩
    rcases exec_performs he with htrace | ⟨e, htrace, hengine⟩
    · exact ⟨[], by simpa using htrace⟩
    · exact ⟨[e], htrace, by simpa using Event.ofEngine_not_accept hengine⟩

end Sys2Proof.Machine
end

/-! # Proofs: the invariant

The clauses of `Inv` that name no command are `Sound`.  A step of a command from a sound state at its head or at a point of its
rule (`InCommand`) ends the command, or leaves it sound at a point of its rule (`exec_keeps`); both give the invariant back. -/

section

namespace Sys2Proof.Machine

open Sys2Proof

/-- The clauses of the invariant that name no command. -/
structure Sound (s : State) : Prop where
  bus          : BusAgrees s
  exclusive    : s.busOwned = true → s.env.otherOwns = false
  buffer       : s.lpState ≠ .awaiting → s.rbuf = []
  unclassified : classify s.rbuf = .pending
  memory       : s.env.device.canonical = true

theorem Inv.sound {s : State} (h : Inv s) : Sound s := ⟨h.bus, h.exclusive, h.buffer, h.unclassified, h.memory⟩

/-- `SEQ` is at the head of the command, or at a point of its rule. -/
def InCommand (i : Instr) (s : State) : Prop := (AtStart s ∧ s.txnStep = .none) ∨ InSequence i s

/-- Outside a transaction the bus is free. -/
theorem BusAgrees.free {s : State} (h : BusAgrees s) (ht : s.txnStep = .none) : s.busOwned = false ∧ s.sel = .inactive := by
  simpa [BusAgrees, ht] using h

/-! ## The engine that rests -/

theorem InSequence.lpState_idle {i : Instr} {s : State} (h : InSequence i s) (he : i.engine = .byte) :
    s.lpState = .idle := by
  cases i with
  | rdreg addr => obtain ⟨⟨-, hl, -⟩, -⟩ := h; exact hl
  | wrreg addr byte => obtain ⟨-, hl, -⟩ := h; exact hl
  | rdburst addr count => obtain ⟨⟨-, hl, -⟩, -⟩ := h; exact hl
  | wrburst addr bytes => obtain ⟨-, hl, -⟩ := h; exact hl
  | getbf addr msb lsb => obtain ⟨-, -, hl, -⟩ | ⟨-, -, hl, -⟩ := h <;> exact hl
  | setbf addr value msb lsb win => obtain ⟨-, -, hl, -⟩ | ⟨-, hl, -⟩ := h <;> exact hl
  | flush | sendcmd | senddata => cases he

theorem InSequence.bus_idle {i : Instr} {s : State} (h : InSequence i s) (he : i.engine = .line) :
    s.rbPhase = .idle ∧ s.txnStep = .none := by
  cases i with
  | flush => obtain ⟨hr, -, ht, -⟩ := h; exact ⟨hr, ht⟩
  | sendcmd text | senddata bytes => obtain ⟨hr, ht, -⟩ := h; exact ⟨hr, ht⟩
  | rdreg | wrreg | rdburst | wrburst | getbf | setbf => cases he

/-! ## The invariant, from the parts -/

/-- A command in progress, sound at a point of its rule. -/
theorem Inv.of_inSequence {i : Instr} {s : State} (h : Sound s) (hb : s.busy = true) (hl : s.latched = .ok i)
    (hi : InSequence i s) : Inv s where
  bus := h.bus
  exclusive := h.exclusive
  resting hb' := by simp [hb] at hb'
  running _ := .inr ⟨i, hl, hi⟩
  buffer := h.buffer
  unclassified := h.unclassified
  byteMode hm := hi.lpState_idle ((engine_of_decode hl).trans hm)
  lineMode hm := hi.bus_idle ((engine_of_decode hl).trans hm)
  memory := h.memory

/-- The end of a command outside a transaction. -/
theorem Inv.finish {s : State} (h : Sound s) (ht : s.txnStep = .none) (st : Status) (v : Byte) (d : List Byte) :
    Inv (s.finish st v d) := by
  obtain ⟨ho, hs⟩ := h.bus.free ht
  exact .of_atRest ⟨rfl, rfl, rfl⟩ rfl ht ho hs rfl h.memory

/-- A command in progress has left its head. -/
theorem InSequence.point_ne_idle {i : Instr} {s : State} (h : InSequence i s) : s.point ≠ .idle := by
  intro hp
  have hplain : ∀ n, ¬ InPlain n s := by
    rintro n ⟨-, -, hin | ⟨hq, -⟩⟩
    · exact absurd (hin.point.symm.trans hp) nofun
    · exact absurd (hq.symm.trans hp) nofun
  cases i with
  | rdreg addr => exact hplain _ h.1
  | wrreg addr byte => exact hplain _ h
  | rdburst addr count => exact hplain _ h.1
  | wrburst addr bytes => exact hplain _ h
  | getbf addr msb lsb => simp [InSequence, InGetbf, OwesInvalidRange, InTxn, Between, hp] at h
  | setbf addr value msb lsb win => simp [InSequence, InSetbf, OwesInvalidRange, InTxn, Between, hp] at h
  | flush => simp [InSequence, InFlush, hp] at h
  | sendcmd text | senddata bytes => simp [InSequence, InExchange, hp] at h

theorem InCommand.atStart {i : Instr} {s : State} (h : InCommand i s) (hp : s.point = .idle) :
    AtStart s ∧ s.txnStep = .none := h.resolve_right fun hi => hi.point_ne_idle hp

theorem InCommand.inSequence {i : Instr} {s : State} (h : InCommand i s) (hp : s.point ≠ .idle) : InSequence i s :=
  h.resolve_left fun ⟨⟨_, _, hq⟩, _⟩ => hp hq

/-- The owed `Result` comes outside every transaction. -/
theorem InCommand.txnStep_none {i : Instr} {s : State} (h : InCommand i s) (hp : s.point ≠ .txn) : s.txnStep = .none := by
  rcases h with ⟨-, ht⟩ | hi
  · exact ht
  · exact hi.txnStep_none hp

/-! ## A bus step of a sound machine -/

/-- A bus step stays inside the transaction, or it is the release, which leaves the bus free. -/
theorem busStep_sound {wire : Byte} {tx : List Byte} {c : Capture} {released : State → State} {s t : State}
    (h : busStep wire tx c released s = .next t) (hin : InTxn tx.length s) (hs : Sound s) (hlen : tx.length ≤ 65535) :
    (SameButBus c s t ∧ InTxn tx.length t ∧ Sound t ∧
      (c = .rxdata → s.rxdata.length = capturedCount tx.length s → t.rxdata.length = capturedCount tx.length t)) ∨
    (s.txnStep = .rel ∧ ∃ u, u = { s with busOwned := false, txnStep := .none, trace := s.trace ++ [.endTxn] } ∧
      Sound u ∧ t = released u) := by
  have release (hrel : s.txnStep = .rel) :
      Sound { s with busOwned := false, txnStep := .none, trace := s.trace ++ [.endTxn] } := by
    obtain ⟨-, hsel⟩ : s.busOwned = true ∧ s.sel = .inactive := by simpa [BusAgrees, hrel] using hs.bus
    exact { hs with bus := ⟨rfl, hsel⟩, exclusive := nofun }
  rcases busStep_frame h with hf | ⟨hrel, ht⟩
  · rcases busStep_keeps h hin hs.bus hs.exclusive hlen with ⟨hin', hb, hx, hm, hcap⟩ | ⟨hrel, -, -, ht⟩
    · refine .inl ⟨hf, hin', ⟨hb, hx, ?_, ?_, hm hs.memory⟩, hcap⟩
      · rw [hf.lpState, hf.rbuf]; exact hs.buffer
      · rw [hf.rbuf]; exact hs.unclassified
    · exact .inr ⟨hrel, _, rfl, release hrel, ht⟩
  · exact .inr ⟨hrel, _, rfl, release hrel, ht⟩

/-- A sound machine outside a transaction may open one. -/
theorem Sound.opens {s : State} (h : Sound s) (ht : s.txnStep = .none) : BusAgrees { s with txnStep := .acq } :=
  h.bus.free ht

/-! ## The plain commands -/

@[simp] theorem fillers_length (cfg : DeviceHandle) (n : Nat) : (fillers cfg n).length = n := List.length_replicate

/-- The start of a plain command. -/
theorem plainStart_keeps {s : State} (hs : Sound s) (hl : s.lpState = .idle) (ht : s.txnStep = .none) (n : Nat)
    (rx : List Byte) :
    InPlain n { s with rbPhase := .plain, rxdata := rx, txnStep := .acq, point := .txn } ∧
      Sound { s with rbPhase := .plain, rxdata := rx, txnStep := .acq, point := .txn } :=
  ⟨⟨rfl, hl, .inl ⟨rfl, nofun, nofun⟩⟩, { hs with bus := hs.opens ht }⟩

/-- The transaction of a plain command, and what it has captured where it reads. -/
theorem plainTxn_keeps {wire : Byte} {tx : List Byte} {n : Nat} {c : Capture} {s t : State}
    (h : busStep wire tx c (State.owe .ok) s = .next t) (hn : tx.length = n) (hlen : n ≤ 65535) (hp : s.point = .txn)
    (hi : InPlain n s) (hs : Sound s) :
    InPlain n t ∧ Sound t ∧ (c = .rxdata → s.rxdata.length = capturedCount n s → t.rxdata.length = capturedCount n t) := by
  subst hn
  obtain ⟨hr, hl, hin | ⟨hp', -⟩⟩ := hi
  · rcases busStep_sound h hin hs hlen with ⟨hf, hin', hs', hcap⟩ | ⟨hrel, u, rfl, hs', rfl⟩
    · exact ⟨⟨hf.rbPhase.trans hr, hf.lpState.trans hl, .inl hin'⟩, hs', hcap⟩
    · refine ⟨⟨hr, hl, .inr ⟨rfl, rfl⟩⟩, { hs' with }, fun _ hcap => ?_⟩
      simpa [capturedCount, hrel] using hcap
  · simp [hp] at hp'

section Plain

variable {s t : State}

theorem execRdreg_keeps {addr : Byte} (h : execRdreg addr s = .next t) (hc : InCommand (.rdreg addr) s)
    (hs : Sound s) : Ends s t ∨ (InSequence (.rdreg addr) t ∧ Sound t) := by
  rcases execRdreg_cases h with ⟨-, hp, rfl⟩ | ⟨-, hp, h⟩ | ⟨-, hp, b, rest, -, rfl⟩
  · obtain ⟨⟨-, hl, -⟩, ht⟩ := hc.atStart hp
    obtain ⟨hi, hs'⟩ := plainStart_keeps hs hl ht 1 []
    exact .inr ⟨⟨hi, rfl⟩, hs'⟩
  · obtain ⟨hi, hx⟩ := hc.inSequence (by simp [hp])
    obtain ⟨hi', hs', hcap⟩ := plainTxn_keeps h (fillers_length _ _) (by decide) hp hi hs
    exact .inr ⟨⟨hi', hcap rfl hx⟩, hs'⟩
  · exact .inl (.owed hp _ _)

theorem execRdburst_keeps {addr : Byte} {count : Half} (h : execRdburst addr count s = .next t)
    (hc : InCommand (.rdburst addr count) s) (hs : Sound s) :
    Ends s t ∨ (InSequence (.rdburst addr count) t ∧ Sound t) := by
  rcases execRdburst_cases h with ⟨-, hp, rfl⟩ | ⟨-, hp, h⟩ | ⟨-, hp, rfl⟩
  · obtain ⟨⟨-, hl, -⟩, ht⟩ := hc.atStart hp
    obtain ⟨hi, hs'⟩ := plainStart_keeps hs hl ht count.toNat []
    exact .inr ⟨⟨hi, rfl⟩, hs'⟩
  · obtain ⟨hi, hx⟩ := hc.inSequence (by simp [hp])
    obtain ⟨hi', hs', hcap⟩ := plainTxn_keeps h (fillers_length _ _) (Nat.le_of_lt_succ count.isLt) hp hi hs
    exact .inr ⟨⟨hi', hcap rfl hx⟩, hs'⟩
  · exact .inl (.owed hp _ _)

theorem execWrreg_keeps {addr byte : Byte} (h : execWrreg addr byte s = .next t)
    (hc : InCommand (.wrreg addr byte) s) (hs : Sound s) :
    Ends s t ∨ (InSequence (.wrreg addr byte) t ∧ Sound t) := by
  rcases execWrreg_cases h with ⟨-, hp, rfl⟩ | ⟨-, hp, h⟩ | ⟨-, hp, rfl⟩
  · obtain ⟨⟨-, hl, -⟩, ht⟩ := hc.atStart hp
    exact .inr (plainStart_keeps hs hl ht 1 s.rxdata)
  · obtain ⟨hi, hs', -⟩ := plainTxn_keeps h rfl (by simp) hp (hc.inSequence (by simp [hp])) hs
    exact .inr ⟨hi, hs'⟩
  · exact .inl (.owed hp _ _)

theorem execWrburst_keeps {addr : Byte} {bytes : List Byte} (h : execWrburst addr bytes s = .next t)
    (hlen : bytes.length ≤ 65535) (hc : InCommand (.wrburst addr bytes) s) (hs : Sound s) :
    Ends s t ∨ (InSequence (.wrburst addr bytes) t ∧ Sound t) := by
  rcases execWrburst_cases h with ⟨-, hp, rfl⟩ | ⟨-, hp, h⟩ | ⟨-, hp, rfl⟩
  · obtain ⟨⟨-, hl, -⟩, ht⟩ := hc.atStart hp
    exact .inr (plainStart_keeps hs hl ht bytes.length s.rxdata)
  · obtain ⟨hi, hs', -⟩ := plainTxn_keeps h rfl hlen hp (hc.inSequence (by simp [hp])) hs
    exact .inr ⟨hi, hs'⟩
  · exact .inl (.owed hp _ _)

end Plain

/-! ## The bit-field commands -/

/-- A transaction that a bit-field command opens. -/
theorem inTxn_opened {n : Nat} {s : State} (hp : s.point = .txn) (ht : s.txnStep = .acq) : InTxn n s :=
  ⟨hp, by simp [ht], by simp [ht]⟩

/-- A bit-field command starts its read or owes `InvalidBitRange`. -/
theorem fieldStart_keeps (msb lsb : Byte) {s : State} (hs : Sound s) (h : AtStart s) (ht : s.txnStep = .none) :
    (OwesInvalidRange msb lsb (fieldStart msb lsb s) ∨
      (validRange msb lsb = true ∧ (fieldStart msb lsb s).rbPhase = .bfRead ∧ (fieldStart msb lsb s).lpState = .idle ∧
        InTxn 1 (fieldStart msb lsb s))) ∧ Sound (fieldStart msb lsb s) := by
  obtain ⟨hr, hl, -⟩ := h
  rcases fieldStart_cases msb lsb s with ⟨hv, e⟩ | ⟨hv, e⟩ <;> rw [e]
  · exact ⟨.inr ⟨hv, rfl, hl, inTxn_opened rfl rfl⟩, { hs with bus := hs.opens ht }⟩
  · exact ⟨.inl ⟨hv, hr, hl, rfl, ht⟩, { hs with }⟩

/-- Inside its read `GETBF` has a valid range. -/
theorem InGetbf.read {msb lsb : Byte} {s : State} (h : InGetbf msb lsb s) (hp : s.point = .txn) :
    validRange msb lsb = true ∧ s.rbPhase = .bfRead ∧ s.lpState = .idle ∧ InTxn 1 s := by
  rcases h with ⟨-, -, -, hq, -⟩ | ⟨hv, hr, hl, hin | ⟨⟨hq, -⟩, -⟩⟩
  · simp [hp] at hq
  · exact ⟨hv, hr, hl, hin⟩
  · simp [hp] at hq

theorem execGetbf_keeps {addr msb lsb : Byte} {s t : State} (h : execGetbf addr msb lsb s = .next t)
    (hc : InCommand (.getbf addr msb lsb) s) (hs : Sound s) :
    Ends s t ∨ (InSequence (.getbf addr msb lsb) t ∧ Sound t) := by
  rcases execGetbf_cases h with ⟨-, hp, rfl⟩ | ⟨-, hp, rfl⟩ | ⟨-, hp, h⟩ | ⟨-, hp, rfl⟩
  · obtain ⟨hstart, ht⟩ := hc.atStart hp
    obtain ⟨hi | ⟨hv, hr, hl, hin⟩, hs'⟩ := fieldStart_keeps msb lsb hs hstart ht
    · exact .inr ⟨.inl hi, hs'⟩
    · exact .inr ⟨.inr ⟨hv, hr, hl, .inl hin⟩, hs'⟩
  · exact .inl (.owed hp _ _)
  · obtain ⟨hv, hr, hl, hin⟩ := InGetbf.read (hc.inSequence (by simp [hp])) hp
    rcases busStep_sound h hin hs (by simp) with ⟨hf, hin', hs', -⟩ | ⟨-, u, rfl, hs', rfl⟩
    · exact .inr ⟨.inr ⟨hv, hf.rbPhase.trans hr, hf.lpState.trans hl, .inl hin'⟩, hs'⟩
    · exact .inr ⟨.inr ⟨hv, hr, hl, .inr ⟨⟨rfl, rfl⟩, rfl⟩⟩, { hs' with }⟩
  · exact .inl (.owed hp _ _)

/-- `MASK` and `NEW` hold what the read and the operands give. -/
def Merged (value msb lsb : Byte) (s : State) : Prop :=
  s.mask = fieldMask msb lsb ∧ s.new = mergeField s.cur value msb lsb

theorem Merged.bus {value msb lsb : Byte} {c : Capture} {s t : State} (h : Merged value msb lsb s)
    (hf : SameButBus c s t) (hc : c ≠ .cur) : Merged value msb lsb t := by
  obtain ⟨hm, hn⟩ := h
  exact ⟨hf.mask.trans hm, by rw [hf.new, hf.cur hc, hn]⟩

section Setbf

variable {value msb lsb : Byte} {s t : State}

/-- The five places of `SETBF` behind its start, from their parts. -/
theorem InSetbf.of_read (hv : validRange msb lsb = true) (hl : s.lpState = .idle) (hr : s.rbPhase = .bfRead)
    (hin : InTxn 1 s) : InSetbf value msb lsb s := .inr ⟨hv, hl, .inl ⟨hr, hin⟩⟩

theorem InSetbf.of_write (hv : validRange msb lsb = true) (hl : s.lpState = .idle) (hm : Merged value msb lsb s)
    (hr : s.rbPhase = .bfWrite) (hin : InTxn 1 s ∨ Between .sample s) : InSetbf value msb lsb s :=
  .inr ⟨hv, hl, .inr ⟨hm.1, hm.2, .inl ⟨hr, hin⟩⟩⟩

theorem InSetbf.of_poll (hv : validRange msb lsb = true) (hl : s.lpState = .idle) (hm : Merged value msb lsb s)
    (hr : s.rbPhase = .bfPoll)
    (hin : InTxn 1 s ∨ Between .window s ∨ Between .diag s ∨ (Between (.owe .ok) s ∧ s.last = s.new) ∨
      Between (.owe .writeVerificationFailed) s) : InSetbf value msb lsb s :=
  .inr ⟨hv, hl, .inr ⟨hm.1, hm.2, .inr ⟨hr, hin⟩⟩⟩

/-- Behind its start `SETBF` has a valid range. -/
theorem InSetbf.started (h : InSetbf value msb lsb s) (hr : s.rbPhase ≠ .idle) :
    validRange msb lsb = true ∧ s.lpState = .idle := by
  rcases h with ⟨-, hr', -⟩ | ⟨hv, hl, -⟩
  · exact absurd hr' hr
  · exact ⟨hv, hl⟩

/-- Behind its read `SETBF` has merged. -/
theorem InSetbf.merged (h : InSetbf value msb lsb s) (hr : s.rbPhase = .bfWrite ∨ s.rbPhase = .bfPoll) :
    Merged value msb lsb s := by
  rcases h with ⟨-, hr', -⟩ | ⟨-, -, ⟨hr', -⟩ | ⟨hm, hn, -⟩⟩
  · simp [hr'] at hr
  · simp [hr'] at hr
  · exact ⟨hm, hn⟩

/-- Each of its three transactions is of one payload position. -/
theorem InSetbf.inTxn (h : InSetbf value msb lsb s) (hp : s.point = .txn) : InTxn 1 s := by
  rcases h with ⟨-, -, -, hq, -⟩ | ⟨-, -, ⟨-, hin⟩ | ⟨-, -, ⟨-, hin | ⟨hq, -⟩⟩ |
    ⟨-, hin | ⟨hq, -⟩ | ⟨hq, -⟩ | ⟨⟨hq, -⟩, -⟩ | ⟨hq, -⟩⟩⟩⟩
  · exact absurd (hp.symm.trans hq) nofun
  · exact hin
  · exact hin
  · exact absurd (hp.symm.trans hq) nofun
  · exact hin
  · exact absurd (hp.symm.trans hq) nofun
  · exact absurd (hp.symm.trans hq) nofun
  · exact absurd (hp.symm.trans hq) nofun
  · exact absurd (hp.symm.trans hq) nofun

/-- The read of `SETBF`: at the release it merges and opens its write. -/
theorem setbfRead_keeps {wire : Byte} {tx : List Byte}
    (h : busStep wire tx .cur (setbfMerge value msb lsb) s = .next t) (hn : tx.length = 1) (hr : s.rbPhase = .bfRead)
    (hp : s.point = .txn) (hi : InSetbf value msb lsb s) (hs : Sound s) : InSetbf value msb lsb t ∧ Sound t := by
  obtain ⟨hv, hl⟩ := hi.started (by simp [hr])
  rcases busStep_sound h (hn ▸ hi.inTxn hp) hs (by simp [hn]) with ⟨hf, hin', hs', -⟩ | ⟨-, u, rfl, hs', rfl⟩
  · exact ⟨.of_read hv (hf.lpState.trans hl) (hf.rbPhase.trans hr) (hn ▸ hin'), hs'⟩
  · exact ⟨.of_write hv hl ⟨rfl, rfl⟩ rfl (.inl (inTxn_opened rfl rfl)), { hs' with bus := hs'.opens rfl }⟩

/-- Its write: at the release it goes on to the sample of `T0`. -/
theorem setbfWrite_keeps {wire : Byte} {tx : List Byte}
    (h : busStep wire tx .discard (fun u => { u with point := .sample }) s = .next t) (hn : tx.length = 1)
    (hr : s.rbPhase = .bfWrite) (hp : s.point = .txn) (hi : InSetbf value msb lsb s) (hs : Sound s) :
    InSetbf value msb lsb t ∧ Sound t := by
  obtain ⟨hv, hl⟩ := hi.started (by simp [hr])
  have hm := hi.merged (.inl hr)
  rcases busStep_sound h (hn ▸ hi.inTxn hp) hs (by simp [hn]) with ⟨hf, hin', hs', -⟩ | ⟨-, u, rfl, hs', rfl⟩
  · exact ⟨.of_write hv (hf.lpState.trans hl) (hm.bus hf nofun) (hf.rbPhase.trans hr) (.inl (hn ▸ hin')), hs'⟩
  · exact ⟨.of_write hv hl hm hr (.inr ⟨rfl, rfl⟩), { hs' with }⟩

/-- Its poll read: at the release the byte is compared. -/
theorem setbfPoll_keeps {wire : Byte} {tx : List Byte}
    (h : busStep wire tx .last setbfCompare s = .next t) (hn : tx.length = 1) (hr : s.rbPhase = .bfPoll)
    (hp : s.point = .txn) (hi : InSetbf value msb lsb s) (hs : Sound s) : InSetbf value msb lsb t ∧ Sound t := by
  obtain ⟨hv, hl⟩ := hi.started (by simp [hr])
  have hm := hi.merged (.inr hr)
  rcases busStep_sound h (hn ▸ hi.inTxn hp) hs (by simp [hn]) with ⟨hf, hin', hs', -⟩ | ⟨-, u, rfl, hs', rfl⟩
  · exact ⟨.of_poll hv (hf.lpState.trans hl) (hm.bus hf nofun) (hf.rbPhase.trans hr) (.inl (hn ▸ hin')), hs'⟩
  · rcases setbfCompare_cases { s with busOwned := false, txnStep := .none, trace := s.trace ++ [.endTxn] } with
      ⟨hmatch, e⟩ | ⟨-, e⟩ <;> rw [e]
    · exact ⟨.of_poll hv hl hm hr (.inr (.inr (.inr (.inl ⟨⟨rfl, rfl⟩, hmatch⟩)))), { hs' with }⟩
    · exact ⟨.of_poll hv hl hm hr (.inr (.inl ⟨rfl, rfl⟩)), { hs' with }⟩

/-- The window test: the poll read opens, or the failure is owed, behind the diagnosis where `DEBUG_EN` is set. -/
theorem setbfWindow_keeps (win : Half) (hr : s.rbPhase = .bfPoll) (ht : s.txnStep = .none)
    (hi : InSetbf value msb lsb s) (hs : Sound s) :
    InSetbf value msb lsb (setbfWindow win s) ∧ Sound (setbfWindow win s) := by
  obtain ⟨hv, hl⟩ := hi.started (by simp [hr])
  have hm := hi.merged (.inr hr)
  rcases setbfWindow_cases win s with ⟨-, -, e⟩ | ⟨-, -, e⟩ | ⟨-, e⟩ <;> rw [e]
  · exact ⟨.of_poll hv hl hm hr (.inr (.inr (.inl ⟨rfl, ht⟩))), { hs with }⟩
  · exact ⟨.of_poll hv hl hm hr (.inr (.inr (.inr (.inr ⟨rfl, ht⟩)))), { hs with }⟩
  · exact ⟨.of_poll hv hl hm hr (.inl (inTxn_opened rfl rfl)), { hs with bus := hs.opens ht }⟩

theorem execSetbf_keeps {addr : Byte} {win : Half} (h : execSetbf addr value msb lsb win s = .next t)
    (hc : InCommand (.setbf addr value msb lsb win) s) (hs : Sound s) :
    Ends s t ∨ (InSequence (.setbf addr value msb lsb win) t ∧ Sound t) := by
  have inside (hp : s.point ≠ .idle) : InSetbf value msb lsb s := hc.inSequence hp
  rcases execSetbf_cases h with ⟨-, hp, rfl⟩ | ⟨-, hp, rfl⟩ | ⟨hr, hp, h⟩ | ⟨hr, hp, h⟩ | ⟨hr, hp, rfl⟩ | ⟨hr, hp, rfl⟩ |
    ⟨hr, hp, h⟩ | ⟨hr, hp, rfl⟩ | ⟨-, hp, rfl⟩ | ⟨-, hp, rfl⟩
  · obtain ⟨hstart, ht⟩ := hc.atStart hp
    obtain ⟨hi | ⟨hv, hr, hl, hin⟩, hs'⟩ := fieldStart_keeps msb lsb hs hstart ht
    · exact .inr ⟨.inl hi, hs'⟩
    · exact .inr ⟨.of_read hv hl hr hin, hs'⟩
  · exact .inl (.owed hp _ _)
  · exact .inr (setbfRead_keeps h (fillers_length _ _) hr hp (inside (by simp [hp])) hs)
  · exact .inr (setbfWrite_keeps h rfl hr hp (inside (by simp [hp])) hs)
  · have hi := inside (by simp [hp])
    obtain ⟨hv, hl⟩ := hi.started (by simp [hr])
    have ht := hc.txnStep_none (by simp [hp])
    exact .inr ⟨.of_poll hv hl (hi.merged (.inl hr)) rfl (.inr (.inl ⟨rfl, ht⟩)), { hs with }⟩
  · exact .inr (setbfWindow_keeps win hr (hc.txnStep_none (by simp [hp])) (inside (by simp [hp])) hs)
  · exact .inr (setbfPoll_keeps h (fillers_length _ _) hr hp (inside (by simp [hp])) hs)
  · have hi := inside (by simp [hp])
    obtain ⟨hv, hl⟩ := hi.started (by simp [hr])
    have ht := hc.txnStep_none (by simp [hp])
    exact .inr ⟨.of_poll hv hl (hi.merged (.inr hr)) hr (.inr (.inr (.inr (.inr ⟨rfl, ht⟩)))), { hs with }⟩
  · exact .inl (.owed hp _ _)
  · exact .inl (.owed hp _ _)

end Setbf

/-! ## The line commands -/

/-- The response buffer of a machine that does not wait, or waits without a keyword. -/
def BufferKept (s : State) : Prop := (s.lpState ≠ .awaiting → s.rbuf = []) ∧ classify s.rbuf = .pending

/-- A step of a line command keeps the clauses about the byte bus. -/
theorem Sound.line {s t : State} (h : Sound s) (hf : SameButLine s t) (hb : BufferKept t) : Sound t := by
  obtain ⟨ht, ho, hsel⟩ := hf.bus
  obtain ⟨-, -, hother, hdev, -⟩ := hf.offLine
  obtain ⟨hbuf, hcls⟩ := hb
  refine ⟨?_, ?_, hbuf, hcls, hdev ▸ h.memory⟩
  · simpa only [BusAgrees, ht, ho, hsel] using h.bus
  · rw [ho, hother]; exact h.exclusive

/-- An empty buffer will do at any place of the line engine. -/
theorem BufferKept.of_nil {s : State} (h : s.rbuf = []) : BufferKept s := ⟨fun _ => h, by rw [h]; rfl⟩

theorem Sound.bufferKept {s : State} (h : Sound s) : BufferKept s := ⟨h.buffer, h.unclassified⟩

theorem execFlush_keeps {s t : State} (h : execFlush s = .next t) (hc : InCommand .flush s) (hs : Sound s) :
    Ends s t ∨ (InSequence .flush t ∧ Sound t) := by
  have hline : BufferKept t → Sound t := hs.line (execFlush_frame h).1
  rcases execFlush_cases h with ⟨hl, hp, rfl⟩ | ⟨hl, hp, h⟩ | ⟨hl, hp, h⟩ | ⟨-, hp, rfl⟩
  · obtain ⟨⟨hr, -, -⟩, ht⟩ := hc.atStart hp
    exact .inr ⟨⟨hr, hl, ht, .inl rfl⟩, hline hs.bufferKept⟩
  · obtain ⟨hr, -, ht, -⟩ := hc.inSequence (by simp [hp])
    rcases flushAvailStep_cases h with ⟨-, rfl⟩ | ⟨hn, rfl⟩
    · exact .inr ⟨⟨hr, hl, ht, .inr (.inr rfl)⟩, hline hs.bufferKept⟩
    · exact .inr ⟨⟨hr, hl, ht, .inr (.inl ⟨rfl, Env.avail_inbound _ hn⟩)⟩, hline hs.bufferKept⟩
  · obtain ⟨hr, -, ht, -⟩ := hc.inSequence (by simp [hp])
    obtain ⟨b, rest, -, rfl⟩ := flushReadStep_cases h
    exact .inr ⟨⟨hr, hl, ht, .inl rfl⟩, hline hs.bufferKept⟩
  · exact .inl (.owed hp _ _)

/-- The places of an exchange while it sends. -/
def SendingAt (s : State) : Prop :=
  s.point = .flushAvail ∨ (s.point = .flushRead ∧ s.env.channel.inbound ≠ []) ∨
    (∃ b rest, s.point = .send (b :: rest)) ∨ (∃ b rest, s.point = .term (b :: rest))

/-- And while it waits. -/
def AwaitingAt (s : State) : Prop :=
  s.point = .sample ∨ s.point = .window ∨ s.point = .poll ∨ (s.point = .read ∧ s.env.channel.inbound ≠ []) ∨
    (∃ b, s.point = .mirror b)

section Exchange

variable {s t : State}

theorem InExchange.of_sending (hr : s.rbPhase = .idle) (ht : s.txnStep = .none) (hl : s.lpState = .sending)
    (h : SendingAt s) : InExchange s := ⟨hr, ht, .inl ⟨hl, h⟩⟩

theorem InExchange.of_awaiting (hr : s.rbPhase = .idle) (ht : s.txnStep = .none) (hl : s.lpState = .awaiting)
    (h : AwaitingAt s) : InExchange s := ⟨hr, ht, .inr (.inl ⟨hl, h⟩)⟩

/-- The next byte to send, or the wait with an empty buffer. -/
theorem toSend_keeps (payload term : List Byte) (hr : s.rbPhase = .idle) (ht : s.txnStep = .none)
    (hl : s.lpState = .sending) (hb : BufferKept s) :
    InExchange (s.toSend payload term) ∧ BufferKept (s.toSend payload term) := by
  rcases s.toSend_cases payload term with ⟨hne, e⟩ | ⟨-, hne, e⟩ | ⟨-, -, e⟩ <;> rw [e]
  · obtain ⟨b, rest, rfl⟩ := List.exists_cons_of_ne_nil hne
    exact ⟨.of_sending hr ht hl (.inr (.inr (.inl ⟨b, rest, rfl⟩))), hb⟩
  · obtain ⟨b, rest, rfl⟩ := List.exists_cons_of_ne_nil hne
    exact ⟨.of_sending hr ht hl (.inr (.inr (.inr ⟨b, rest, rfl⟩))), hb⟩
  · exact ⟨.of_awaiting hr ht rfl (.inl rfl), .of_nil rfl⟩

/-- A byte received in the wait: a verdict, or the byte joins a buffer without one. -/
theorem receive_keeps (b : Byte) (hr : s.rbPhase = .idle) (ht : s.txnStep = .none) (hl : s.lpState = .awaiting) :
    InExchange (s.receive b) ∧ BufferKept (s.receive b) := by
  rcases s.receive_cases b with ⟨-, e⟩ | ⟨-, e⟩ | ⟨hcls, e⟩ <;> rw [e]
  · exact ⟨⟨hr, ht, .inr (.inr (.inl ⟨rfl, rfl⟩))⟩, .of_nil rfl⟩
  · exact ⟨⟨hr, ht, .inr (.inr (.inr ⟨rfl, rfl⟩))⟩, .of_nil rfl⟩
  · exact ⟨.of_awaiting hr ht hl (.inr (.inl rfl)), fun h => absurd hl h, hcls⟩

/-- A step of an exchange ends it, or goes on to a place of its rule with its buffer kept. -/
theorem exchangeStep_places {payload : List Byte} (h : exchangeStep payload s = .next t) (hr : s.rbPhase = .idle)
    (ht : s.txnStep = .none) (hb : BufferKept s) : Ends s t ∨ (InExchange t ∧ BufferKept t) := by
  rcases exchangeStep_cases h with ⟨hl, -, rfl⟩ | ⟨hl, -, h⟩ | ⟨hl, -, h⟩ | ⟨hl, b, rest, -, rfl⟩ | ⟨hl, b, rest, -, rfl⟩ |
    ⟨hl, -, rfl⟩ | ⟨hl, -, h⟩ | ⟨hl, -, h⟩ | ⟨hl, -, h⟩ | ⟨hl, b, -, rfl⟩ | ⟨-, hp, rfl⟩ | ⟨-, hp, rfl⟩
  · obtain ⟨hbuf, -⟩ := hb
    exact .inr ⟨.of_sending hr ht rfl (.inl rfl), .of_nil (hbuf (by simp [hl]))⟩
  · rcases flushAvailStep_cases h with ⟨-, rfl⟩ | ⟨hn, rfl⟩
    · exact .inr (toSend_keeps _ _ hr ht hl hb)
    · exact .inr ⟨.of_sending hr ht hl (.inr (.inl ⟨rfl, Env.avail_inbound _ hn⟩)), hb⟩
  · obtain ⟨b, rest, -, rfl⟩ := flushReadStep_cases h
    exact .inr ⟨.of_sending hr ht hl (.inl rfl), hb⟩
  · exact .inr (toSend_keeps _ _ hr ht hl hb)
  · exact .inr (toSend_keeps _ _ hr ht hl hb)
  · exact .inr ⟨.of_awaiting hr ht hl (.inr (.inl rfl)), hb⟩
  · rcases awaitWindowStep_cases h with ⟨-, rfl⟩ | ⟨-, rfl⟩
    · exact .inr ⟨⟨hr, ht, .inr (.inr (.inr ⟨rfl, rfl⟩))⟩, .of_nil rfl⟩
    · exact .inr ⟨.of_awaiting hr ht hl (.inr (.inr (.inl rfl))), hb⟩
  · rcases awaitPollStep_cases h with ⟨-, rfl⟩ | ⟨hn, rfl⟩
    · exact .inr ⟨.of_awaiting hr ht hl (.inr (.inl rfl)), hb⟩
    · exact .inr ⟨.of_awaiting hr ht hl (.inr (.inr (.inr (.inl ⟨rfl, Env.avail_inbound _ hn⟩)))), hb⟩
  · obtain ⟨b, rest, -, ⟨-, rfl⟩ | ⟨-, rfl⟩⟩ := awaitReadStep_cases h
    · exact .inr ⟨.of_awaiting hr ht hl (.inr (.inr (.inr (.inr ⟨b, rfl⟩)))), hb⟩
    · exact .inr (receive_keeps b hr ht hl)
  · exact .inr (receive_keeps b hr ht hl)
  · exact .inl (.owed hp _ _)
  · exact .inl (.owed hp _ _)

/-- An exchange, at its head or in progress, leaves the byte engine at rest. -/
theorem InCommand.bus_idle {i : Instr} (h : InCommand i s) (he : i.engine = .line) :
    s.rbPhase = .idle ∧ s.txnStep = .none := by
  rcases h with ⟨⟨hr, -⟩, ht⟩ | hi
  · exact ⟨hr, ht⟩
  · exact hi.bus_idle he

theorem exchangeStep_keeps {payload : List Byte} (h : exchangeStep payload s = .next t) (hr : s.rbPhase = .idle)
    (ht : s.txnStep = .none) (hs : Sound s) : Ends s t ∨ (InExchange t ∧ Sound t) := by
  rcases exchangeStep_places h hr ht hs.bufferKept with hend | ⟨hi, hb⟩
  · exact .inl hend
  · exact .inr ⟨hi, hs.line (exchangeStep_frame h) hb⟩

end Exchange

/-! ## Every command -/

/-- A command that a word spells has a payload that `arg16` counts (spec/30_encoding.md R78). -/
theorem wellFormed_of_decode {m : Mode} {w : Word} {payload : List Byte} {i : Instr} (h : decode m w payload = .ok i) :
    i.wellFormed = true := by
  obtain ⟨k, -, -, -, -, hlen, rfl⟩ := decode_eq_ok.mp h
  have hfits : k.carriesPayload = true → payloadFits payload = true := by
    intro hk
    simpa [payloadFits, hlen, Opcode.payloadLength, hk] using (arg16Field w).isLt
  cases k with
  | wrburst => exact hfits rfl
  | sendcmd => exact hfits rfl
  | senddata => exact hfits rfl
  | rdreg | wrreg | rdburst | getbf | setbf | flush => rfl

/-- A step of a command in a sound machine ends it, or leaves a sound machine at a point of its rule. -/
theorem exec_keeps {i : Instr} {s t : State} (h : exec i s = .next t) (hw : i.wellFormed = true) (hc : InCommand i s)
    (hs : Sound s) : Ends s t ∨ (InSequence i t ∧ Sound t) := by
  cases i with
  | rdreg addr => exact execRdreg_keeps h hc hs
  | wrreg addr byte => exact execWrreg_keeps h hc hs
  | rdburst addr count => exact execRdburst_keeps h hc hs
  | wrburst addr bytes =>
    have hlen : bytes.length < 65536 := by simpa [Instr.wellFormed, payloadFits] using hw
    exact execWrburst_keeps h (Nat.le_of_lt_succ hlen) hc hs
  | getbf addr msb lsb => exact execGetbf_keeps h hc hs
  | setbf addr value msb lsb win => exact execSetbf_keeps h hc hs
  | flush => exact execFlush_keeps h hc hs
  | sendcmd text | senddata bytes =>
    obtain ⟨hr, ht⟩ := hc.bus_idle rfl
    exact exchangeStep_keeps h hr ht hs

/-! ## The step of the machine -/

/-- A step of the command in the latches gives the invariant. -/
theorem Inv.of_exec {i : Instr} {s t : State} (h : exec i s = .next t) (hb : s.busy = true) (hl : s.latched = .ok i)
    (hc : InCommand i s) (hs : Sound s) : Inv t := by
  have ended : Ends s t → Inv t := by
    rintro ⟨st, value, data, hp, rfl⟩
    exact .finish hs (hc.txnStep_none (by simp [hp])) _ _ _
  rcases exec_keeps h (wellFormed_of_decode hl) hc hs with hend | ⟨hi, hs'⟩
  · exact ended hend
  · rcases exec_endsOrGoesOn h with hend | ⟨hbusy, -⟩
    · exact ended hend
    · exact .of_inSequence hs' (hbusy.trans hb) ((exec_sameCommand h).latched.trans hl) hi

/-- The acceptance of a command changes none of the clauses. -/
theorem Sound.accept {s : State} (h : Sound s) (c : Command) : Sound (s.accept c) := { h with }

/-- An illegal command just accepted by a machine at rest. -/
theorem Inv.owesIllegal {s : State} (hs : Sound s) (hb : s.busy = true) (hstart : AtStart s) (ht : s.txnStep = .none) :
    Inv (s.owe .illegalCommand) := by
  obtain ⟨hr, hl, -⟩ := hstart
  exact { hs with
    resting := fun h => by simp [hb] at h
    running := fun _ => .inl ⟨hr, hl, rfl, ht⟩
    byteMode := fun _ => hl
    lineMode := fun _ => ⟨hr, ht⟩ }

/-- Where `IllegalCommand` is owed no transaction is open. -/
theorem Inv.txnStep_none {s : State} (h : Inv s) (hb : s.busy = true) (hp : s.point ≠ .txn) : s.txnStep = .none := by
  rcases h.running hb with ⟨-, -, -, hn⟩ | ⟨i, -, hi⟩
  · exact hn
  · exact hi.txnStep_none hp

theorem seqStep_keeps {s t : State} (h : seqStep s = .next t) (hi : Inv s) : Inv t := by
  rcases seqStep_cases h with ⟨-, rfl⟩ | ⟨hb, hp, rfl⟩ | ⟨hb, hp, i, hl, he⟩ | ⟨hb, c, rest, -, hcmd⟩
  · exact hi
  · exact .finish hi.sound (hi.txnStep_none hb (by simp [hp])) _ _ _
  · rcases hi.running hb with ⟨-, -, hq, -⟩ | ⟨j, hj, hseq⟩
    · exact absurd hq hp
    · obtain rfl : i = j := Except.ok.inj (hl.symm.trans hj)
      exact .of_exec he hb hl (.inr hseq) hi.sound
  · obtain ⟨hstart, ht⟩ := hi.resting hb
    rcases hcmd with ⟨i, hd, he⟩ | ⟨r, -, rfl⟩
    · exact .of_exec he rfl (latched_of_decode hd) (.inl ⟨hstart, ht⟩) (hi.sound.accept c)
    · exact .owesIllegal (hi.sound.accept c) rfl hstart ht

/-! ## The moves of the environment -/

/-- The command in progress stands at the same point where what was queued for it is still there. -/
theorem InSequence.withEnv {i : Instr} {s : State} {e : Env} (h : InSequence i s)
    (hq : s.env.channel.inbound ≠ [] → e.channel.inbound ≠ []) : InSequence i { s with env := e } := by
  cases i with
  | rdreg | wrreg | rdburst | wrburst | getbf | setbf => exact h
  | flush =>
    obtain ⟨hr, hl, ht, hp | ⟨hp, hin⟩ | hp⟩ := h
    · exact ⟨hr, hl, ht, .inl hp⟩
    · exact ⟨hr, hl, ht, .inr (.inl ⟨hp, hq hin⟩)⟩
    · exact ⟨hr, hl, ht, .inr (.inr hp)⟩
  | sendcmd text | senddata bytes =>
    obtain ⟨hr, ht, ⟨hl, hp⟩ | ⟨hl, hp⟩ | hend⟩ := h
    · exact .of_sending hr ht hl (hp.imp_right (.imp_left (.imp_right hq)))
    · exact .of_awaiting hr ht hl (hp.imp_right (.imp_right (.imp_right (.imp_left (.imp_right hq)))))
    · exact ⟨hr, ht, .inr (.inr hend)⟩

/-- A change of the environment that keeps the device canonical, the bus exclusive and the queue filled. -/
theorem Inv.withEnv {s : State} {e : Env} (h : Inv s) (hx : s.busOwned = true → e.otherOwns = false)
    (hq : s.env.channel.inbound ≠ [] → e.channel.inbound ≠ []) (hm : e.device.canonical = true) :
    Inv { s with env := e } where
  bus := h.bus
  exclusive := hx
  resting := h.resting
  running hb := (h.running hb).imp_right fun ⟨i, hl, hi⟩ => ⟨i, hl, hi.withEnv hq⟩
  buffer := h.buffer
  unclassified := h.unclassified
  byteMode := h.byteMode
  lineMode := h.lineMode
  memory := hm

theorem Device.settleAnswers_canonical (answers : List Byte) {d : Device} (h : d.canonical = true) :
    (d.settleAnswers answers).canonical = true := by
  cases d with
  | oracle pending => rfl
  | ref d => exact h

theorem Device.change_canonical (a : BitVec 7) (b : Byte) {d : Device} (h : d.canonical = true) :
    (d.change a b).canonical = true := by
  cases d with
  | oracle pending => rfl
  | ref d => exact Memory.write_wf _ _ _ h

theorem environmentMove_keeps {s : State} (m : Move) (hi : Inv s) : Inv (s.environmentMove m) := by
  cases m with
  | assertReset => exact .assertReset hi.memory
  | offer c => exact hi.withEnv hi.exclusive id hi.memory
  | releaseReset => exact hi.withEnv hi.exclusive id hi.memory
  | devAnswers answers => exact hi.withEnv hi.exclusive id (Device.settleAnswers_canonical answers hi.memory)
  | devStore a b => exact hi.withEnv hi.exclusive id (Device.change_canonical a b hi.memory)
  | otherBegin =>
    refine hi.withEnv (fun ho => ?_) id hi.memory
    simp [Env.move, ho, hi.exclusive ho]
  | otherEnd => exact hi.withEnv (fun _ => rfl) id hi.memory
  | arrive bytes => exact hi.withEnv hi.exclusive (List.append_ne_nil_of_left_ne_nil · bytes) hi.memory
  | tick us ms => exact hi.withEnv hi.exclusive id hi.memory

/-- Settles O50: a step of `SEQ` by the command in its latches, a turn of the environment by its move. -/
theorem stepKeepsTheInvariant : Obligations.StepKeepsTheInvariant := by
  intro s t hi h
  rcases seqTurn_or_envTurn s with hs | ⟨m, rest, hm⟩
  · rw [step_of_seqTurn hs] at h
    exact seqStep_keeps h hi.dropTurn
  · rw [step_of_envTurn hm] at h
    obtain rfl := Host.Outcome.next.inj h
    exact environmentMove_keeps m hi.dropTurn

/-- Settles O49: read off the invariant's clause on `TXN_STEP`, which rests with `BUSY = 0` and with `MODE = LINE`. -/
theorem busRegistersFollowTheTransaction : Obligations.BusRegistersFollowTheTransaction := by
  intro s hi
  have free : s.txnStep = .none → s.busOwned = false ∧ s.sel = .inactive := hi.bus.free
  refine ⟨fun hsel => ?_, fun hb => ?_, free, fun hm => ?_⟩
  · have hbus := hi.bus
    cases ht : s.txnStep <;> simp_all [BusAgrees]
  · obtain ⟨-, ht⟩ := hi.resting hb
    exact free ht
  · obtain ⟨-, ht⟩ := hi.lineMode hm
    exact free ht

end Sys2Proof.Machine
end

/-! # Proofs: the working registers

Two runs of a command that differ in the working registers and `RBUF` alone: the second is the first with other values `w` in
those registers (`State.withWorking`).  `Written i s w` says which of them the command has written by the point where `SEQ`
stands, so that the two agree there; a step reads no others (`exec_withWorking`). -/

section

namespace Sys2Proof.Machine

open Sys2Proof

/-- Values of the working registers (spec/10_state.md R22) and of `RBUF`. -/
structure Working where
  cur    : Byte
  mask   : Byte
  new    : Byte
  last   : Byte
  t0     : Ticks
  idx    : Half
  rxdata : List Byte
  rbuf   : List Byte

/-- The machine with these values in its working registers and `RBUF`. -/
def State.withWorking (w : Working) (s : State) : State :=
  { s with
    cur := w.cur, mask := w.mask, new := w.new, last := w.last, t0 := w.t0, idx := w.idx
    rxdata := w.rxdata, rbuf := w.rbuf }

section

variable (w : Working) (s : State)

@[simp] theorem State.withWorking_rbPhase : (s.withWorking w).rbPhase = s.rbPhase := rfl
@[simp] theorem State.withWorking_lpState : (s.withWorking w).lpState = s.lpState := rfl
@[simp] theorem State.withWorking_point : (s.withWorking w).point = s.point := rfl
@[simp] theorem State.withWorking_txnStep : (s.withWorking w).txnStep = s.txnStep := rfl
@[simp] theorem State.withWorking_cfg : (s.withWorking w).cfg = s.cfg := rfl
@[simp] theorem State.withWorking_env : (s.withWorking w).env = s.env := rfl
@[simp] theorem State.withWorking_cur : (s.withWorking w).cur = w.cur := rfl
@[simp] theorem State.withWorking_mask : (s.withWorking w).mask = w.mask := rfl
@[simp] theorem State.withWorking_new : (s.withWorking w).new = w.new := rfl
@[simp] theorem State.withWorking_last : (s.withWorking w).last = w.last := rfl
@[simp] theorem State.withWorking_t0 : (s.withWorking w).t0 = w.t0 := rfl
@[simp] theorem State.withWorking_idx : (s.withWorking w).idx = w.idx := rfl
@[simp] theorem State.withWorking_rxdata : (s.withWorking w).rxdata = w.rxdata := rfl
@[simp] theorem State.withWorking_rbuf : (s.withWorking w).rbuf = w.rbuf := rfl

end

/-- What the machine holds in them. -/
def State.working (s : State) : Working := ⟨s.cur, s.mask, s.new, s.last, s.t0, s.idx, s.rxdata, s.rbuf⟩

/-- A received byte goes to the same register. -/
def Working.capture (c : Capture) (b : Byte) (w : Working) : Working :=
  match c with
  | .discard => w
  | .rxdata => { w with rxdata := w.rxdata ++ [b] }
  | .cur => { w with cur := b }
  | .last => { w with last := b }

/-! ## Which registers a command has written -/

/-- The index of the payload position is written at the address byte. -/
def IdxWritten (s : State) (w : Working) : Prop := s.txnStep = .data → w.idx = s.idx

/-- The payload of the transaction has been received. -/
def BehindData (s : State) : Prop := s.txnStep = .desel ∨ s.txnStep = .rel ∨ s.point ≠ .txn

/-- The read byte, and what `SETBF` merges of it. -/
structure MergeWritten (s : State) (w : Working) : Prop where
  cur  : w.cur = s.cur
  mask : w.mask = s.mask
  new  : w.new = s.new

/-- The buffer of the wait is written at its entry, its sample of time at the first event. -/
def WaitWritten (s : State) (w : Working) : Prop :=
  s.lpState = .awaiting → w.rbuf = s.rbuf ∧ (s.point ≠ .sample → w.t0 = s.t0)

/-- The values agree with the registers that the command has written where `SEQ` stands. -/
def Written : Instr → State → Working → Prop
  | .rdreg _, s, w | .rdburst _ _, s, w => s.rbPhase = .plain → IdxWritten s w ∧ w.rxdata = s.rxdata
  | .wrreg _ _, s, w | .wrburst _ _, s, w => s.rbPhase = .plain → IdxWritten s w
  | .getbf _ _ _, s, w =>
    s.rbPhase = .bfRead → IdxWritten s w ∧ (BehindData s → w.cur = s.cur) ∧ (s.point ≠ .txn → w.mask = s.mask)
  | .setbf _ _ _ _ _, s, w =>
    (s.rbPhase = .bfRead → IdxWritten s w ∧ (BehindData s → w.cur = s.cur)) ∧
    (s.rbPhase = .bfWrite → IdxWritten s w ∧ MergeWritten s w) ∧
    (s.rbPhase = .bfPoll → IdxWritten s w ∧ MergeWritten s w ∧ w.last = s.last ∧ w.t0 = s.t0)
  | .flush, _, _ => True
  | .sendcmd _, s, w | .senddata _, s, w => WaitWritten s w

/-- With every phase at rest nothing need have been written. -/
theorem Written.of_idle (i : Instr) {s : State} (w : Working) (hr : s.rbPhase = .idle) (hl : s.lpState = .idle) :
    Written i s w := by
  cases i <;> simp [Written, WaitWritten, hr, hl]

/-! ## The bus step -/

/-- What the two runs agreed on inside the transaction they still agree on, and on what the step has written. -/
structure TxnFollows (c : Capture) (tx : List Byte) (s t : State) (w w' : Working) : Prop where
  idx    : IdxWritten t w'
  cur    : w.cur = s.cur → w'.cur = t.cur
  read   : c = .cur → tx ≠ [] → (BehindData s → w.cur = s.cur) → BehindData t → w'.cur = t.cur
  mask   : w.mask = s.mask → w'.mask = t.mask
  new    : w.new = s.new → w'.new = t.new
  last   : w.last = s.last → w'.last = t.last
  t0     : w.t0 = s.t0 → w'.t0 = t.t0
  rxdata : w.rxdata = s.rxdata → w'.rxdata = t.rxdata

/-- A step that writes no working register, inside a transaction or into its next step. -/
theorem TxnFollows.of_same {c : Capture} {tx : List Byte} {s t : State} {w : Working} (hsame : t.working = s.working)
    (hidx : IdxWritten t w) (hb : tx ≠ [] → BehindData t → BehindData s) : TxnFollows c tx s t w w := by
  simp only [State.working, Working.mk.injEq] at hsame
  obtain ⟨hc, hk, hn, hl, ht, -, hr, -⟩ := hsame
  exact ⟨hidx, hc ▸ id, fun _ hne hcur hbt => hc ▸ hcur (hb hne hbt), hk ▸ id, hn ▸ id, hl ▸ id, ht ▸ id, hr ▸ id⟩

/-- A bus step reads no working register but the index of the payload position. -/
theorem busStep_withWorking {wire : Byte} {tx : List Byte} {c : Capture} {released : State → State} {s t : State}
    {w : Working} (h : busStep wire tx c released s = .next t) (hw : IdxWritten s w) :
    (SameButBus c s t ∧ ∃ w', busStep wire tx c released (s.withWorking w) = .next (t.withWorking w') ∧
      TxnFollows c tx s t w w') ∨
    (s.txnStep = .rel ∧ ∃ u, u = { s with busOwned := false, txnStep := .none, trace := s.trace ++ [.endTxn] } ∧
      t = released u ∧ busStep wire tx c released (s.withWorking w) = .next (released (u.withWorking w))) := by
  have inside (hne : s.txnStep ≠ .rel) : SameButBus c s t := (busStep_frame h).resolve_right fun hr => hne hr.1
  rcases busStep_cases h with ⟨h1, ho, rfl⟩ | ⟨h1, ho, rfl⟩ | ⟨h1, rfl⟩ | ⟨h1, rfl, rfl⟩ | ⟨h1, hne, rfl⟩ |
    ⟨h1, b, hb, rfl⟩ | ⟨h1, rfl⟩ | ⟨h1, rfl⟩
  · exact .inl ⟨inside (by simp [h1]), w, by simp [busStep, h1, Env.busFree, ho], .of_same rfl hw fun _ => id⟩
  · exact .inl ⟨inside (by simp [h1]), w, by simp [busStep, h1, Env.busFree, ho]; rfl,
      .of_same rfl nofun (by simp_all [BehindData])⟩
  · exact .inl ⟨inside (by simp [h1]), w, by simp [busStep, h1]; rfl, .of_same rfl nofun (by simp_all [BehindData])⟩
  · exact .inl ⟨inside (by simp [h1]), w, by simp [busStep, h1]; rfl, .of_same rfl nofun fun hne => absurd rfl hne⟩
  · refine .inl ⟨inside (by simp [h1]), { w with idx := 0 }, by simp [busStep, h1, hne]; rfl, ?_⟩
    constructor <;> simp_all [IdxWritten, BehindData]
  · have hidx : w.idx = s.idx := hw h1
    refine .inl ⟨inside (by simp [h1]), { w.capture c (s.env.xfer b).1 with
      idx := if s.idx.toNat + 1 < tx.length then s.idx + 1 else s.idx }, ?_, ?_⟩
    · by_cases hl : s.idx.toNat + 1 < tx.length
      · cases c <;> simp [busStep, h1, hidx, hb, hl] <;> rfl
      · cases c <;> simp [busStep, h1, hidx, hb, hl] <;> simp [← hidx] <;> rfl
    · cases c <;> constructor <;> simp_all [IdxWritten, Working.capture, State.capture]
  · exact .inl ⟨inside (by simp [h1]), w, by simp [busStep, h1]; rfl, .of_same rfl nofun (by simp_all [BehindData])⟩
  · exact .inr ⟨h1, _, rfl, rfl, by simp [busStep, h1]; rfl⟩

/-! ## The register commands -/

section

variable {s t : State} {w : Working}

/-- The transaction of a plain command. -/
theorem plainTxn_withWorking {wire : Byte} {tx : List Byte} {c : Capture}
    (h : busStep wire tx c (State.owe .ok) s = .next t) (hw : IdxWritten s w) :
    ∃ w', busStep wire tx c (State.owe .ok) (s.withWorking w) = .next (t.withWorking w') ∧ IdxWritten t w' ∧
      (w.rxdata = s.rxdata → w'.rxdata = t.rxdata) := by
  rcases busStep_withWorking h hw with ⟨-, w', hx, hf⟩ | ⟨-, u, rfl, rfl, hx⟩
  · exact ⟨w', hx, hf.idx, hf.rxdata⟩
  · exact ⟨w, hx, nofun, id⟩

/-- The two runs of a command go on together. -/
def GoesAlong (i : Instr) (s : State) (w : Working) (t : State) : Prop :=
  ∃ w', exec i (s.withWorking w) = .next (t.withWorking w') ∧ Written i t w'

/-- The end of a command clears `RBUF` in both. -/
theorem GoesAlong.finish {i : Instr} {st : Status} {v : Byte} {d : List Byte}
    (h : exec i (s.withWorking w) = .next ((s.withWorking w).finish st v d)) : GoesAlong i s w (s.finish st v d) :=
  ⟨{ w with rbuf := [] }, h, .of_idle i _ rfl rfl⟩

theorem execRdreg_withWorking {addr : Byte} (h : execRdreg addr s = .next t) (hw : Written (.rdreg addr) s w) :
    GoesAlong (.rdreg addr) s w t := by
  rcases execRdreg_cases h with ⟨hr, hp, rfl⟩ | ⟨hr, hp, h⟩ | ⟨hr, hp, b, rest, hrx, rfl⟩
  · exact ⟨{ w with rxdata := [] }, by simp [exec, execRdreg, hr, hp]; rfl, fun _ => ⟨nofun, rfl⟩⟩
  · obtain ⟨hidx, hrx⟩ := hw hr
    obtain ⟨w', hx, hidx', hrx'⟩ := plainTxn_withWorking h hidx
    exact ⟨w', (rdreg_stepsTxn addr s.cfg w.new (s.withWorking w) hp hr rfl rfl).trans hx, fun _ => ⟨hidx', hrx' hrx⟩⟩
  · obtain ⟨-, hw⟩ := hw hr
    exact .finish (by simp [exec, execRdreg, hr, hp, hw, hrx])

theorem execRdburst_withWorking {addr : Byte} {count : Half} (h : execRdburst addr count s = .next t)
    (hw : Written (.rdburst addr count) s w) : GoesAlong (.rdburst addr count) s w t := by
  rcases execRdburst_cases h with ⟨hr, hp, rfl⟩ | ⟨hr, hp, h⟩ | ⟨hr, hp, rfl⟩
  · exact ⟨{ w with rxdata := [] }, by simp [exec, execRdburst, hr, hp]; rfl, fun _ => ⟨nofun, rfl⟩⟩
  · obtain ⟨hidx, hrx⟩ := hw hr
    obtain ⟨w', hx, hidx', hrx'⟩ := plainTxn_withWorking h hidx
    exact ⟨w', (rdburst_stepsTxn addr count s.cfg w.new (s.withWorking w) hp hr rfl rfl).trans hx, fun _ => ⟨hidx', hrx' hrx⟩⟩
  · obtain ⟨-, hw⟩ := hw hr
    exact .finish (by simp [exec, execRdburst, hr, hp, hw])

theorem execWrreg_withWorking {addr byte : Byte} (h : execWrreg addr byte s = .next t)
    (hw : Written (.wrreg addr byte) s w) : GoesAlong (.wrreg addr byte) s w t := by
  rcases execWrreg_cases h with ⟨hr, hp, rfl⟩ | ⟨hr, hp, h⟩ | ⟨hr, hp, rfl⟩
  · exact ⟨w, by simp [exec, execWrreg, hr, hp]; rfl, fun _ => nofun⟩
  · obtain ⟨w', hx, hidx', -⟩ := plainTxn_withWorking h (hw hr)
    exact ⟨w', (wrreg_stepsTxn addr byte s.cfg w.new (s.withWorking w) hp hr rfl rfl).trans hx, fun _ => hidx'⟩
  · exact .finish (by simp [exec, execWrreg, hr, hp])

theorem execWrburst_withWorking {addr : Byte} {bytes : List Byte} (h : execWrburst addr bytes s = .next t)
    (hw : Written (.wrburst addr bytes) s w) : GoesAlong (.wrburst addr bytes) s w t := by
  rcases execWrburst_cases h with ⟨hr, hp, rfl⟩ | ⟨hr, hp, h⟩ | ⟨hr, hp, rfl⟩
  · exact ⟨w, by simp [exec, execWrburst, hr, hp]; rfl, fun _ => nofun⟩
  · obtain ⟨w', hx, hidx', -⟩ := plainTxn_withWorking h (hw hr)
    exact ⟨w', (wrburst_stepsTxn addr bytes s.cfg w.new (s.withWorking w) hp hr rfl rfl).trans hx, fun _ => hidx'⟩
  · exact .finish (by simp [exec, execWrburst, hr, hp])

theorem fieldStart_withWorking (msb lsb : Byte) (s : State) (w : Working) :
    fieldStart msb lsb (s.withWorking w) = (fieldStart msb lsb s).withWorking w := by
  unfold fieldStart
  split <;> rfl

/-- Where a bit-field command has started nothing more need have been written than at its head. -/
theorem fieldStart_notBehindData (msb lsb : Byte) {s : State} (hr : s.rbPhase = .idle) :
    (fieldStart msb lsb s).rbPhase = .idle ∨
      ((fieldStart msb lsb s).rbPhase = .bfRead ∧ (fieldStart msb lsb s).txnStep = .acq ∧
        (fieldStart msb lsb s).point = .txn) := by
  rcases fieldStart_cases msb lsb s with ⟨-, e⟩ | ⟨-, e⟩ <;> rw [e]
  · exact .inr ⟨rfl, rfl, rfl⟩
  · exact .inl hr

theorem execGetbf_withWorking {addr msb lsb : Byte} (h : execGetbf addr msb lsb s = .next t)
    (hw : Written (.getbf addr msb lsb) s w) : GoesAlong (.getbf addr msb lsb) s w t := by
  rcases execGetbf_cases h with ⟨hr, hp, rfl⟩ | ⟨hr, hp, rfl⟩ | ⟨hr, hp, h⟩ | ⟨hr, hp, rfl⟩
  · refine ⟨w, by simp [exec, execGetbf, hr, hp, fieldStart_withWorking], ?_⟩
    rcases fieldStart_notBehindData msb lsb hr with hi | ⟨-, ht, hq⟩
    · simp [Written, hi]
    · simp [Written, IdxWritten, BehindData, ht, hq]
  · exact .finish (by simp [exec, execGetbf, hr, hp])
  · obtain ⟨hidx, hcur, -⟩ := hw hr
    have hexec := getbf_stepsTxn addr msb lsb s.cfg w.new (s.withWorking w) hp hr rfl rfl
    rcases busStep_withWorking h hidx with ⟨hf, w', hx, hfol⟩ | ⟨hrel, u, rfl, rfl, hx⟩
    · refine ⟨w', hexec.trans hx, fun _ => ⟨hfol.idx, hfol.read rfl (by simp [fillers]) hcur, fun hq => ?_⟩⟩
      exact absurd (hf.point.trans hp) hq
    · exact ⟨{ w with mask := fieldMask msb lsb }, hexec.trans hx,
        fun _ => ⟨nofun, fun _ => hcur (.inr (.inl hrel)), fun _ => rfl⟩⟩
  · obtain ⟨-, hcur, hmask⟩ := hw hr
    have hpoint : s.point ≠ .txn := by simp [hp]
    exact .finish (by simp [exec, execGetbf, hr, hp, hcur (.inr (.inr hpoint)), hmask hpoint])

/-- The comparison reads `LAST` and `NEW`. -/
theorem setbfCompare_withWorking (hl : w.last = s.last) (hn : w.new = s.new) :
    setbfCompare (s.withWorking w) = (setbfCompare s).withWorking w := by
  simp [setbfCompare, State.withWorking, hl, hn]
  split <;> rfl

/-- The window test reads `T0`. -/
theorem setbfWindow_withWorking (win : Half) (ht : w.t0 = s.t0) :
    setbfWindow win (s.withWorking w) = (setbfWindow win s).withWorking w := by
  rcases setbfWindow_cases win s with ⟨hwin, hd, e⟩ | ⟨hwin, hd, e⟩ | ⟨hwin, e⟩ <;> rw [e]
  · simp [setbfWindow, State.withWorking, State.emit, ht, hwin, hd]
  · simp [setbfWindow, State.withWorking, State.emit, State.owe, ht, hwin, hd]
  · simp [setbfWindow, State.withWorking, State.emit, State.openTxn, ht, hwin]

/-- During its poll `SETBF` has written every register of the bit-field engine. -/
theorem Written.of_poll {addr value msb lsb : Byte} {win : Half} (hr : s.rbPhase = .bfPoll) (hi : IdxWritten s w)
    (hm : MergeWritten s w) (hl : w.last = s.last) (ht : w.t0 = s.t0) : Written (.setbf addr value msb lsb win) s w :=
  ⟨fun h => by simp [hr] at h, fun h => by simp [hr] at h, fun _ => ⟨hi, hm, hl, ht⟩⟩

theorem Written.of_write {addr value msb lsb : Byte} {win : Half} (hr : s.rbPhase = .bfWrite) (hi : IdxWritten s w)
    (hm : MergeWritten s w) : Written (.setbf addr value msb lsb win) s w :=
  ⟨fun h => by simp [hr] at h, fun _ => ⟨hi, hm⟩, fun h => by simp [hr] at h⟩

theorem Written.of_read {addr value msb lsb : Byte} {win : Half} (hr : s.rbPhase = .bfRead) (hi : IdxWritten s w)
    (hc : BehindData s → w.cur = s.cur) : Written (.setbf addr value msb lsb win) s w :=
  ⟨fun _ => ⟨hi, hc⟩, fun h => by simp [hr] at h, fun h => by simp [hr] at h⟩

theorem TxnFollows.merge {c : Capture} {tx : List Byte} {w' : Working} (h : TxnFollows c tx s t w w')
    (hm : MergeWritten s w) : MergeWritten t w' :=
  ⟨h.cur hm.cur, h.mask hm.mask, h.new hm.new⟩

theorem execSetbf_withWorking {addr value msb lsb : Byte} {win : Half} (h : execSetbf addr value msb lsb win s = .next t)
    (hw : Written (.setbf addr value msb lsb win) s w) : GoesAlong (.setbf addr value msb lsb win) s w t := by
  obtain ⟨hread, hwrite, hpoll⟩ := hw
  rcases execSetbf_cases h with ⟨hr, hp, rfl⟩ | ⟨hr, hp, rfl⟩ | ⟨hr, hp, h⟩ | ⟨hr, hp, h⟩ | ⟨hr, hp, rfl⟩ | ⟨hr, hp, rfl⟩ |
    ⟨hr, hp, h⟩ | ⟨hr, hp, rfl⟩ | ⟨hr, hp, rfl⟩ | ⟨hr, hp, rfl⟩
  · refine ⟨w, by simp [exec, execSetbf, hr, hp, fieldStart_withWorking], ?_⟩
    rcases fieldStart_notBehindData msb lsb hr with hi | ⟨hr', ht, hq⟩
    · simp [Written, hi]
    · exact .of_read hr' (by simp [IdxWritten, ht]) (by simp [BehindData, ht, hq])
  · exact .finish (by simp [exec, execSetbf, hr, hp])
  · obtain ⟨hidx, hcur⟩ := hread hr
    have hexec := setbf_read_stepsTxn addr value msb lsb win s.cfg w.new (s.withWorking w) hp hr rfl rfl
    rcases busStep_withWorking h hidx with ⟨hf, w', hx, hfol⟩ | ⟨hrel, u, rfl, rfl, hx⟩
    · exact ⟨w', hexec.trans hx, .of_read (hf.rbPhase.trans hr) hfol.idx (hfol.read rfl (by simp [fillers]) hcur)⟩
    · have hc : w.cur = s.cur := hcur (.inr (.inl hrel))
      exact ⟨{ w with mask := fieldMask msb lsb, new := mergeField w.cur value msb lsb }, hexec.trans hx, .of_write rfl nofun ⟨hc, rfl, congrArg (mergeField · value msb lsb) hc⟩⟩
  · obtain ⟨hidx, hm⟩ := hwrite hr
    have hexec := setbf_write_stepsTxn addr value msb lsb win s.cfg s.new (s.withWorking w) hp hr rfl hm.new
    rcases busStep_withWorking h hidx with ⟨hf, w', hx, hfol⟩ | ⟨-, u, rfl, rfl, hx⟩
    · exact ⟨w', hexec.trans hx, .of_write (hf.rbPhase.trans hr) hfol.idx (hfol.merge hm)⟩
    · exact ⟨w, hexec.trans hx, .of_write hr nofun { hm with }⟩
  · obtain ⟨hidx, hm⟩ := hwrite hr
    exact ⟨{ w with t0 := s.env.clock.nowUs, last := 0x00 }, by simp [exec, execSetbf, hr, hp]; rfl,
      .of_poll rfl hidx { hm with } rfl rfl⟩
  · obtain ⟨hidx, hm, hl, ht⟩ := hpoll hr
    refine ⟨w, by simp [exec, execSetbf, hr, hp, setbfWindow_withWorking win ht], ?_⟩
    rcases setbfWindow_cases win s with ⟨-, -, e⟩ | ⟨-, -, e⟩ | ⟨-, e⟩ <;> rw [e]
    · exact .of_poll hr hidx { hm with } hl ht
    · exact .of_poll hr hidx { hm with } hl ht
    · exact .of_poll hr nofun { hm with } hl ht
  · obtain ⟨hidx, hm, hl, ht⟩ := hpoll hr
    have hexec := setbf_poll_stepsTxn addr value msb lsb win s.cfg w.new (s.withWorking w) hp hr rfl rfl
    rcases busStep_withWorking h hidx with ⟨hf, w', hx, hfol⟩ | ⟨-, u, hu, rfl, hx⟩
    · exact ⟨w', hexec.trans hx, .of_poll (hf.rbPhase.trans hr) hfol.idx (hfol.merge hm) (hfol.last hl) (hfol.t0 ht)⟩
    · rw [setbfCompare_withWorking (by simp [hu, hl]) (by simp [hu, hm.new])] at hx
      refine ⟨w, hexec.trans hx, ?_⟩
      subst hu
      rcases setbfCompare_cases { s with busOwned := false, txnStep := .none, trace := s.trace ++ [.endTxn] } with
        ⟨-, e⟩ | ⟨-, e⟩ <;> rw [e]
      · exact .of_poll hr nofun { hm with } hl ht
      · exact .of_poll hr nofun { hm with } hl ht
  · obtain ⟨hidx, hm, hl, ht⟩ := hpoll hr
    refine ⟨w, ?_, .of_poll hr hidx { hm with } hl ht⟩
    simp [exec, execSetbf, hr, hp, setbfRecord, State.withWorking, State.emit, State.owe, hm.cur, hm.mask, hm.new, hl]
  · exact .finish (by simp [exec, execSetbf, hr, hp])
  · exact .finish (by simp [exec, execSetbf, hr, hp])

/-! ## The line commands -/

theorem flushReadStep_withWorking (h : flushReadStep s = .next t) :
    flushReadStep (s.withWorking w) = .next (t.withWorking w) := by
  obtain ⟨b, rest, hq, rfl⟩ := flushReadStep_cases h
  simp [flushReadStep, Env.rdByte, hq]
  rfl

theorem execFlush_withWorking (h : execFlush s = .next t) : GoesAlong .flush s w t := by
  rcases execFlush_cases h with ⟨hl, hp, rfl⟩ | ⟨hl, hp, h⟩ | ⟨hl, hp, h⟩ | ⟨hl, hp, rfl⟩
  · exact ⟨w, by simp [exec, execFlush, hl, hp]; rfl, trivial⟩
  · refine ⟨w, ?_, trivial⟩
    rcases flushAvailStep_cases h with ⟨hn, rfl⟩ | ⟨hn, rfl⟩ <;>
      simp [exec, execFlush, flushAvailStep, hl, hp, hn] <;> rfl
  · exact ⟨w, by simpa [exec, execFlush, hl, hp] using flushReadStep_withWorking h, trivial⟩
  · exact .finish (by simp [exec, execFlush, hl, hp])

/-- The next byte to send, or the wait, whose entry clears `RBUF` in both runs. -/
theorem toSend_withWorking (payload term : List Byte) (hl : s.lpState = .sending) :
    ∃ w', (s.withWorking w).toSend payload term = (s.toSend payload term).withWorking w' ∧
      WaitWritten (s.toSend payload term) w' := by
  have sending : s.lpState ≠ .awaiting := by simp [hl]
  rcases s.toSend_cases payload term with ⟨hne, e⟩ | ⟨rfl, hne, e⟩ | ⟨rfl, rfl, e⟩ <;> rw [e]
  · exact ⟨w, by simp [State.toSend, hne]; rfl, fun h => absurd h sending⟩
  · exact ⟨w, by simp [State.toSend, hne]; rfl, fun h => absurd h sending⟩
  · exact ⟨{ w with rbuf := [] }, rfl, fun _ => ⟨rfl, fun hq => absurd rfl hq⟩⟩

/-- A byte received in the wait is judged with the same buffer. -/
theorem receive_withWorking (b : Byte) (hb : w.rbuf = s.rbuf) (ht : w.t0 = s.t0) :
    ∃ w', (s.withWorking w).receive b = (s.receive b).withWorking w' ∧ WaitWritten (s.receive b) w' := by
  rcases s.receive_cases b with ⟨hcls, e⟩ | ⟨hcls, e⟩ | ⟨hcls, e⟩ <;> rw [e]
  · exact ⟨{ w with rbuf := [] }, by simp [State.receive, hb, hcls]; rfl, nofun⟩
  · exact ⟨{ w with rbuf := [] }, by simp [State.receive, hb, hcls]; rfl, nofun⟩
  · exact ⟨{ w with rbuf := s.rbuf ++ [b] }, by simp [State.receive, hb, hcls]; rfl, fun _ => ⟨rfl, fun _ => ht⟩⟩

/-- A step of an exchange reads `RBUF` and `T0` in the wait alone; its end is that of the command. -/
theorem exchangeStep_withWorking {payload : List Byte} (h : exchangeStep payload s = .next t) (hw : WaitWritten s w) :
    ∃ w', exchangeStep payload (s.withWorking w) = .next (t.withWorking w') ∧ WaitWritten t w' := by
  have goesOn (hl : s.lpState = .sending) {u : State} (hu : u.lpState = s.lpState) : WaitWritten u w :=
    fun ha => by simp [hu, hl] at ha
  rcases exchangeStep_cases h with ⟨hl, hp, rfl⟩ | ⟨hl, hp, h⟩ | ⟨hl, hp, h⟩ | ⟨hl, b, rest, hp, rfl⟩ |
    ⟨hl, b, rest, hp, rfl⟩ | ⟨hl, hp, rfl⟩ | ⟨hl, hp, h⟩ | ⟨hl, hp, h⟩ | ⟨hl, hp, h⟩ | ⟨hl, b, hp, rfl⟩ | ⟨hl, hp, rfl⟩ |
    ⟨hl, hp, rfl⟩
  · exact ⟨w, by simp [exchangeStep, hl, hp]; rfl, nofun⟩
  · rcases flushAvailStep_cases h with ⟨hn, rfl⟩ | ⟨hn, rfl⟩
    · obtain ⟨w', e, hw'⟩ := toSend_withWorking (w := w) payload s.cfg.lineTerm
        (s := { s with env := s.env.avail.2, trace := s.trace ++ [.avail 0] }) hl
      refine ⟨w', ?_, hw'⟩
      rw [← e]
      simp [exchangeStep, hl, hp, flushAvailStep, hn]
      rfl
    · exact ⟨w, by simp [exchangeStep, hl, hp, flushAvailStep, hn]; rfl, goesOn hl rfl⟩
  · obtain ⟨b, rest, -, rfl⟩ := flushReadStep_cases h
    exact ⟨w, by simpa [exchangeStep, hl, hp] using flushReadStep_withWorking h, goesOn hl rfl⟩
  · obtain ⟨w', e, hw'⟩ := toSend_withWorking rest s.cfg.lineTerm (s := s.sendByte payload rest b) hl
      (w := { w with idx := BitVec.ofNat 16 (payload.length - (rest.length + 1)) })
    exact ⟨w', by rw [← e]; simp [exchangeStep, hl, hp]; rfl, hw'⟩
  · obtain ⟨w', e, hw'⟩ := toSend_withWorking [] rest (s := s.sendByte s.cfg.lineTerm rest b) hl
      (w := { w with idx := BitVec.ofNat 16 (s.cfg.lineTerm.length - (rest.length + 1)) })
    exact ⟨w', by rw [← e]; simp [exchangeStep, hl, hp]; rfl, hw'⟩
  · obtain ⟨hb, -⟩ := hw hl
    exact ⟨{ w with t0 := s.env.clock.nowMs }, by simp [exchangeStep, hl, hp, State.sampleMs]; rfl, fun _ => ⟨hb, fun _ => rfl⟩⟩
  · obtain ⟨hb, ht⟩ := hw hl
    have ht := ht (by simp [hp])
    rcases awaitWindowStep_cases h with ⟨hwin, rfl⟩ | ⟨hwin, rfl⟩
    · exact ⟨{ w with rbuf := [] }, by simp [exchangeStep, hl, hp, awaitWindowStep, ht, hwin, State.withWorking, State.emit], nofun⟩
    · exact ⟨w, by simp [exchangeStep, hl, hp, awaitWindowStep, ht, hwin, State.withWorking, State.emit], fun _ => ⟨hb, fun _ => ht⟩⟩
  · obtain ⟨hb, ht⟩ := hw hl
    have ht := ht (by simp [hp])
    rcases awaitPollStep_cases h with ⟨hn, rfl⟩ | ⟨hn, rfl⟩ <;>
      exact ⟨w, by simp [exchangeStep, hl, hp, awaitPollStep, hn]; rfl, fun _ => ⟨hb, fun _ => ht⟩⟩
  · obtain ⟨hb, ht⟩ := hw hl
    have ht := ht (by simp [hp])
    obtain ⟨b, rest, hq, ⟨hd, rfl⟩ | ⟨hd, rfl⟩⟩ := awaitReadStep_cases h
    · exact ⟨w, by simp [exchangeStep, hl, hp, awaitReadStep, Env.rdByte, hq, hd]; rfl, fun _ => ⟨hb, fun _ => ht⟩⟩
    · obtain ⟨w', e, hw'⟩ := receive_withWorking (w := w) b (s := { s with
          env := { s.env with channel := { s.env.channel with inbound := rest } }
          trace := s.trace ++ [.rdByte b] }) hb ht
      refine ⟨w', ?_, hw'⟩
      rw [← e]
      simp [exchangeStep, hl, hp, awaitReadStep, Env.rdByte, hq, hd]
      rfl
  · obtain ⟨hb, ht⟩ := hw hl
    obtain ⟨w', e, hw'⟩ := receive_withWorking (w := w) b (s := s.emit (.dbgByte b)) hb (ht (by simp [hp]))
    exact ⟨w', by rw [← e]; simp [exchangeStep, hl, hp]; rfl, hw'⟩
  · exact ⟨{ w with rbuf := [] }, by simp [exchangeStep, hl, hp]; rfl, nofun⟩
  · exact ⟨{ w with rbuf := [] }, by simp [exchangeStep, hl, hp]; rfl, nofun⟩

/-! ## Every command -/

/-- A step of a command reads no register that it has not written. -/
theorem exec_withWorking {i : Instr} (h : exec i s = .next t) (hw : Written i s w) : GoesAlong i s w t := by
  cases i with
  | rdreg addr => exact execRdreg_withWorking h hw
  | wrreg addr byte => exact execWrreg_withWorking h hw
  | rdburst addr count => exact execRdburst_withWorking h hw
  | wrburst addr bytes => exact execWrburst_withWorking h hw
  | getbf addr msb lsb => exact execGetbf_withWorking h hw
  | setbf addr value msb lsb win => exact execSetbf_withWorking h hw
  | flush => exact execFlush_withWorking h
  | sendcmd text | senddata bytes => exact exchangeStep_withWorking h hw

/-- The two runs go on together for any number of steps. -/
theorem execFor_withWorking {i : Instr} {n : Nat} (h : execFor i n s = .next t) (hw : Written i s w) :
    ∃ w', execFor i n (s.withWorking w) = .next (t.withWorking w') := by
  induction n generalizing s w with
  | zero =>
    obtain rfl := Host.Outcome.next.inj h
    exact ⟨w, rfl⟩
  | succ n ih =>
    obtain ⟨u, he, hx⟩ := execFor_succ_cases h
    obtain ⟨w', he', hw'⟩ := exec_withWorking he hw
    rw [execFor_succ n he']
    exact ih hx hw'

end

/-- Settles O60: at its head a command has written none of them, and from there the two runs go on together. -/
theorem workingRegistersAreWrittenBeforeTheyAreRead : Obligations.WorkingRegistersAreWrittenBeforeTheyAreRead := by
  rintro i n s t cur mask new last t0 idx rxdata rbuf ⟨hr, hl, -⟩ h
  obtain ⟨w', hx⟩ := execFor_withWorking h (.of_idle i ⟨cur, mask, new, last, t0, idx, rxdata, rbuf⟩ hr hl)
  exact ⟨_, hx, rfl, rfl, rfl, rfl⟩

end Sys2Proof.Machine
end

/-! # Proofs: whole register commands

`RDREG`, `WRREG` and `GETBF` are a start, one transaction (`execFor_txn`) and a `Result`.  `SETBF` is the read, the write and a
number of unmatched polls (`execFor_setbf_polled`), and then the poll that matches or the test that finds the window elapsed.
What the ideal `RefDevice` makes of them is read off these runs. -/

section

namespace Sys2Proof.Machine

open Sys2Proof

/-! ## The plain commands of one byte -/

/-- Settles O23: its start, its transaction of one filler byte, its `Result`. -/
theorem rdregIsOneReadTransaction : Obligations.RdregIsOneReadTransaction := by
  rintro addr s r ⟨hr, -, hp⟩ ho rfl
  have hstart : exec (.rdreg addr) s =
      .next { s with rbPhase := .plain, rxdata := [], txnStep := .acq, point := .txn } := by
    simp [exec, execRdreg, hr, hp, State.openTxn]
  have htxn := execFor_txn (rdreg_stepsTxn addr s.cfg s.new) (by simp)
    { s with rbPhase := .plain, rxdata := [], txnStep := .acq, point := .txn } rfl rfl rfl rfl rfl ho
  refine (execFor_succ (1 + 5 + 1) hstart).trans ((execFor_add _ 1 htxn).trans ?_)
  simp [execFor, exec, execRdreg, State.captureAll, State.owe, State.finish, State.ready, Status.code, idxAfter,
    Env.transaction_one]

/-- Settles O24: its start, its transaction of its byte, its `Result`. -/
theorem wrregIsOneWriteTransaction : Obligations.WrregIsOneWriteTransaction := by
  rintro addr byte s r ⟨hr, -, hp⟩ ho rfl
  have hstart : exec (.wrreg addr byte) s = .next { s with rbPhase := .plain, txnStep := .acq, point := .txn } := by
    simp [exec, execWrreg, hr, hp, State.openTxn]
  have htxn := execFor_txn (wrreg_stepsTxn addr byte s.cfg s.new) (by simp)
    { s with rbPhase := .plain, txnStep := .acq, point := .txn } rfl rfl rfl rfl rfl ho
  refine (execFor_succ (1 + 5 + 1) hstart).trans ((execFor_add _ 1 htxn).trans ?_)
  simp [execFor, exec, execWrreg, State.captureAll, State.owe, State.finish, State.ready, Status.code, idxAfter]

/-- Settles O31: a valid range opens the transaction, an invalid one owes its `Result` at once. -/
theorem getbfDeliversTheField : Obligations.GetbfDeliversTheField := by
  rintro addr msb lsb s r ⟨hr, hl, hp⟩ rfl
  constructor
  · intro hv ho
    have hstart : exec (.getbf addr msb lsb) s = .next { s with rbPhase := .bfRead, txnStep := .acq, point := .txn } := by
      simp [exec, execGetbf, hr, hp, fieldStart, hv, State.openTxn]
    have htxn := execFor_txn (getbf_stepsTxn addr msb lsb s.cfg s.new) (by simp)
      { s with rbPhase := .bfRead, txnStep := .acq, point := .txn } rfl rfl rfl rfl rfl ho
    refine (execFor_succ (1 + 5 + 1) hstart).trans ((execFor_add _ 1 htxn).trans ?_)
    simp [execFor, exec, execGetbf, State.captureAll, State.owe, State.finish, State.ready, Status.code, idxAfter,
      Env.transaction_one, extractField]
  · intro hv
    simp [execFor, exec, execGetbf, hr, hl, hp, fieldStart, hv, State.owe, State.finish, Status.code]

/-! ## `SETBF` -/

/-- `SETBF` right before its `n`-th window test: the `n` poll reads behind it did not match. -/
def State.polled (addr msb lsb : Byte) (r : SetbfRun) (n : Nat) (s : State) : State :=
  { s with
    rbPhase := .bfPoll, txnStep := .none, point := .window, busOwned := false, sel := .inactive
    cur := r.read.byte, mask := fieldMask msb lsb, new := r.new
    last := if n = 0 then 0x00 else (pollRun s.cfg addr r.env (n - 1)).byte
    t0 := r.t0, idx := 0
    env := pollEnv s.cfg addr r.env n
    trace := s.trace ++ r.events s.cfg addr ++ (List.range n).flatMap (pollEvents s.cfg addr r.env) }

theorem setbfRun_otherOwns (addr value msb lsb : Byte) (s : State) :
    (setbfRun addr value msb lsb s).env.otherOwns = s.env.otherOwns := by
  simp [SetbfRun.env, setbfRun, Env.transaction_frame]

/-- `SETBF` comes to its `n`-th window test where none before has elapsed and no poll read before has matched. -/
theorem execFor_setbf_polled {addr value msb lsb : Byte} {win : Half} {s : State} {n : Nat} {r : SetbfRun}
    (hv : validRange msb lsb = true) (hs : AtStart s) (ho : s.env.otherOwns = false)
    (hr : r = setbfRun addr value msb lsb s) (hw : ∀ k < n, pollElapsed s.cfg addr win r.t0 r.env k = false)
    (hne : ∀ k < n, (pollRun s.cfg addr r.env k).byte ≠ r.new) :
    execFor (.setbf addr value msb lsb win) (14 + 7 * n) s = .next (s.polled addr msb lsb r n) := by
  have hfree : r.env.otherOwns = false := by rw [hr, setbfRun_otherOwns, ho]
  have hwritten : execFor (.setbf addr value msb lsb win) 14 s = .next (s.polled addr msb lsb r 0) := by
    simpa [State.polled, pollEnv] using execFor_setbf_prefix addr value msb lsb win s r hv hs ho hr
  have hpolls := execFor_setbf_polls addr value msb lsb win (s.polled addr msb lsb r 0) r.env n rfl rfl hfree rfl rfl rfl rfl
    rfl rfl hw hne
  rw [execFor_add _ _ hwritten, hpolls]
  simp [State.polled]

/-- Settles O32: `n` polls that do not match, the one that does, and the `Result`. -/
theorem setbfEndsAtTheFirstMatch : Obligations.SetbfEndsAtTheFirstMatch := by
  intro addr value msb lsb win s n r hv hs ho hr hw hne heq
  have hpolled := execFor_setbf_polled hv hs ho hr (fun k hk => hw k hk.le) hne
  have hmatched := execFor_setbf_poll addr value msb lsb win (s.polled addr msb lsb r n) _ rfl rfl
    (by simp [State.polled, hr, setbfRun_otherOwns, ho]) (hw n le_rfl) rfl
  rw [show 22 + 7 * n = 14 + 7 * n + (7 + 1) by omega, execFor_add _ _ hpolled, execFor_add _ 1 hmatched]
  simp only [pollRun] at heq
  simp [execFor, exec, execSetbf, State.polled, heq, State.finish, State.ready, Status.code, List.range_succ, pollEvents,
    pollRun, pollEnv]

/-- Settles O33: `n` polls that do not match, the test that finds the window elapsed, the diagnosis and the `Result`. -/
theorem setbfFailsWhenTheWindowElapses : Obligations.SetbfFailsWhenTheWindowElapses := by
  rintro addr value msb lsb win s n r last hv hs ho hr hw hne hel rfl
  have hpolled := execFor_setbf_polled hv hs ho hr hw hne
  rw [show 16 + 7 * n = 14 + 7 * n + 2 by omega, Nat.add_assoc, execFor_add _ _ hpolled]
  simp only [pollElapsed] at hel
  cases hd : s.cfg.debugEn <;>
    simp [execFor, exec, execSetbf, State.polled, setbfWindow, hel, hd, State.owe, State.emit, State.finish, State.ready,
      Status.code, setbfRecord]

/-! ## A clock that runs -/

/-- The window test between two readings of a running count: what passed in between, modulo `2^32`, against the limit. -/
theorem windowElapsed_ofNat (start d : Nat) (limit : Ticks) :
    windowElapsed (BitVec.ofNat 32 (start + d)) (BitVec.ofNat 32 start) limit = decide (limit.toNat ≤ d % 2 ^ 32) := by
  have : BitVec.ofNat 32 (start + d) - BitVec.ofNat 32 start = BitVec.ofNat 32 d := by
    rw [BitVec.ofNat_add, BitVec.add_comm, BitVec.add_sub_cancel]
  simp [windowElapsed, this]

/-- Where each transfer costs time and none jumps the window, some test finds it elapsed. -/
theorem exists_pollElapsed {cfg : DeviceHandle} {addr : Byte} {win : Half} {e : Env} {tau x p : Nat}
    (hc : e.clock = .ref tau x p) (hx : 1 ≤ x) (hjump : win.toNat + 2 * x ≤ 2 ^ 32) :
    ∃ k, pollElapsed cfg addr win (BitVec.ofNat 32 tau) e k = true := by
  let k := (win.toNat + (2 * x - 1)) / (2 * x)
  have hle : 2 * x * k ≤ win.toNat + (2 * x - 1) := Nat.mul_div_le _ _
  have hlt : win.toNat + (2 * x - 1) < 2 * x * (k + 1) := Nat.lt_mul_div_succ _ (by omega)
  rw [Nat.mul_succ] at hlt
  refine ⟨k, ?_⟩
  rw [pollElapsed, pollEnv_clock cfg addr e tau x p k hc, Clock.nowUs, windowElapsed_ofNat, decide_eq_true_eq,
    Nat.mod_eq_of_lt (by omega)]
  simp
  omega

/-- The clock at which the poll begins is that at which `T0` was sampled. -/
theorem setbfRun_clock {addr value msb lsb : Byte} {s : State} {tau x p : Nat} (hc : s.env.clock = .ref tau x p) :
    ∃ tau', (setbfRun addr value msb lsb s).t0 = BitVec.ofNat 32 tau' ∧
      (setbfRun addr value msb lsb s).env.clock = .ref tau' x p := by
  have h1 := Env.transaction_one_clock (addr ||| s.cfg.cmdRead) s.cfg.filler s.env tau x p hc
  have h2 := Env.transaction_one_clock (addr ||| s.cfg.cmdWrite) (setbfRun addr value msb lsb s).new _ _ x p h1
  refine ⟨tau + 2 * x + 2 * x, ?_, ?_⟩
  · simp only [SetbfRun.t0, setbfRun] at h2 ⊢; rw [h2]; rfl
  · simp only [SetbfRun.env, setbfRun, Env.nowUs_clock] at h2 ⊢; rw [h2]; rfl

/-- The poll goes no further than round `k`: its test finds the window elapsed, or its read matches. -/
def SetbfRun.stopsAt (r : SetbfRun) (cfg : DeviceHandle) (addr : Byte) (win : Half) (k : Nat) : Bool :=
  pollElapsed cfg addr win r.t0 r.env k || (pollRun cfg addr r.env k).byte == r.new

theorem SetbfRun.stopsAt_eq_false {r : SetbfRun} {cfg : DeviceHandle} {addr : Byte} {win : Half} {k : Nat} :
    r.stopsAt cfg addr win k = false ↔
      pollElapsed cfg addr win r.t0 r.env k = false ∧ (pollRun cfg addr r.env k).byte ≠ r.new := by
  simp [SetbfRun.stopsAt]

/-- Settles O36: in the first round that stops the poll the window has elapsed (O33) or the read matches (O32). -/
theorem setbfEndsOnARunningClock : Obligations.SetbfEndsOnARunningClock := by
  intro addr value msb lsb win s tau x p hv hs ho hc hx hjump
  obtain ⟨r, hr⟩ : ∃ r, r = setbfRun addr value msb lsb s := ⟨_, rfl⟩
  obtain ⟨tau', ht, hc'⟩ := setbfRun_clock (addr := addr) (value := value) (msb := msb) (lsb := lsb) hc
  rw [← hr] at ht hc'
  have hex : ∃ k, r.stopsAt s.cfg addr win k = true := by
    obtain ⟨k, hk⟩ := exists_pollElapsed (cfg := s.cfg) (addr := addr) hc' hx hjump
    exact ⟨k, by simp [SetbfRun.stopsAt, ht, hk]⟩
  obtain ⟨n, hn, hmin⟩ : ∃ n, r.stopsAt s.cfg addr win n = true ∧ ∀ k < n, r.stopsAt s.cfg addr win k = false :=
    ⟨Nat.find hex, Nat.find_spec hex, fun k hk => by simpa using Nat.find_min hex hk⟩
  have hw : ∀ k < n, pollElapsed s.cfg addr win r.t0 r.env k = false := fun k hk =>
    (SetbfRun.stopsAt_eq_false.mp (hmin k hk)).1
  have hne : ∀ k < n, (pollRun s.cfg addr r.env k).byte ≠ r.new := fun k hk =>
    (SetbfRun.stopsAt_eq_false.mp (hmin k hk)).2
  cases hel : pollElapsed s.cfg addr win r.t0 r.env n with
  | true =>
    exact ⟨_, _, setbfFailsWhenTheWindowElapses addr value msb lsb win s n r _ hv hs ho hr hw hne hel rfl, rfl,
      .inr List.getLast?_concat⟩
  | false =>
    have hmatch : (pollRun s.cfg addr r.env n).byte = r.new := by simpa [SetbfRun.stopsAt, hel] using hn
    have hw' : ∀ k ≤ n, pollElapsed s.cfg addr win r.t0 r.env k = false := fun k hk =>
      hk.lt_or_eq.elim (hw k) (· ▸ hel)
    exact ⟨_, _, setbfEndsAtTheFirstMatch addr value msb lsb win s n r hv hs ho hr hw' hne hmatch, rfl,
      .inl List.getLast?_concat⟩

/-! ## The ideal `RefDevice` -/

/-- A write transaction of one byte is answered with zeros. -/
theorem Env.write_answer (a b : Byte) (e : Env) (d : RefDevice) (hd : e.device = .ref d) (ha : a.toNat < 128) :
    (e.transaction (a ||| 0x80) [b]).byte = 0 := by
  have hbit : (a ||| 128#8)[7] = true := (addr_bits a ha).2.1
  simp [Env.transaction, Env.transfers, TxnRun.byte, Env.xfer, Env.answer, Env.beginTxn, Env.selAssert, hd,
    RefDevice.beginTxn, RefDevice.selAssert, RefDevice.xfer, RefDevice.target, hbit]

/-- Settles O28: the write stores the byte, and the read that follows delivers the register. -/
theorem wrregThenRdregOnTheIdealDevice : Obligations.WrregThenRdregOnTheIdealDevice := by
  intro addr byte s d hs ho hd hi hwf hcr hcw ha
  obtain ⟨d', hd', hi', hreg⟩ := Env.write_ideal addr byte s.env d hd hi ha
  obtain ⟨hread, -⟩ := Env.read_ideal addr s.cfg.filler _ d' hd' hi' ha
  have hwrite := wrregIsOneWriteTransaction addr byte s _ hs ho rfl
  have hor : addr ||| s.cfg.cmdRead = addr := by simp [hcr]
  rw [hcw] at hwrite
  refine ⟨_, _, d', hwrite, hd', fun x => by rw [hreg, Memory.read_write _ _ _ _ hwf],
    rdregIsOneReadTransaction addr _ _ ⟨rfl, rfl, rfl⟩ ?_ (by rw [State.ready_cfg, hor]), ?_⟩
  · simpa [Env.transaction_frame] using ho
  · refine List.getLast?_concat.trans ?_
    rw [hread, hreg, Memory.read_write _ _ _ _ hwf, if_pos rfl]

/-- Settles O29: the address byte of the read is the one of a write to the address without bit 7. -/
theorem readsOfAWriteAddressStoreTheFiller : Obligations.ReadsOfAWriteAddressStoreTheFiller := by
  intro addr s d hs ho hd hi hwf hcr ha
  have hbits : (addr - 128).toNat = addr.toNat - 128 ∧ (addr - 128) ||| 0x80 = addr := by
    revert addr; decide
  obtain ⟨hlow, hbit⟩ := hbits
  have hlt : (addr - 128).toNat < 128 := by rw [hlow]; omega
  obtain ⟨d', hd', -, hreg⟩ := Env.write_ideal (addr - 128) s.cfg.filler s.env d hd hi hlt
  have hbyte := Env.write_answer (addr - 128) s.cfg.filler s.env d hd hlt
  rw [hbit] at hd' hbyte
  have hrun := rdregIsOneReadTransaction addr s _ hs ho rfl
  rw [show addr ||| s.cfg.cmdRead = addr by simp [hcr]] at hrun
  refine ⟨_, d', hrun, hbyte ▸ List.getLast?_concat, hd', fun x => ?_⟩
  rw [hreg, Memory.read_write _ _ _ _ hwf, hlow]

/-! ## The field that `SETBF` changes -/

/-- The bits of the mask (spec/41_bitfield.md R111). -/
theorem fieldMask_getLsbD (msb lsb : Byte) {i : Nat} (hi : i < 8) :
    (fieldMask msb lsb).getLsbD i = decide (lsb.toNat ≤ i ∧ i ≤ msb.toNat) := by
  simp only [fieldMask, trunc8, Nat.one_shiftLeft, BitVec.getLsbD_and, BitVec.getLsbD_not, BitVec.getLsbD_ofNat, hi,
    decide_true, Bool.true_and, Nat.testBit_two_pow_sub_one]
  grind

/-- The bits of a merged byte (spec/41_bitfield.md R114). -/
theorem mergeField_getLsbD (cur value msb lsb : Byte) {i : Nat} (hi : i < 8) :
    (mergeField cur value msb lsb).getLsbD i =
      if lsb.toNat ≤ i ∧ i ≤ msb.toNat then value.getLsbD (i - lsb.toNat) else cur.getLsbD i := by
  simp only [mergeField, trunc8, BitVec.getLsbD_or, BitVec.getLsbD_and, BitVec.getLsbD_not, fieldMask_getLsbD msb lsb hi,
    BitVec.getLsbD_ofNat, hi, Nat.testBit_shiftLeft, BitVec.testBit_toNat]
  by_cases h : lsb.toNat ≤ i ∧ i ≤ msb.toNat <;> simp [h]

/-- The bits of a field (spec/41_bitfield.md R113). -/
theorem extractField_getLsbD (cur msb lsb : Byte) (i : Nat) :
    (extractField cur msb lsb).getLsbD i = (cur.getLsbD (lsb.toNat + i) && decide (lsb.toNat + i ≤ msb.toNat)) := by
  rw [extractField, BitVec.getLsbD_ushiftRight, BitVec.getLsbD_and]
  by_cases hi : lsb.toNat + i < 8
  · simp [fieldMask_getLsbD msb lsb hi]
  · simp [BitVec.getLsbD_of_ge cur (lsb.toNat + i) (by omega)]

/-- The field of a merged byte holds the low bits of the value (spec/41_bitfield.md R126 (b)). -/
theorem extractField_mergeField (cur value : Byte) {msb lsb : Byte} (h : validRange msb lsb = true) :
    extractField (mergeField cur value msb lsb) msb lsb =
      value &&& BitVec.ofNat 8 (2 ^ (msb.toNat - lsb.toNat + 1) - 1) := by
  simp only [validRange, Bool.and_eq_true, decide_eq_true_eq] at h
  obtain ⟨⟨hm, -⟩, hle⟩ := h
  apply BitVec.eq_of_getLsbD_eq
  intro i hi
  have hwidth : lsb.toNat + i ≤ msb.toNat ↔ i < msb.toNat - lsb.toNat + 1 := by omega
  simp only [extractField_getLsbD, BitVec.getLsbD_and, BitVec.getLsbD_ofNat, Nat.testBit_two_pow_sub_one, hi, ← hwidth]
  by_cases hin : lsb.toNat + i ≤ msb.toNat
  · rw [mergeField_getLsbD cur value msb lsb (by omega)]
    simp only [hin, Nat.le_add_right, Nat.add_sub_cancel_left, and_self, if_true, decide_true, Bool.and_true]
  · simp only [hin, decide_false, Bool.and_false]

/-- With the ideal device the first poll read of `SETBF` is the merged byte, which its register now holds. -/
theorem setbfRun_ideal {addr value msb lsb : Byte} {s : State} {d : RefDevice} {r : SetbfRun}
    (hr : r = setbfRun addr value msb lsb s) (hd : s.env.device = .ref d) (hi : d.variant = .ideal)
    (hcr : s.cfg.cmdRead = 0x00) (hcw : s.cfg.cmdWrite = 0x80) (ha : addr.toNat < 128) (hwf : d.reg.wf = true) :
    r.new = mergeField (d.reg.read addr.toNat) value msb lsb ∧ (pollRun s.cfg addr r.env 0).byte = r.new ∧
      ∃ d', (pollEnv s.cfg addr r.env 1).device = .ref d' ∧ d'.variant = .ideal ∧
        d'.reg = d.reg.write addr.toNat r.new := by
  subst hr
  have hor : addr ||| s.cfg.cmdRead = addr := by simp [hcr]
  obtain ⟨hbyte, d1, hd1, hi1, hreg1⟩ := Env.read_ideal addr s.cfg.filler s.env d hd hi ha
  obtain ⟨d2, hd2, hi2, hreg2⟩ :=
    Env.write_ideal addr (setbfRun addr value msb lsb s).new (setbfRun addr value msb lsb s).read.env d1
      (by simpa only [setbfRun, hor] using hd1) hi1 ha
  have hd2' : (setbfRun addr value msb lsb s).env.nowUs.2.device = .ref d2 := by
    simpa only [SetbfRun.env, setbfRun, hcw, Env.nowUs_device] using hd2
  obtain ⟨hbyte3, d3, hd3, hi3, hreg3⟩ := Env.read_ideal addr s.cfg.filler _ d2 hd2' hi2 ha
  refine ⟨by simp only [setbfRun, hor, hbyte], ?_, d3, ?_, hi3, by rw [hreg3, hreg2, hreg1]⟩
  · simp only [pollRun, pollEnv, hor, hbyte3, hreg2, hreg1, Memory.read_write _ _ _ _ hwf, if_true]
  · simpa only [pollEnv, hor] using hd3

/-- Settles O37: the poll read is the merged byte at once, and the field of a merged byte is the value's. -/
theorem setbfThenGetbfOnTheIdealDevice : Obligations.SetbfThenGetbfOnTheIdealDevice := by
  intro addr value msb lsb win s d hv hs ho hw hd hi hwf hcr hcw ha
  obtain ⟨hnew, hmatch, d', hd', hi', hreg⟩ :=
    setbfRun_ideal (value := value) (msb := msb) (lsb := lsb) rfl hd hi hcr hcw ha hwf
  have hsetbf := setbfEndsAtTheFirstMatch addr value msb lsb win s 0 _ hv hs ho rfl (by simpa using hw) (by simp) hmatch
  have hor : addr ||| s.cfg.cmdRead = addr := by simp [hcr]
  refine ⟨_, _, d', hsetbf, List.getLast?_concat, hd', fun x => ?_,
    (getbfDeliversTheField addr msb lsb _ _ ⟨rfl, rfl, rfl⟩ (by rw [State.ready_cfg, hor])).1 hv ?_, ?_⟩
  · rw [hreg, Memory.read_write _ _ _ _ hwf, hnew]
    split
    · next h => rw [h]
    · rfl
  · simp [setbfRun_otherOwns, ho]
  · obtain ⟨hread, -⟩ := Env.read_ideal addr s.cfg.filler _ d' hd' hi' ha
    refine List.getLast?_concat.trans ?_
    rw [hread, hreg, Memory.read_write _ _ _ _ hwf, if_pos rfl, hnew, extractField_mergeField _ _ hv]

end Sys2Proof.Machine
end

/-! # Proofs: the device's memory and the clock

What a step of a command does to the device on the byte bus is said once (`exec_device`), as Laws/Clock.lean says it of the
clock (`exec_clock`).  The clock is then followed through the turns (`step_clock`) and through whole runs (`run_countersPass`). -/

section

namespace Sys2Proof.Machine

open Sys2Proof

/-! ## The device on the byte bus -/

/-- The four ways a step of a command meets the device: not at all, at the head of a transaction, at its selection, at an
`Xfer`. -/
def DeviceStep (s t : State) : Prop :=
  t.env.device = s.env.device ∨
  t.env.device = s.env.beginTxn.device ∨
  t.env.device = s.env.selAssert.device ∨
  (s.point = .txn ∧ (s.txnStep = .addr ∨ s.txnStep = .data) ∧ ∃ b, t.env.device = (s.env.xfer b).2.device)

theorem DeviceStep.quiet {s t : State} (h : t.env.device = s.env.device) : DeviceStep s t := .inl h

theorem busStep_device {wire : Byte} {tx : List Byte} {c : Capture} {released : State → State} {s t : State}
    (h : busStep wire tx c released s = .next t) (hp : s.point = .txn) (hr : ∀ u, (released u).env = u.env) :
    DeviceStep s t := by
  rcases busStep_cases h with ⟨-, -, rfl⟩ | ⟨-, -, rfl⟩ | ⟨-, rfl⟩ | ⟨ht, -, rfl⟩ | ⟨ht, -, rfl⟩ | ⟨ht, b, -, rfl⟩ |
    ⟨-, rfl⟩ | ⟨-, rfl⟩
  · exact .quiet rfl
  · exact .inr (.inl rfl)
  · exact .inr (.inr (.inl rfl))
  · exact .inr (.inr (.inr ⟨hp, .inl ht, wire, rfl⟩))
  · exact .inr (.inr (.inr ⟨hp, .inl ht, wire, rfl⟩))
  · exact .inr (.inr (.inr ⟨hp, .inr ht, b, rfl⟩))
  · exact .quiet rfl
  · exact .quiet (by rw [hr])

theorem fieldStart_env (msb lsb : Byte) (s : State) : (fieldStart msb lsb s).env = s.env := by
  rcases fieldStart_cases msb lsb s with ⟨-, e⟩ | ⟨-, e⟩ <;> rw [e]

theorem setbfCompare_env (s : State) : (setbfCompare s).env = s.env := by
  rcases setbfCompare_cases s with ⟨-, e⟩ | ⟨-, e⟩ <;> rw [e]

theorem setbfWindow_env (win : Half) (s : State) : (setbfWindow win s).env = s.env.nowUs.2 := by
  rcases setbfWindow_cases win s with ⟨-, -, e⟩ | ⟨-, -, e⟩ | ⟨-, e⟩ <;> rw [e]

theorem SameButLine.device {s t : State} (h : SameButLine s t) : t.env.device = s.env.device := by
  obtain ⟨-, -, -, hd, -⟩ := h.offLine
  exact hd

/-- Every step of every command meets the device in one of the four ways. -/
theorem exec_device {i : Instr} {s t : State} (h : exec i s = .next t) : DeviceStep s t := by
  cases i with
  | rdreg addr =>
    rcases execRdreg_cases h with ⟨-, -, rfl⟩ | ⟨-, hp, h⟩ | ⟨-, -, b, rest, -, rfl⟩
    · exact .quiet rfl
    · exact busStep_device h hp fun _ => rfl
    · exact .quiet rfl
  | wrreg addr byte =>
    rcases execWrreg_cases h with ⟨-, -, rfl⟩ | ⟨-, hp, h⟩ | ⟨-, -, rfl⟩
    · exact .quiet rfl
    · exact busStep_device h hp fun _ => rfl
    · exact .quiet rfl
  | rdburst addr count =>
    rcases execRdburst_cases h with ⟨-, -, rfl⟩ | ⟨-, hp, h⟩ | ⟨-, -, rfl⟩
    · exact .quiet rfl
    · exact busStep_device h hp fun _ => rfl
    · exact .quiet rfl
  | wrburst addr bytes =>
    rcases execWrburst_cases h with ⟨-, -, rfl⟩ | ⟨-, hp, h⟩ | ⟨-, -, rfl⟩
    · exact .quiet rfl
    · exact busStep_device h hp fun _ => rfl
    · exact .quiet rfl
  | getbf addr msb lsb =>
    rcases execGetbf_cases h with ⟨-, -, rfl⟩ | ⟨-, -, rfl⟩ | ⟨-, hp, h⟩ | ⟨-, -, rfl⟩
    · exact .quiet (by rw [fieldStart_env])
    · exact .quiet rfl
    · exact busStep_device h hp fun _ => rfl
    · exact .quiet rfl
  | setbf addr value msb lsb win =>
    rcases execSetbf_cases h with ⟨-, -, rfl⟩ | ⟨-, -, rfl⟩ | ⟨-, hp, h⟩ | ⟨-, hp, h⟩ | ⟨-, -, rfl⟩ | ⟨-, -, rfl⟩ |
      ⟨-, hp, h⟩ | ⟨-, -, rfl⟩ | ⟨-, -, rfl⟩ | ⟨-, -, rfl⟩
    · exact .quiet (by rw [fieldStart_env])
    · exact .quiet rfl
    · exact busStep_device h hp fun _ => rfl
    · exact busStep_device h hp fun _ => rfl
    · exact .quiet rfl
    · exact .quiet (by rw [setbfWindow_env]; rfl)
    · exact busStep_device h hp setbfCompare_env
    · exact .quiet rfl
    · exact .quiet rfl
    · exact .quiet rfl
  | flush => exact .quiet (execFlush_frame h).1.device
  | sendcmd text => exact .quiet (exchangeStep_frame h).device
  | senddata bytes => exact .quiet (exchangeStep_frame h).device

/-- Settles O48: of the four ways a step meets the device, the `Xfer` alone reaches its memory. -/
theorem deviceMemoryFrame : Obligations.DeviceMemoryFrame := by
  intro i s t d h hd hwf
  rcases exec_device h with e | e | e | ⟨hp, ht, b, e⟩
  · exact ⟨d, by rw [e, hd], hwf, fun _ _ => rfl, fun _ => rfl⟩
  · exact ⟨d.beginTxn, by rw [e, Env.beginTxn, hd], hwf, fun _ _ => rfl, fun _ => rfl⟩
  · exact ⟨d.selAssert, by rw [e, Env.selAssert, hd], hwf, fun _ _ => rfl, fun _ => rfl⟩
  · exact ⟨(d.xfer b).2, by rw [e, Env.xfer, Env.answer, hd], d.xfer_wf b hwf, fun x hx => d.xfer_read b x hwf hx,
      fun hn => absurd ⟨hp, ht⟩ hn⟩

/-! ## The clock at a step of the machine -/

/-- From one state to the other the clock stands still, and no event between them reads it or costs time. -/
def ClockRests (s t : State) : Prop :=
  t.env.clock = s.env.clock ∧ ∃ es, t.trace = s.trace ++ es ∧ ∀ e ∈ es, e.leavesClock

/-- The environment's clock advances. -/
def ClockTicks (s t : State) : Prop := (∃ us ms, t.env.clock = s.env.clock.tick us ms) ∧ t.trace = s.trace

theorem ClockRests.refl (s : State) : ClockRests s s := ⟨rfl, [], by simp, by simp⟩

theorem ClockRests.accept (c : Command) (s : State) : ClockRests s (s.accept c) :=
  ⟨rfl, [.cmdAccept c.word c.payload], rfl, by simp [Event.leavesClock]⟩

theorem ClockStep.congr {s u t : State} (h : ClockStep u t) (hc : u.env.clock = s.env.clock) (ht : u.trace = s.trace) :
    ClockStep s t := by
  unfold ClockStep at h ⊢
  rwa [hc, ht] at h

/-- A step of `SEQ` is at most a `CmdAccept` and a step of a command. -/
theorem seqStep_clock {s t : State} (h : seqStep s = .next t) : ∃ u, ClockRests s u ∧ ClockStep u t := by
  rcases seqStep_cases h with ⟨-, rfl⟩ | ⟨-, -, rfl⟩ | ⟨-, -, i, -, he⟩ | ⟨-, c, rest, -, ⟨i, -, he⟩ | ⟨r, -, rfl⟩⟩
  · exact ⟨_, .refl _, .quiet rfl rfl⟩
  · exact ⟨s, .refl s, State.finish_clock ..⟩
  · exact ⟨s, .refl s, exec_clock he⟩
  · exact ⟨_, .accept c s, exec_clock he⟩
  · exact ⟨_, .accept c s, .quiet rfl rfl⟩

/-- Under the invariant a step of `SEQ` adds one event at most, so it meets the clock as one step of a command does. -/
theorem seqStep_clock_of_inv {s t : State} (hi : Inv s) (h : seqStep s = .next t) : ClockStep s t := by
  obtain ⟨u, ⟨hc, es, hu, hes⟩, hstep⟩ := seqStep_clock h
  have hone : ∀ x, t.trace = u.trace ++ [x] → u.trace = s.trace := by
    intro x hx
    rw [hu, List.append_assoc] at hx
    rcases seqStep_trace hi h with ht | ⟨e, ht⟩ <;> have hl := congrArg List.length (ht.symm.trans hx)
    · simp at hl
    · have : es = [] := List.eq_nil_of_length_eq_zero (by simpa using hl)
      simp [hu, this]
  rcases id hstep with ⟨hc', es', ht, hes'⟩ | ⟨-, x, ht⟩ | ⟨-, x, ht⟩ | ⟨-, tx, rx, ht⟩ | ⟨-, n, ht⟩
  · refine .inl ⟨hc'.trans hc, es ++ es', by rw [ht, hu, List.append_assoc], fun e he => ?_⟩
    exact (List.mem_append.mp he).elim (hes e) (hes' e)
  all_goals exact hstep.congr hc (hone _ ht)

/-- A move of the environment is a tick, or leaves the clock alone; reset adds at most the end of a transaction. -/
theorem environmentMove_clock (m : Move) (s : State) :
    ClockTicks s (s.environmentMove m) ∨ ClockStep s (s.environmentMove m) := by
  cases m with
  | tick us ms => exact .inl ⟨⟨us, ms, rfl⟩, rfl⟩
  | assertReset =>
    refine .inr (.inl ⟨rfl, (if s.sel = .active then [.selDeassert] else []) ++ (if s.busOwned then [.endTxn] else []),
      by simp [State.environmentMove, State.assertReset], fun e he => ?_⟩)
    rcases List.mem_append.mp he with he | he <;> split at he <;> simp_all [Event.leavesClock]
  | _ => exact .inr (.quiet rfl rfl)

/-- Every step of the machine is a tick, or what leaves the clock alone and then a step that meets it as one of a command
does. -/
theorem step_clock {s t : State} (h : step s = .next t) : ClockTicks s t ∨ ∃ u, ClockRests s u ∧ ClockStep u t := by
  rcases seqTurn_or_envTurn s with hs | ⟨m, rest, hm⟩
  · rw [step_of_seqTurn hs] at h
    exact .inr (seqStep_clock (s := s.dropTurn) h)
  · rw [step_of_envTurn hm] at h
    obtain rfl := Host.Outcome.next.inj h
    exact (environmentMove_clock m s.dropTurn).imp id fun h => ⟨_, .refl _, h⟩

theorem step_clock_of_inv {s t : State} (hi : Inv s) (h : step s = .next t) : ClockTicks s t ∨ ClockStep s t := by
  rcases seqTurn_or_envTurn s with hs | ⟨m, rest, hm⟩
  · rw [step_of_seqTurn hs] at h
    exact .inr (seqStep_clock_of_inv (s := s.dropTurn) hi.dropTurn h)
  · rw [step_of_envTurn hm] at h
    obtain rfl := Host.Outcome.next.inj h
    exact environmentMove_clock m s.dropTurn

/-! ## `RefClock` -/

/-- No step takes time back on `RefClock`. -/
theorem step_ref_le {s t : State} {tau x p : Nat} (h : step s = .next t) (hc : s.env.clock = .ref tau x p) :
    ∃ tau', t.env.clock = .ref tau' x p ∧ tau ≤ tau' := by
  rcases step_clock h with ⟨⟨us, ms, e⟩, -⟩ | ⟨u, ⟨hu, -⟩, hstep⟩
  · exact ⟨tau, by rw [e, hc, Clock.tick_ref], le_rfl⟩
  rw [hc] at hu
  rcases hstep with ⟨e, -⟩ | ⟨e, -⟩ | ⟨e, -⟩ | ⟨e, -⟩ | ⟨e, -⟩ <;> rw [hu] at e
  · exact ⟨tau, e, le_rfl⟩
  · exact ⟨tau, e, le_rfl⟩
  · exact ⟨tau, e, le_rfl⟩
  · exact ⟨tau + x, e, Nat.le_add_right ..⟩
  · exact ⟨tau + p, e, Nat.le_add_right ..⟩

/-- The event a step adds says what it costs on `RefClock`. -/
theorem ClockStep.ref_cost {s t : State} {tau x p : Nat} (h : ClockStep s t) (hc : s.env.clock = .ref tau x p) :
    (∀ tx rx, t.trace = s.trace ++ [.xfer tx rx] → t.env.clock = .ref (tau + x) x p) ∧
    (∀ n, t.trace = s.trace ++ [.avail n] → t.env.clock = .ref (tau + p) x p) ∧
    ((∀ tx rx, t.trace ≠ s.trace ++ [.xfer tx rx]) → (∀ n, t.trace ≠ s.trace ++ [.avail n]) →
      t.env.clock = s.env.clock) := by
  rcases h with ⟨e, es, ht, hes⟩ | ⟨e, y, ht⟩ | ⟨e, y, ht⟩ | ⟨e, tx, rx, ht⟩ | ⟨e, n, ht⟩ <;> rw [hc] at e <;>
    simp only [ht, List.append_cancel_left_eq]
  · refine ⟨fun tx rx h => ?_, fun n h => ?_, fun _ _ => e.trans hc.symm⟩ <;> simp [h, Event.leavesClock] at hes
  · simp [e, hc]
  · simp [e, hc]
  · simp [e]
  · simp [e]

/-! ## The two counters -/

/-- More time has passed than the readings alone took. -/
def Counter.passed (unit : TickUnit) (n extra : Nat) (c : Counter) : Counter := (c.readings unit n).advance extra

theorem Counter.passed_passed (unit : TickUnit) (m n a b : Nat) (c : Counter) :
    (c.passed unit m a).passed unit n b = c.passed unit (m + n) (a + b) := by
  induction n generalizing b with
  | zero => simp [Counter.passed, Counter.readings, Counter.advance, Nat.add_assoc]
  | succ n ih =>
    have hread : ∀ (d : Counter) (k e : Nat), d.passed unit (k + 1) e = (d.passed unit k e).read unit := fun d k e => by
      rw [Counter.passed, Counter.readings_succ, Counter.passed, Counter.read_advance]
    rw [hread, ih, ← Nat.add_assoc, hread]

theorem Counter.readings_le_passed (unit : TickUnit) {m n : Nat} (extra : Nat) (c : Counter) (h : m ≤ n) :
    (c.readings unit m).ticks ≤ (c.passed unit n extra).ticks :=
  (c.readings_mono unit h).trans (Nat.le_add_right ..)

/-- From one state to the other the two counters have passed on by the readings between them, and by whatever else. -/
def CountersPass (us ms : Counter) (s t : State) : Prop :=
  ∃ m n a b, t.env.clock = .counters (us.passed .us m a) (ms.passed .ms n b) ∧
    t.trace.countP Event.isNowUs = s.trace.countP Event.isNowUs + m ∧
    t.trace.countP Event.isNowMs = s.trace.countP Event.isNowMs + n

theorem CountersPass.trans {us ms us' ms' : Counter} {s u t : State} (h : CountersPass us ms s u)
    (hu : u.env.clock = .counters us' ms') (h' : CountersPass us' ms' u t) : CountersPass us ms s t := by
  obtain ⟨m, n, a, b, hc, hus, hms⟩ := h
  obtain ⟨rfl, rfl⟩ := Clock.counters.inj (hu.symm.trans hc)
  obtain ⟨m', n', a', b', hc', hus', hms'⟩ := h'
  refine ⟨m + m', n + n', a + a', b + b', ?_, by omega, by omega⟩
  rw [hc', Counter.passed_passed, Counter.passed_passed]

theorem ClockRests.countersPass {us ms : Counter} {s t : State} (h : ClockRests s t)
    (hc : s.env.clock = .counters us ms) : CountersPass us ms s t := by
  obtain ⟨e, es, ht, hes⟩ := h
  have hnone : es.countP Event.isNowUs = 0 ∧ es.countP Event.isNowMs = 0 := by
    simp only [List.countP_eq_zero, Bool.not_eq_true]
    exact ⟨fun x hx => (hes x hx).no_reading.1, fun x hx => (hes x hx).no_reading.2⟩
  exact ⟨0, 0, 0, 0, e.trans hc, by simp [ht, hnone], by simp [ht, hnone]⟩

theorem ClockStep.countersPass {us ms : Counter} {s t : State} (h : ClockStep s t)
    (hc : s.env.clock = .counters us ms) : CountersPass us ms s t := by
  rcases h with h | ⟨e, x, ht⟩ | ⟨e, x, ht⟩ | ⟨e, tx, rx, ht⟩ | ⟨e, n, ht⟩
  · exact ClockRests.countersPass h hc
  all_goals rw [hc] at e
  · exact ⟨1, 0, 0, 0, e, by simp [ht, Event.isNowUs], by simp [ht, Event.isNowMs]⟩
  · exact ⟨0, 1, 0, 0, e, by simp [ht, Event.isNowUs], by simp [ht, Event.isNowMs]⟩
  · exact ⟨0, 0, 0, 0, e, by simp [ht, Event.isNowUs], by simp [ht, Event.isNowMs]⟩
  · exact ⟨0, 0, 0, 0, e, by simp [ht, Event.isNowUs], by simp [ht, Event.isNowMs]⟩

theorem step_countersPass {us ms : Counter} {s t : State} (h : step s = .next t) (hc : s.env.clock = .counters us ms) :
    CountersPass us ms s t := by
  rcases step_clock h with ⟨⟨a, b, e⟩, ht⟩ | ⟨u, hu, hstep⟩
  · exact ⟨0, 0, a, b, by rw [e, hc]; rfl, by rw [ht]; rfl, by rw [ht]; rfl⟩
  · have hcu := hu.1.trans hc
    exact (hu.countersPass hc).trans hcu (hstep.countersPass hcu)

/-- A run of `k + 1` steps that goes on begins with a step that goes on. -/
theorem run_succ_cases {s t : State} {k : Nat} (h : Host.Core.run Sys2Proof.core (k + 1) s = .next t) :
    ∃ u, step s = .next u ∧ Host.Core.run Sys2Proof.core k u = .next t := by
  have hcore : Sys2Proof.core.step s = step s := rfl
  simp only [Host.Core.run, hcore] at h
  cases hs : step s with
  | next u => exact ⟨u, rfl, by rwa [hs] at h⟩
  | fault r => simp [hs] at h
  | refused r => simp [hs] at h

theorem run_countersPass {us ms : Counter} {k : Nat} {s t : State} (h : Host.Core.run Sys2Proof.core k s = .next t)
    (hc : s.env.clock = .counters us ms) : CountersPass us ms s t := by
  induction k generalizing s us ms with
  | zero =>
    obtain rfl := Host.Outcome.next.inj h
    exact (ClockRests.refl _).countersPass hc
  | succ k ih =>
    obtain ⟨u, hs, hrun⟩ := run_succ_cases h
    obtain ⟨m, n, a, b, hu, hcount⟩ := step_countersPass hs hc
    exact CountersPass.trans ⟨m, n, a, b, hu, hcount⟩ hu (ih hrun hu)

/-- Settles O57: by what a step does to the clock, and by the readings of a run, which exceed every bound (R173 (b)). -/
theorem timePassesAndNeverGoesBackwards : Obligations.TimePassesAndNeverGoesBackwards := by
  refine ⟨fun s t h => ⟨fun us ms hc => ?_, fun tau x p hc => step_ref_le h hc⟩, fun s t tau x p hi hc h => ?_,
    fun s us ms bound hc => ?_⟩
  · obtain ⟨m, n, a, b, hc', -⟩ := step_countersPass h hc
    exact ⟨_, _, hc', Counter.readings_le_passed .us a us (Nat.zero_le m),
      Counter.readings_le_passed .ms b ms (Nat.zero_le n)⟩
  · rcases step_clock_of_inv hi h with ⟨⟨us, ms, e⟩, ht⟩ | hstep
    · exact ClockStep.ref_cost (.quiet (by rw [e, hc, Clock.tick_ref]) ht) hc
    · exact hstep.ref_cost hc
  · obtain ⟨m, hm⟩ := us.readings_exceed .us bound
    obtain ⟨n, hn⟩ := ms.readings_exceed .ms bound
    refine ⟨max m n, fun k t h => ?_⟩
    obtain ⟨m', n', a, b, hc', hus, hms⟩ := run_countersPass h hc
    exact ⟨_, _, hc', fun hle => hm.trans_le (Counter.readings_le_passed .us a us (by omega)),
      fun hle => hn.trans_le (Counter.readings_le_passed .ms b ms (by omega))⟩

end Sys2Proof.Machine
end

/-! # Proofs: whole exchanges

An exchange is followed by how far it comes (`Reaches`), its number of steps left open: the flush, the bytes sent, `T0`, and the
wait.  A round of the wait ends in the verdict on one more byte (`reaches_received`) or finds the queue empty
(`reaches_polled`); O42 and O44 are inductions over the rounds, on the bytes of the reply and on the time that is left. -/

section

namespace Sys2Proof.Machine

open Sys2Proof

/-! ## How far a command comes -/

/-- Some number of steps of the command leads from one state to the other. -/
def Reaches (i : Instr) (s t : State) : Prop := ∃ k, execFor i k s = .next t

theorem Reaches.refl (i : Instr) (s : State) : Reaches i s s := ⟨0, rfl⟩

theorem Reaches.trans {i : Instr} {s u t : State} (h : Reaches i s u) (h' : Reaches i u t) : Reaches i s t := by
  obtain ⟨m, hm⟩ := h
  obtain ⟨k, hk⟩ := h'
  exact ⟨m + k, by rw [execFor_add m k hm, hk]⟩

theorem Reaches.step {i : Instr} {s t : State} (h : exec i s = .next t) : Reaches i s t := ⟨1, execFor_succ 0 h⟩

/-! ## The channel -/

/-- Nothing arrives on its own: no chatter, and each arrival of the script waits for an outbound byte. -/
def Channel.Waits (c : Channel) : Prop := c.chatter = [] ∧ ∀ x ∈ c.script, ∀ tau, x.due tau = false

theorem Channel.Waits.receive {c : Channel} (h : c.Waits) (tau : Nat) : c.receive tau = c := by
  obtain ⟨hc, hs⟩ := h
  have hdue : c.script.filter (Arrival.due tau) = [] := List.filter_eq_nil_iff.mpr fun x hx => by simp [hs x hx]
  have hleft : c.script.filter (fun x => !Arrival.due tau x) = c.script :=
    List.filter_eq_self.mpr fun x hx => by simp [hs x hx]
  unfold Channel.receive
  rw [hdue, hleft, hc, List.flatMap_nil, List.append_nil, List.append_nil, ← hc]

theorem Channel.silent.waits {c : Channel} (h : c.silent) : c.Waits := ⟨h.2, by simp [h.1]⟩

/-- The channel once these bytes have been written, all at one time. -/
def Channel.writeAll (tau : Nat) : List Byte → Channel → Channel
  | [], c => c
  | b :: bytes, c => Channel.writeAll tau bytes (c.write tau b)

theorem Channel.writeAll_append (tau : Nat) (l l' : List Byte) (c : Channel) :
    c.writeAll tau (l ++ l') = (c.writeAll tau l).writeAll tau l' := by
  induction l generalizing c with
  | nil => rfl
  | cons b l ih => exact ih (c.write tau b)

/-- An arrival that waits for the last of the bytes is due once they are written. -/
theorem Channel.writeAll_armed {tau n : Nat} {reply l : List Byte} {c : Channel}
    (hs : c.script = [⟨.afterOut n 0, reply⟩]) (hn : n = c.out.length + l.length) (hl : l ≠ []) :
    c.writeAll tau l = { c with out := c.out ++ l, script := [⟨.at tau, reply⟩] } := by
  induction l generalizing c with
  | nil => exact absurd rfl hl
  | cons b l ih =>
    cases l with
    | nil => simp [Channel.writeAll, Channel.write, hs, Arrival.armed, hn]
    | cons b' l =>
      have hearly : ¬ n ≤ c.out.length + 1 := by simp [hn]
      have hw : (c.write tau b).script = [⟨.afterOut n 0, reply⟩] := by simp [Channel.write, hs, Arrival.armed, hearly]
      rw [Channel.writeAll, ih hw (by simp [Channel.write, hn]; omega) (by simp)]
      simp [Channel.write]

/-! ## The clock -/

@[simp] theorem Clock.tau_afterNowMs (c : Clock) : c.afterNowMs.tau = c.tau := by cases c <;> rfl

/-! ## What the events on the line leave -/

/-- The machine once events on the line have left the channel and the clock like this. -/
def State.onLine (channel : Channel) (clock : Clock) (events : List Event) (s : State) : State :=
  { s with env := { s.env with channel := channel, clock := clock }, trace := s.trace ++ events }

theorem State.onLine_onLine (c c' : Channel) (k k' : Clock) (es es' : List Event) (s : State) :
    (s.onLine c k es).onLine c' k' es' = s.onLine c' k' (es ++ es') := by
  simp [State.onLine]

theorem Env.avail_of_waits {e : Env} (h : e.channel.Waits) :
    e.avail = (e.channel.inbound.length, { e with clock := e.clock.afterAvail }) := by
  simp [Env.avail, h.receive]

/-! ## What is sent, and what has been read -/

/-- What is sent next does not depend on where the sending stood. -/
theorem State.toSend_point (payload term : List Byte) (p : Point) (s : State) :
    State.toSend payload term { s with point := p } = s.toSend payload term := by
  unfold State.toSend
  split
  · rfl
  · split <;> rfl

theorem State.toSend_cons (b : Byte) (rest term : List Byte) (s : State) :
    s.toSend (b :: rest) term = { s with point := .send (b :: rest) } := by simp [State.toSend]

theorem State.toSend_nil_cons (b : Byte) (rest : List Byte) (s : State) :
    s.toSend [] (b :: rest) = { s with point := .term (b :: rest) } := by simp [State.toSend]

/-- Nor does the verdict on a byte. -/
theorem State.receive_point (b : Byte) (p : Point) (s : State) :
    State.receive b { s with point := p } = s.receive b := rfl

theorem State.receive_of_pending {b : Byte} {s : State} (h : classify (s.rbuf ++ [b]) = .pending) :
    s.receive b = { s with rbuf := s.rbuf ++ [b], point := .window } := by
  simp [State.receive, h]

theorem State.sendByte_eq (whole rest : List Byte) (b : Byte) (s : State) :
    s.sendByte whole rest b = { s.onLine (s.env.channel.write s.env.clock.tau b) s.env.clock [.wrByte b] with
      idx := BitVec.ofNat 16 (whole.length - (rest.length + 1)) } := rfl

/-- The machine once the last bytes of a part have been written. -/
def State.sendAll (whole : List Byte) : List Byte → State → State
  | [], s => s
  | b :: rest, s => (s.sendByte whole rest b).sendAll whole rest

theorem State.sendAll_eq (whole rest : List Byte) (s : State) :
    s.sendAll whole rest =
      { s.onLine (s.env.channel.writeAll s.env.clock.tau rest) s.env.clock (rest.map .wrByte) with
        idx := if rest = [] then s.idx else BitVec.ofNat 16 (whole.length - 1) } := by
  induction rest generalizing s with
  | nil => simp [State.sendAll, State.onLine, Channel.writeAll]
  | cons b rest ih =>
    rw [State.sendAll, ih, State.sendByte_eq]
    cases rest <;> simp [State.onLine, Channel.writeAll]

/-- The payload and the terminator, sent to a device that answers the last of their bytes. -/
theorem State.sendAll_sendAll {s : State} {payload term reply : List Byte}
    (hs : s.env.channel.script = [⟨.afterOut (s.env.channel.out.length + payload.length + term.length) 0, reply⟩])
    (hne : payload ++ term ≠ []) :
    (s.sendAll payload payload).sendAll term term =
      { s.onLine { s.env.channel with
            out := s.env.channel.out ++ payload ++ term, script := [⟨.at s.env.clock.tau, reply⟩] } s.env.clock
          (payload.map .wrByte ++ term.map .wrByte) with
        idx := idxAfter (if term = [] then payload else term).length s } := by
  have hch := Channel.writeAll_armed (tau := s.env.clock.tau) hs (l := payload ++ term) (by simp [Nat.add_assoc]) hne
  rw [Channel.writeAll_append] at hch
  rw [State.sendAll_eq, State.sendAll_eq]
  have hidx : (if term = [] then (if payload = [] then s.idx else BitVec.ofNat 16 (payload.length - 1))
      else BitVec.ofNat 16 (term.length - 1)) = idxAfter (if term = [] then payload else term).length s := by
    by_cases hterm : term = [] <;> simp [hterm, idxAfter]
  simp [State.onLine, hch, ← hidx]

/-- The machine once a round of the wait has read a byte and left these queued, before the verdict on it. -/
def State.received (c : Channel) (b : Byte) (q : List Byte) (s : State) : State :=
  s.onLine { c with inbound := q } s.env.clock.afterNowMs.afterAvail
    ([.nowMs s.env.clock.nowMs, .avail (q.length + 1), .rdByte b] ++ if s.cfg.debugEn then [.dbgByte b] else [])

/-! ## The steps of an exchange -/

theorem exec_eq_exchangeStep {i : Instr} {payload : List Byte} (h : i = .sendcmd payload ∨ i = .senddata payload)
    (s : State) : exec i s = exchangeStep payload s := by
  rcases h with rfl | rfl <;> rfl

/-- `WrByte` of a payload byte. -/
theorem exchangeStep_send {payload : List Byte} {s : State} (b : Byte) (rest : List Byte) (hl : s.lpState = .sending) :
    exchangeStep payload { s with point := .send (b :: rest) } =
      .next ((s.sendByte payload rest b).toSend rest s.cfg.lineTerm) := by
  rw [← State.toSend_point rest s.cfg.lineTerm (.send (b :: rest)) (s.sendByte payload rest b)]
  simp [exchangeStep, hl, State.sendByte, State.emit]

/-- `WrByte` of a terminator byte. -/
theorem exchangeStep_term {payload : List Byte} {s : State} (b : Byte) (rest : List Byte) (hl : s.lpState = .sending) :
    exchangeStep payload { s with point := .term (b :: rest) } =
      .next ((s.sendByte s.cfg.lineTerm rest b).toSend [] rest) := by
  rw [← State.toSend_point [] rest (.term (b :: rest)) (s.sendByte s.cfg.lineTerm rest b)]
  simp [exchangeStep, hl, State.sendByte, State.emit]

section Exchange

variable {i : Instr} {payload : List Byte} (hx : ∀ u, exec i u = exchangeStep payload u)

include hx

/-! ### The flush -/

/-- `Avail` of the flush on an empty queue ends it. -/
theorem exec_flushAvail_nil {s : State} (hl : s.lpState = .sending) (hp : s.point = .flushAvail)
    (hw : s.env.channel.Waits) (hq : s.env.channel.inbound = []) :
    exec i s = .next (State.toSend payload s.cfg.lineTerm (s.onLine s.env.channel s.env.clock.afterAvail [.avail 0])) := by
  simp [hx, exchangeStep, hl, hp, flushAvailStep, Env.avail_of_waits hw, hq, State.onLine, State.emit]

/-- `Avail` of the flush and the `RdByte` behind it drop a byte. -/
theorem reaches_flushAvail {s : State} {b : Byte} {q : List Byte} (hl : s.lpState = .sending)
    (hp : s.point = .flushAvail) (hw : s.env.channel.Waits) (hq : s.env.channel.inbound = b :: q) :
    Reaches i s
      (s.onLine { s.env.channel with inbound := q } s.env.clock.afterAvail [.avail (q.length + 1), .rdByte b]) := by
  have havail : exec i s = .next { s.onLine s.env.channel s.env.clock.afterAvail [.avail (q.length + 1)] with
      point := .flushRead } := by
    simp [hx, exchangeStep, hl, hp, flushAvailStep, Env.avail_of_waits hw, hq, State.onLine, State.emit]
  refine (Reaches.step havail).trans (.step ?_)
  simp [hx, exchangeStep, hl, hp, flushReadStep, Env.rdByte, hq, State.onLine, State.emit]

/-- The flush drops the queue, as long as nothing arrives meanwhile. -/
theorem reaches_flushed {q : List Byte} {s : State} (hl : s.lpState = .sending) (hp : s.point = .flushAvail)
    (hw : s.env.channel.Waits) (hq : s.env.channel.inbound = q) :
    Reaches i s (State.toSend payload s.cfg.lineTerm
      (s.onLine { s.env.channel with inbound := [] } (s.env.clock.afterAvails (q.length + 1)) (flushEvents q))) := by
  induction q generalizing s with
  | nil =>
    have hch : { s.env.channel with inbound := [] } = s.env.channel := by rw [← hq]
    rw [hch]
    exact .step (exec_flushAvail_nil hx hl hp hw hq)
  | cons b q ih =>
    refine (reaches_flushAvail hx hl hp hw hq).trans ?_
    have h := ih (s := s.onLine { s.env.channel with inbound := q } s.env.clock.afterAvail
      [.avail (q.length + 1), .rdByte b]) hl hp hw rfl
    rwa [State.onLine_onLine] at h

/-! ### The bytes sent -/

/-- The payload bytes are written one after the other. -/
theorem reaches_payloadSent {rest : List Byte} {s : State} (hl : s.lpState = .sending) :
    Reaches i (s.toSend rest s.cfg.lineTerm) ((s.sendAll payload rest).toSend [] s.cfg.lineTerm) := by
  induction rest generalizing s with
  | nil => exact .refl ..
  | cons b rest ih =>
    refine (Reaches.step ?_).trans (ih (s := s.sendByte payload rest b) hl)
    rw [hx, State.toSend_cons, exchangeStep_send b rest hl]
    rfl

/-- So are those of the terminator, and the wait begins behind the last. -/
theorem reaches_termSent {rest : List Byte} {s : State} (hl : s.lpState = .sending) :
    Reaches i (s.toSend [] rest) (s.sendAll s.cfg.lineTerm rest).enterAwait := by
  induction rest generalizing s with
  | nil => exact .refl ..
  | cons b rest ih =>
    refine (Reaches.step ?_).trans (ih (s := s.sendByte s.cfg.lineTerm rest b) hl)
    rw [hx, State.toSend_nil_cons, exchangeStep_term b rest hl]

/-- The payload and then the terminator. -/
theorem reaches_sent {s : State} (hl : s.lpState = .sending) :
    Reaches i (s.toSend payload s.cfg.lineTerm)
      ((s.sendAll payload payload).sendAll s.cfg.lineTerm s.cfg.lineTerm).enterAwait := by
  have hkeep : (s.sendAll payload payload).lpState = s.lpState ∧ (s.sendAll payload payload).cfg = s.cfg := by
    rw [State.sendAll_eq]
    exact ⟨rfl, rfl⟩
  obtain ⟨hl', hcfg⟩ := hkeep
  have hterm := reaches_termSent hx (rest := s.cfg.lineTerm) (hl'.trans hl)
  rw [hcfg] at hterm
  exact (reaches_payloadSent hx hl).trans hterm

/-! ### The wait -/

/-- `T0` is sampled. -/
theorem exec_enterAwait (s : State) :
    exec i s.enterAwait = .next { s.onLine s.env.channel s.env.clock.afterNowMs [.nowMs s.env.clock.nowMs] with
      lpState := .awaiting, rbuf := [], point := .window, t0 := s.env.clock.nowMs } := by
  rw [hx]
  rfl

/-- A test that finds the window elapsed ends the wait and the command. -/
theorem reaches_timedOut {s : State} (hl : s.lpState = .awaiting) (hp : s.point = .window)
    (hw : windowElapsed s.env.clock.nowMs s.t0 s.cfg.responseTimeoutMs = true) :
    Reaches i s (State.finish .lineFailure 0x00 []
      (s.onLine s.env.channel s.env.clock.afterNowMs [.nowMs s.env.clock.nowMs])) := by
  refine (Reaches.step (t := { s.onLine s.env.channel s.env.clock.afterNowMs [.nowMs s.env.clock.nowMs] with
    lpState := .failure, rbuf := [], point := .owe .lineFailure }) ?_).trans (.step ?_)
  · simp [hx, exchangeStep, hl, hp, awaitWindowStep, hw, State.onLine, State.emit, Env.nowMs]
  · simp [hx, exchangeStep, State.onLine, State.finish]

/-- A test that has not, and the `Avail` behind it. -/
theorem reaches_polled {s : State} (hl : s.lpState = .awaiting) (hp : s.point = .window)
    (hw : windowElapsed s.env.clock.nowMs s.t0 s.cfg.responseTimeoutMs = false) {c : Channel}
    (hc : s.env.channel.receive s.env.clock.tau = c) :
    Reaches i s { s.onLine c s.env.clock.afterNowMs.afterAvail [.nowMs s.env.clock.nowMs, .avail c.inbound.length] with
      point := if c.inbound = [] then .window else .read } := by
  refine (Reaches.step (t := { s.onLine s.env.channel s.env.clock.afterNowMs [.nowMs s.env.clock.nowMs] with
    point := .poll }) ?_).trans (.step ?_)
  · simp [hx, exchangeStep, hl, hp, awaitWindowStep, hw, State.onLine, State.emit, Env.nowMs]
  · by_cases hq : c.inbound = [] <;>
      simp [hx, exchangeStep, hl, awaitPollStep, Env.avail, hc, hq, State.onLine, State.emit]

/-- `RdByte` of the wait, the mirror, and the verdict. -/
theorem reaches_read {s : State} {b : Byte} {q : List Byte} (hl : s.lpState = .awaiting) (hp : s.point = .read)
    (hq : s.env.channel.inbound = b :: q) :
    Reaches i s (State.receive b (s.onLine { s.env.channel with inbound := q } s.env.clock
      (.rdByte b :: if s.cfg.debugEn then [.dbgByte b] else []))) := by
  cases hd : s.cfg.debugEn with
  | false =>
    refine .step ?_
    simp [hx, exchangeStep, hl, hp, awaitReadStep, Env.rdByte, hq, hd, State.onLine, State.emit]
  | true =>
    refine (Reaches.step (t := { s.onLine { s.env.channel with inbound := q } s.env.clock [.rdByte b] with
      point := .mirror b }) ?_).trans (.step ?_)
    · simp [hx, exchangeStep, hl, hp, awaitReadStep, Env.rdByte, hq, hd, State.onLine, State.emit]
    · rw [hx, ← State.receive_point b (.mirror b)]
      simp [exchangeStep, hl, State.onLine, State.emit]

/-- A round of the wait that finds a byte: the verdict on it. -/
theorem reaches_received {s : State} (hl : s.lpState = .awaiting) (hp : s.point = .window)
    (hw : windowElapsed s.env.clock.nowMs s.t0 s.cfg.responseTimeoutMs = false) {c : Channel} {b : Byte} {q : List Byte}
    (hc : s.env.channel.receive s.env.clock.tau = c) (hq : c.inbound = b :: q) :
    Reaches i s ((s.received c b q).receive b) := by
  have hpoll := reaches_polled hx hl hp hw hc
  rw [if_neg (by simp [hq])] at hpoll
  have hread := reaches_read hx (s := { s.onLine c s.env.clock.afterNowMs.afterAvail
    [.nowMs s.env.clock.nowMs, .avail c.inbound.length] with point := .read }) hl rfl hq
  rw [← State.receive_point b .read]
  simpa [State.received, State.onLine, hq] using hpoll.trans hread

/-- A verdict ends the command. -/
theorem reaches_finished {s : State} {b : Byte} (h : classify (s.rbuf ++ [b]) ≠ .pending) :
    Reaches i (s.receive b)
      (s.finish (if classify (s.rbuf ++ [b]) = .success then .ok else .lineFailure) 0x00 []) := by
  rcases s.receive_cases b with ⟨hv, e⟩ | ⟨hv, e⟩ | ⟨hv, -⟩
  · rw [e, hv]
    exact .step (by rw [hx]; rfl)
  · rw [e, hv]
    exact .step (by rw [hx]; rfl)
  · exact absurd hv h

/-- The wait reads a queue up to the byte that completes a keyword. -/
theorem reaches_replied {before behind : List Byte} {b : Byte} {s : State} {c : Channel} (hl : s.lpState = .awaiting)
    (hp : s.point = .window) (hc : s.env.channel.receive s.env.clock.tau = c) (hsilent : c.silent)
    (hin : c.inbound = before ++ b :: behind)
    (hw : ∀ k ≤ before.length, windowElapsed (waitClock s.env.clock k).nowMs s.t0 s.cfg.responseTimeoutMs = false)
    (hpend : classify (s.rbuf ++ before) = .pending) (hdone : classify (s.rbuf ++ before ++ [b]) ≠ .pending) :
    Reaches i s (State.finish (if classify (s.rbuf ++ before ++ [b]) = .success then .ok else .lineFailure) 0x00 []
      (s.onLine { c with inbound := behind } (waitClock s.env.clock (before.length + 1))
        (waitEvents s.cfg.debugEn behind.length s.env.clock (before ++ [b])))) := by
  induction before generalizing s c with
  | nil =>
    rw [List.append_nil] at hdone ⊢
    refine (reaches_received hx hl hp (hw 0 le_rfl) hc hin).trans ?_
    have hfin := reaches_finished hx (s := s.received c b behind) hdone
    simpa [State.received, State.onLine, State.finish, waitClock, waitEvents, Nat.add_comm] using hfin
  | cons b' before ih =>
    have hgoes : classify (s.rbuf ++ [b']) = .pending :=
      classify_pending_of_append (s.rbuf ++ [b']) before (by simpa using hpend)
    have hround : Reaches i s ((s.received c b' (before ++ b :: behind)).receive b') :=
      reaches_received hx hl hp (hw 0 (Nat.zero_le _)) hc hin
    rw [State.receive_of_pending (s := s.received c b' (before ++ b :: behind)) hgoes] at hround
    refine hround.trans ?_
    have hstill : ({ c with inbound := before ++ b :: behind } : Channel).Waits := Channel.silent.waits hsilent
    have hrest := ih (s := { s.received c b' (before ++ b :: behind) with rbuf := s.rbuf ++ [b'], point := .window })
      (c := { c with inbound := before ++ b :: behind }) hl rfl (hstill.receive _)
      hsilent rfl (fun k hk => hw (k + 1) (Nat.succ_le_succ hk)) (by simpa using hpend) (by simpa using hdone)
    have hcount : (before ++ [b]).length + 1 + behind.length = (before ++ b :: behind).length + 1 := by simp; omega
    rw [List.cons_append, waitEvents, hcount]
    simpa [State.received, State.onLine, State.finish, waitClock] using hrest

/-! ### A whole exchange -/

/-- The bytes sent and `T0`, with a device that answers the last of the bytes. -/
theorem reaches_awaiting {s : State} {reply : List Byte} (hl : s.lpState = .sending)
    (hs : s.env.channel.script =
      [⟨.afterOut (s.env.channel.out.length + payload.length + s.cfg.lineTerm.length) 0, reply⟩])
    (hne : payload ++ s.cfg.lineTerm ≠ []) :
    Reaches i (s.toSend payload s.cfg.lineTerm)
      { s.onLine { s.env.channel with
            out := s.env.channel.out ++ payload ++ s.cfg.lineTerm, script := [⟨.at s.env.clock.tau, reply⟩] }
          s.env.clock.afterNowMs
          (payload.map .wrByte ++ s.cfg.lineTerm.map .wrByte ++ [.nowMs s.env.clock.nowMs]) with
        lpState := .awaiting, rbuf := [], point := .window, t0 := s.env.clock.nowMs
        idx := idxAfter (if s.cfg.lineTerm = [] then payload else s.cfg.lineTerm).length s } := by
  have hsent := reaches_sent hx hl
  rw [State.sendAll_sendAll hs hne] at hsent
  simpa [State.onLine] using hsent.trans (.step (exec_enterAwait hx _))

end Exchange

/-- Settles O42: the flush, the bytes sent, `T0`, and a wait whose first `Avail` finds the whole reply. -/
theorem replyDecidesTheExchange : Obligations.ReplyDecidesTheExchange := by
  rintro i payload before behind whole b c c' t s hi hl hp hchatter hscript hne rfl rfl rfl rfl hw hpend hdone
  have hx := exec_eq_exchangeStep hi
  have hstart : exec i s = .next { s with lpState := .sending, point := .flushAvail } := by
    simp [hx, exchangeStep, hl, hp]
  have hflush := reaches_flushed hx (s := { s with lpState := .sending, point := .flushAvail }) rfl rfl
    ⟨hchatter, by simp [hscript, Arrival.due]⟩ rfl
  have hsent := reaches_awaiting hx (s := State.onLine { s.env.channel with inbound := [] }
    (s.env.clock.afterAvails (s.env.channel.inbound.length + 1)) (flushEvents s.env.channel.inbound)
    { s with lpState := .sending, point := .flushAvail }) rfl hscript hne
  obtain ⟨k, hk⟩ := (Reaches.step hstart).trans (hflush.trans (hsent.trans (reaches_replied hx rfl rfl
    (c := ⟨before ++ b :: behind, s.env.channel.out ++ payload ++ s.cfg.lineTerm, [], []⟩)
    (by simp [State.onLine, Channel.receive, Arrival.due, hchatter]) ⟨rfl, rfl⟩ rfl hw hpend hdone)))
  have hcode : (if classify (before ++ [b]) = .success then Status.ok else .lineFailure).code =
      if classify (before ++ [b]) = .success then 0x00 else 0x03 := by split <;> rfl
  exact ⟨k, hk.trans (by simp [State.onLine, State.finish, hchatter, idxAfter, hcode])⟩

/-! ### A wait on a clock that runs -/

/-- The exchange ends with one of its two results. -/
def EndsInVerdict (i : Instr) (s : State) : Prop :=
  ∃ k t, execFor i k s = .next t ∧ t.busy = false ∧
    (t.trace.getLast? = some (.result 0x00 0x00 []) ∨ t.trace.getLast? = some (.result 0x03 0x00 []))

theorem Reaches.endsInVerdict {i : Instr} {s u : State} (h : Reaches i s u) (hu : EndsInVerdict i u) :
    EndsInVerdict i s := by
  obtain ⟨k, t, hk, ht⟩ := hu
  obtain ⟨m, hm⟩ := h.trans ⟨k, hk⟩
  exact ⟨m, t, hm, ht⟩

theorem EndsInVerdict.of_finish {i : Instr} {s u : State} {st : Status} (h : Reaches i s (u.finish st 0x00 []))
    (hst : st = .ok ∨ st = .lineFailure) : EndsInVerdict i s := by
  obtain ⟨k, hk⟩ := h
  refine ⟨k, _, hk, rfl, ?_⟩
  rcases hst with rfl | rfl
  · exact .inl List.getLast?_concat
  · exact .inr List.getLast?_concat

/-- The timeout test of a wait that began at the millisecond `start`, on a `RefClock` that has not come round since. -/
theorem windowElapsed_since {start tau x p : Nat} {s : State} (hc : s.env.clock = .ref tau x p)
    (ht0 : s.t0 = BitVec.ofNat 32 start) (hstart : start ≤ tau / 1000) (hnear : tau / 1000 < start + 2 ^ 32) :
    windowElapsed s.env.clock.nowMs s.t0 s.cfg.responseTimeoutMs =
      decide (start + s.cfg.responseTimeoutMs.toNat ≤ tau / 1000) := by
  obtain ⟨d, hd⟩ := Nat.exists_eq_add_of_le hstart
  rw [hc, ht0, Clock.nowMs, hd, windowElapsed_ofNat, Nat.mod_eq_of_lt (by omega)]
  simp

section Wait

variable {i : Instr} {payload : List Byte} (hx : ∀ u, exec i u = exchangeStep payload u)

include hx

/-- A round of the wait whose test does not find the window elapsed ends the exchange or comes to the next test. -/
theorem wait_round {s : State} (hl : s.lpState = .awaiting) (hp : s.point = .window)
    (hw : windowElapsed s.env.clock.nowMs s.t0 s.cfg.responseTimeoutMs = false) :
    EndsInVerdict i s ∨ ∃ u, Reaches i s u ∧ u.lpState = .awaiting ∧ u.point = .window ∧ u.t0 = s.t0 ∧ u.cfg = s.cfg ∧
      u.env.clock = s.env.clock.afterNowMs.afterAvail := by
  cases hq : (s.env.channel.receive s.env.clock.tau).inbound with
  | nil =>
    have hpoll := reaches_polled hx hl hp hw rfl
    rw [if_pos hq] at hpoll
    exact .inr ⟨_, hpoll, hl, rfl, rfl, rfl, rfl⟩
  | cons b q =>
    have hround := reaches_received hx hl hp hw rfl hq
    by_cases hv : classify (s.rbuf ++ [b]) = .pending
    · rw [State.receive_of_pending (s := s.received _ b q) hv] at hround
      exact .inr ⟨_, hround, hl, rfl, rfl, rfl, rfl⟩
    · exact .inl (.of_finish (hround.trans (reaches_finished hx (s := s.received _ b q) hv)) (by split <;> simp))

/-- The wait that began at the millisecond `start` ends, by induction on the microseconds its window has left. -/
theorem wait_ends {start limit tau x p n : Nat} {s : State} (hl : s.lpState = .awaiting) (hp : s.point = .window)
    (hc : s.env.clock = .ref tau x p) (ht0 : s.t0 = BitVec.ofNat 32 start)
    (hlimit : s.cfg.responseTimeoutMs.toNat = limit) (hpos : 1 ≤ p) (hjump : limit + p / 1000 + 1 ≤ 2 ^ 32)
    (hstart : start ≤ tau / 1000) (hnear : tau / 1000 < start + limit + p / 1000 + 1)
    (hn : (start + limit) * 1000 ≤ tau + n) : EndsInVerdict i s := by
  induction n generalizing s tau with
  | zero =>
    refine .of_finish (reaches_timedOut hx hl hp ?_) (.inr rfl)
    rw [windowElapsed_since hc ht0 hstart (by omega), hlimit, decide_eq_true_eq]
    omega
  | succ n ih =>
    cases hw : windowElapsed s.env.clock.nowMs s.t0 s.cfg.responseTimeoutMs with
    | true => exact .of_finish (reaches_timedOut hx hl hp hw) (.inr rfl)
    | false =>
      rcases wait_round hx hl hp hw with hend | ⟨u, hu, hl', hp', ht', hcfg, hclock⟩
      · exact hend
      rw [windowElapsed_since hc ht0 hstart (by omega), hlimit, decide_eq_false_iff_not] at hw
      rw [hc] at hclock
      exact hu.endsInVerdict (ih (tau := tau + p) hl' hp' hclock (ht'.trans ht0) (by rw [hcfg, hlimit]) (by omega)
        (by omega) (by omega))

end Wait

/-- Settles O44: each round of the wait moves the clock by `POLL_COST`, and none of them jumps the window. -/
theorem waitEndsOnARunningClock : Obligations.WaitEndsOnARunningClock := by
  intro i payload s tau x p hi hl hp hc hpos hjump
  have hx := exec_eq_exchangeStep hi
  have hsample : exec i s = .next { s with
      t0 := s.env.clock.nowMs, env := s.env.nowMs.2, point := .window, trace := s.trace ++ [.nowMs s.env.clock.nowMs] } := by
    simp [hx, exchangeStep, hl, hp, State.sampleMs, State.emit]
  refine (Reaches.step hsample).endsInVerdict (wait_ends hx (start := tau / 1000)
    (n := (tau / 1000 + s.cfg.responseTimeoutMs.toNat) * 1000) hl rfl ((s.env.nowMs_clock).trans (by rw [hc]; rfl))
    (by rw [hc]; rfl) rfl hpos hjump le_rfl (by omega) (Nat.le_add_left ..))

end Sys2Proof.Machine
end

/-! # Proofs: the encoding

A word is the packing of its fields, and a row's mask has ones in every field the command does not use: so what a row makes of a
word is spelled by that word again, and the operands of a command come back out of its fields. -/

section

namespace Sys2Proof

/-! ## The encoder's pairs pass the five tests -/

/-- Test (d) of R77. -/
theorem encodeWord_mask (i : Instr) : encodeWord i &&& i.opcode.mask = i.opcode.matchWord := by
  cases i with
  | rdreg addr => exact Laws.FixedBits.rdreg addr
  | wrreg addr byte => exact Laws.FixedBits.wrreg addr byte
  | rdburst addr count => exact Laws.FixedBits.rdburst addr count
  | wrburst addr bytes => exact Laws.FixedBits.wrburst addr bytes
  | getbf addr msb lsb => exact Laws.FixedBits.getbf addr msb lsb
  | setbf addr value msb lsb win => exact Laws.FixedBits.setbf addr value msb lsb win
  | flush => exact Laws.FixedBits.flush
  | sendcmd text => exact Laws.FixedBits.sendcmd text
  | senddata bytes => exact Laws.FixedBits.senddata bytes

/-- A payload that fits is as long as its count says. -/
theorem length_eq_of_payloadFits {bytes : List Byte} (h : payloadFits bytes = true) :
    bytes.length = (BitVec.ofNat 16 bytes.length).toNat := by
  have hlt : bytes.length < 65536 := by simpa [payloadFits] using h
  rw [BitVec.toNat_ofNat, Nat.mod_eq_of_lt hlt]

/-- Test (e) of R77. -/
theorem encodePayload_length {i : Instr} (h : i.wellFormed = true) :
    (encodePayload i).length = i.opcode.payloadLength (encodeWord i) := by
  cases i with
  | wrburst _ bytes | sendcmd bytes | senddata bytes =>
    rw [encodeWord, Opcode.payloadLength, arg16Field_packWord]
    exact length_eq_of_payloadFits h
  | rdreg | wrreg | rdburst | getbf | setbf | flush => rfl

/-- Each operand comes back out of its field. -/
theorem build_encode (i : Instr) : i.opcode.build (encodeWord i) (encodePayload i) = i := by
  cases i <;> simp [Instr.opcode, Opcode.build, encodeWord, encodePayload]

/-- Settles O10: the pair of a command passes the five tests, and its row builds the command. -/
theorem decodeGivesBackTheEncodedCommand : Obligations.DecodeGivesBackTheEncodedCommand := by
  intro i h
  exact decode_eq_ok.mpr ⟨i.opcode, by simp, by simp, by simp, encodeWord_mask i, encodePayload_length h, build_encode i⟩

/-! ## The decoder's pairs are spelled by the encoder -/

/-- A field under ones of the mask is the field of the match word. -/
theorem extractLsb'_of_mask {w mask fixed : Word} {start len : Nat} (h : w &&& mask = fixed)
    (hm : mask.extractLsb' start len = BitVec.allOnes len) : w.extractLsb' start len = fixed.extractLsb' start len := by
  rw [← h, BitVec.extractLsb'_and, hm, BitVec.and_allOnes]

section UnusedFields

variable {k : Opcode} {w : Word} (h : w &&& k.mask = k.matchWord)

include h

theorem addrField_of_mask (hk : addrField k.mask = 0xFF) : addrField w = 0 :=
  (extractLsb'_of_mask h hk).trans (by cases k <;> rfl)

theorem dataField_of_mask (hk : dataField k.mask = 0xFF) : dataField w = 0 :=
  (extractLsb'_of_mask h hk).trans (by cases k <;> rfl)

theorem msbField_of_mask (hk : msbField k.mask = 0xFF) : msbField w = 0 :=
  (extractLsb'_of_mask h hk).trans (by cases k <;> rfl)

theorem lsbField_of_mask (hk : lsbField k.mask = 0xFF) : lsbField w = 0 :=
  (extractLsb'_of_mask h hk).trans (by cases k <;> rfl)

theorem arg16Field_of_mask (hk : arg16Field k.mask = 0xFFFF) : arg16Field w = 0 :=
  (extractLsb'_of_mask h hk).trans (by cases k <;> rfl)

end UnusedFields

/-- The payload of a pair that passes test (e) is the one its row keeps, or empty. -/
theorem encodePayload_build {k : Opcode} {w : Word} {payload : List Byte} (hlen : payload.length = k.payloadLength w) :
    encodePayload (k.build w payload) = payload := by
  cases k with
  | wrburst | sendcmd | senddata => rfl
  | rdreg | wrreg | rdburst | getbf | setbf | flush => exact (List.length_eq_zero_iff.mp hlen).symm

/-- A word that passes tests (c) to (e) is the packing of the fields its row uses. -/
theorem encodeWord_build {k : Opcode} {w : Word} {payload : List Byte} (hop : k.code = opField w) (hz : zeroField w = 0)
    (hmask : w &&& k.mask = k.matchWord) (hlen : payload.length = k.payloadLength w) :
    encodeWord (k.build w payload) = w := by
  have hcount : k.carriesPayload = true → BitVec.ofNat 16 payload.length = arg16Field w := by
    intro hk
    rw [hlen, Opcode.payloadLength, if_pos hk, BitVec.ofNat_toNat, BitVec.setWidth_eq]
  refine Eq.trans ?_ (packWord_fields hz)
  rw [← hop]
  cases k with
  | rdreg =>
    rw [dataField_of_mask hmask rfl, msbField_of_mask hmask rfl, lsbField_of_mask hmask rfl, arg16Field_of_mask hmask rfl]
    rfl
  | wrreg =>
    rw [msbField_of_mask hmask rfl, lsbField_of_mask hmask rfl, arg16Field_of_mask hmask rfl]
    rfl
  | rdburst =>
    rw [dataField_of_mask hmask rfl, msbField_of_mask hmask rfl, lsbField_of_mask hmask rfl]
    rfl
  | wrburst =>
    rw [dataField_of_mask hmask rfl, msbField_of_mask hmask rfl, lsbField_of_mask hmask rfl, ← hcount rfl]
    rfl
  | getbf =>
    rw [dataField_of_mask hmask rfl, arg16Field_of_mask hmask rfl]
    rfl
  | setbf => rfl
  | flush =>
    rw [addrField_of_mask hmask rfl, dataField_of_mask hmask rfl, msbField_of_mask hmask rfl, lsbField_of_mask hmask rfl,
      arg16Field_of_mask hmask rfl]
    rfl
  | sendcmd | senddata =>
    rw [addrField_of_mask hmask rfl, dataField_of_mask hmask rfl, msbField_of_mask hmask rfl, lsbField_of_mask hmask rfl,
      ← hcount rfl]
    rfl

/-- Settles O11: the row that decodes the pair spells it again. -/
theorem decodedPairsAreEncodings : Obligations.DecodedPairsAreEncodings := by
  intro m w payload i h
  obtain ⟨k, hk, -, hz, hmask, hlen, rfl⟩ := decode_eq_ok.mp h
  exact ⟨Machine.wellFormed_of_decode h, Machine.engine_of_decode h,
    encodeWord_build (Opcode.ofCode_eq_some.mp hk) hz hmask hlen, encodePayload_build hlen⟩

/-! ## The pairs that are refused -/

/-- The decoder is total: a pair it does not refuse is a command (R75). -/
theorem decode_error_iff {m : Mode} {w : Word} {payload : List Byte} :
    (∃ r, decode m w payload = .error r) ↔ ∀ i, decode m w payload ≠ .ok i := by
  cases decode m w payload <;> simp

/-- Settles O12: a pair decodes where the row of its op passes the four other tests. -/
theorem illegalPairsAreThoseOfTheFiveTests : Obligations.IllegalPairsAreThoseOfTheFiveTests := by
  intro m w payload
  rw [decode_error_iff]
  constructor
  · intro h
    cases hk : Opcode.ofCode (opField w) with
    | none => exact .inl (Opcode.ofCode_eq_none.mp hk)
    | some k =>
      refine .inr ⟨k, Opcode.ofCode_eq_some.mp hk, ?_⟩
      by_contra hpass
      simp only [not_or, not_not] at hpass
      obtain ⟨he, hz, hmask, hlen⟩ := hpass
      exact h _ (decode_eq_ok.mpr ⟨k, hk, he, hz, hmask, hlen, rfl⟩)
  · intro h i hi
    obtain ⟨k, hk, he, hz, hmask, hlen, -⟩ := decode_eq_ok.mp hi
    rcases h with hnone | ⟨k', hk', htest⟩
    · exact hnone k (Opcode.ofCode_eq_some.mp hk)
    · obtain rfl : k = k' := Option.some.inj (hk.symm.trans (Opcode.ofCode_eq_some.mpr hk'))
      rcases htest with h | h | h | h
      · exact h he
      · exact h hz
      · exact h hmask
      · exact h hlen

/-- A pair that decodes has a row, of the engine of the mode (R76). -/
theorem opcode_of_decode {m : Mode} {w : Word} {payload : List Byte} {i : Instr} (h : decode m w payload = .ok i) :
    ∃ k, Opcode.ofCode (opField w) = some k ∧ k.engine = m := by
  obtain ⟨k, hk, he, -⟩ := decode_eq_ok.mp h
  exact ⟨k, hk, he⟩

/-- Settles O13: the rows of each engine have the codes R76 gives, and a row has one engine. -/
theorem modeSelectsTheEngine : Obligations.ModeSelectsTheEngine := by
  have hbyte : ∀ k : Opcode, k.engine = .byte → 0x01 ≤ k.code.toNat ∧ k.code.toNat ≤ 0x06 := by
    intro k
    cases k <;> decide
  have hline : ∀ k : Opcode, k.engine = .line → 0x10 ≤ k.code.toNat ∧ k.code.toNat ≤ 0x12 := by
    intro k
    cases k <;> decide
  refine ⟨fun w payload i h => ?_, fun w payload i h => ?_,
    fun m m' w payload i h hne => decode_error_iff.mpr fun j hj => ?_⟩
  · obtain ⟨k, hk, he⟩ := opcode_of_decode h
    exact Opcode.ofCode_eq_some.mp hk ▸ hbyte k he
  · obtain ⟨k, hk, he⟩ := opcode_of_decode h
    exact Opcode.ofCode_eq_some.mp hk ▸ hline k he
  · obtain ⟨k, hk, rfl⟩ := opcode_of_decode h
    obtain ⟨k', hk', rfl⟩ := opcode_of_decode hj
    obtain rfl : k = k' := Option.some.inj (hk.symm.trans hk')
    exact hne rfl

/-- Settles O9: each word is evaluated; the illegal ones are refused under both modes. -/
theorem wordsOfTheSpecDecode : Obligations.WordsOfTheSpecDecode := by
  refine ⟨rfl, rfl, rfl, rfl, rfl, rfl, rfl, rfl, rfl, rfl, fun m => ⟨.reservedOpcode, rfl⟩, fun m => ?_, fun m => ?_,
    fun m => ?_, fun m => ?_, ⟨.wrongEngine, rfl⟩⟩ <;> cases m <;> exact ⟨_, rfl⟩

end Sys2Proof
end

/-! # Proofs: the verdict, illegal commands, results, and the sending of an exchange

A keyword is completed by a byte where it is the new end of the buffer (`contains_concat`).  The exchange up to its wait is run
with its steps counted: the flush takes two a byte and one more, each byte sent takes one. -/

section

namespace Sys2Proof.Machine

open Sys2Proof

/-! ## The verdict on a byte -/

/-- The keyword stands somewhere in the buffer (spec/42_line_protocol.md R145). -/
theorem contains_iff_infix (s k : List Byte) : contains s k = true ↔ k <:+: s := by
  induction s with
  | nil => rw [contains, List.isPrefixOf_iff_prefix, List.prefix_nil, List.infix_nil]
  | cons b s ih => rw [contains, Bool.or_eq_true, List.isPrefixOf_iff_prefix, ih, List.infix_cons_iff]

/-- A keyword the buffer did not hold is completed by a byte where it is the new end. -/
theorem contains_concat {s k : List Byte} (b : Byte) (h : contains s k = false) :
    contains (s ++ [b]) k = true ↔ k <:+ s ++ [b] := by
  have hk : ¬ k <:+: s := by rw [← contains_iff_infix, h]; exact Bool.false_ne_true
  rw [contains_iff_infix, List.infix_concat_iff, or_iff_left hk]

/-- The two keywords do not end alike. -/
theorem not_kwOk_and_kwErr_suffix (s : List Byte) : ¬ (kwOk <:+ s ∧ kwErr <:+ s) := by
  rintro ⟨hok, herr⟩
  rcases List.suffix_or_suffix_of_suffix hok herr with h | h
  · exact absurd h (by decide)
  · exact absurd h (by decide)

/-- `KW_OK` is tested first (R144). -/
theorem classify_eq_success (s : List Byte) : classify s = .success ↔ contains s kwOk = true := by
  unfold classify
  split
  · next h => simp [h]
  · next h => split <;> simp [h]

theorem classify_eq_failure (s : List Byte) :
    classify s = .failure ↔ contains s kwErr = true ∧ ¬ contains s kwOk = true := by
  unfold classify
  split
  · next h => simp [h]
  · next h =>
    split
    · next h' => simp [h, h']
    · next h' => simp [h']

/-- Settles O20: a byte completes a keyword where it is the new end, and the keywords do not end alike. -/
theorem verdictIsReadOffTheLastBytes : Obligations.VerdictIsReadOffTheLastBytes := by
  intro rbuf b hok herr
  have hok : contains (rbuf ++ [b]) kwOk = true ↔ kwOk <:+ rbuf ++ [b] := contains_concat b hok
  have herr : contains (rbuf ++ [b]) kwErr = true ↔ kwErr <:+ rbuf ++ [b] := contains_concat b herr
  have hnot := not_kwOk_and_kwErr_suffix (rbuf ++ [b])
  refine ⟨(classify_eq_success _).trans hok, ?_, ?_⟩
  · rw [classify_eq_failure, hok, herr]
    exact and_iff_left_of_imp fun he ho => hnot ⟨ho, he⟩
  · rintro ⟨ho, he⟩
    exact hnot ⟨hok.mp ho, herr.mp he⟩

/-! ## Illegal commands and results -/

/-- Settles O14: the step that accepts it owes `IllegalCommand`, and the next one answers. -/
theorem illegalCommandsOnlyAnswer : Obligations.IllegalCommandsOnlyAnswer := by
  intro s c rest r hb ht hr ho hd
  have haccept : step s = .next ((s.accept c).owe .illegalCommand) := by
    rw [step_of_noTurn ht, seqStep_of_idle hr hb, State.acceptStep_of_error ho hd]
  have hanswer : step ((s.accept c).owe .illegalCommand) =
      .next (((s.accept c).owe .illegalCommand).raise .illegalCommand) := by
    rw [step_of_noTurn (s := (s.accept c).owe .illegalCommand) ht,
      seqStep_of_busy (s := (s.accept c).owe .illegalCommand) hr rfl]
    rfl
  rw [run_succ 1 haccept, run_succ 0 hanswer]
  simp [Host.Core.run, State.owe, State.finish, State.accept, State.emit, ho, Status.code]

/-- Settles O22: where `OK` is owed each command delivers from its registers. -/
theorem eachCommandDeliversItsResult : Obligations.EachCommandDeliversItsResult := by
  intro s hp
  refine ⟨fun hr addr b hb => ?_, fun hr addr byte => ?_, fun hr addr count => ?_, fun hr addr bytes => ?_,
    fun hr addr msb lsb hm => ?_, fun hr addr value msb lsb win => ?_, fun hl => ?_, fun hl text => ?_, fun hl bytes => ?_⟩
  · simp [exec, execRdreg, hr, hp, hb, State.finish, Status.code]
  · simp [exec, execWrreg, hr, hp, State.finish, Status.code]
  · simp [exec, execRdburst, hr, hp, State.finish, Status.code]
  · simp [exec, execWrburst, hr, hp, State.finish, Status.code]
  · simp [exec, execGetbf, hr, hp, hm, extractField, State.finish, Status.code]
  · simp [exec, execSetbf, hr, hp, State.finish, Status.code]
  · simp [exec, execFlush, hl, hp, State.finish, Status.code]
  · simp [exec, execSendcmd, exchangeStep, hl, hp, State.finish, Status.code]
  · simp [exec, execSenddata, exchangeStep, hl, hp, State.finish, Status.code]

/-! ## The sending of an exchange, step by step -/

/-- A channel without a script only logs what is written. -/
theorem Channel.writeAll_of_noScript {c : Channel} (h : c.script = []) (tau : Nat) (l : List Byte) :
    c.writeAll tau l = { c with out := c.out ++ l } := by
  induction l generalizing c with
  | nil => simp [Channel.writeAll]
  | cons b l ih => rw [Channel.writeAll, ih (by simp [Channel.write, h])]; simp [Channel.write, h]

/-- The payload and the terminator, sent to a device that says nothing. -/
theorem State.sendAll_of_noScript {s : State} (h : s.env.channel.script = []) (payload term : List Byte) :
    (s.sendAll payload payload).sendAll term term =
      { s.onLine { s.env.channel with out := s.env.channel.out ++ payload ++ term } s.env.clock
          (payload.map .wrByte ++ term.map .wrByte) with
        idx := idxAfter (if term = [] then payload else term).length s } := by
  rw [State.sendAll_eq, State.sendAll_eq]
  cases term <;> simp [State.onLine, Channel.writeAll_of_noScript, h, idxAfter]

section Exchange

variable {i : Instr} {payload : List Byte} (hx : ∀ u, exec i u = exchangeStep payload u)

include hx

/-- The flush drops the queue with an `Avail` and a `RdByte` a byte, and ends at the last `Avail`. -/
theorem execFor_flushed {q : List Byte} {s : State} (hl : s.lpState = .sending) (hp : s.point = .flushAvail)
    (hw : s.env.channel.Waits) (hq : s.env.channel.inbound = q) :
    execFor i (2 * q.length + 1) s = .next (State.toSend payload s.cfg.lineTerm
      (s.onLine { s.env.channel with inbound := [] } (s.env.clock.afterAvails (q.length + 1)) (flushEvents q))) := by
  induction q generalizing s with
  | nil =>
    have hch : { s.env.channel with inbound := [] } = s.env.channel := by rw [← hq]
    rw [hch]
    exact execFor_succ 0 (exec_flushAvail_nil hx hl hp hw hq)
  | cons b q ih =>
    have havail : exec i s = .next { s.onLine s.env.channel s.env.clock.afterAvail [.avail (q.length + 1)] with
        point := .flushRead } := by
      simp [hx, exchangeStep, hl, hp, flushAvailStep, Env.avail_of_waits hw, hq, State.onLine, State.emit]
    have hread : exec i { s.onLine s.env.channel s.env.clock.afterAvail [.avail (q.length + 1)] with point := .flushRead } =
        .next (s.onLine { s.env.channel with inbound := q } s.env.clock.afterAvail [.avail (q.length + 1), .rdByte b]) := by
      simp [hx, exchangeStep, hl, hp, flushReadStep, Env.rdByte, hq, State.onLine, State.emit]
    have hrest := ih (s := s.onLine { s.env.channel with inbound := q } s.env.clock.afterAvail
      [.avail (q.length + 1), .rdByte b]) hl hp hw rfl
    rw [State.onLine_onLine] at hrest
    exact (execFor_succ _ havail).trans ((execFor_succ _ hread).trans hrest)

/-- The payload is written in a step a byte. -/
theorem execFor_payloadSent {rest : List Byte} {s : State} (hl : s.lpState = .sending) :
    execFor i rest.length (s.toSend rest s.cfg.lineTerm) = .next ((s.sendAll payload rest).toSend [] s.cfg.lineTerm) := by
  induction rest generalizing s with
  | nil => rfl
  | cons b rest ih =>
    rw [State.toSend_cons]
    exact (execFor_succ _ ((hx _).trans (exchangeStep_send b rest hl))).trans (ih (s := s.sendByte payload rest b) hl)

/-- So is the terminator, and the wait begins behind its last byte. -/
theorem execFor_termSent {rest : List Byte} {s : State} (hl : s.lpState = .sending) :
    execFor i rest.length (s.toSend [] rest) = .next (s.sendAll s.cfg.lineTerm rest).enterAwait := by
  induction rest generalizing s with
  | nil => rfl
  | cons b rest ih =>
    rw [State.toSend_nil_cons]
    exact (execFor_succ _ ((hx _).trans (exchangeStep_term b rest hl))).trans (ih (s := s.sendByte s.cfg.lineTerm rest b) hl)

/-- The payload and the terminator, to the entry to `AWAITING`, to a device that says nothing. -/
theorem execFor_sent {s : State} (hl : s.lpState = .sending) (hs : s.env.channel.script = []) :
    execFor i (payload.length + s.cfg.lineTerm.length) (s.toSend payload s.cfg.lineTerm) =
      .next { s.onLine { s.env.channel with out := s.env.channel.out ++ payload ++ s.cfg.lineTerm } s.env.clock
          (payload.map .wrByte ++ s.cfg.lineTerm.map .wrByte) with
        lpState := .awaiting, rbuf := [], point := .sample
        idx := idxAfter (if s.cfg.lineTerm = [] then payload else s.cfg.lineTerm).length s } := by
  have hkeep : (s.sendAll payload payload).lpState = s.lpState ∧ (s.sendAll payload payload).cfg = s.cfg := by
    rw [State.sendAll_eq]
    exact ⟨rfl, rfl⟩
  obtain ⟨hl', hcfg⟩ := hkeep
  have hterm := execFor_termSent hx (rest := s.cfg.lineTerm) (hl'.trans hl)
  rw [hcfg, State.sendAll_of_noScript hs] at hterm
  exact (execFor_add _ _ (execFor_payloadSent hx hl)).trans hterm

end Exchange

/-- Settles O40: the start, the flush and the bytes sent, each step counted. -/
theorem exchangesFlushThenSend : Obligations.ExchangesFlushThenSend := by
  rintro i payload whole s hi hl hp hsilent rfl
  have hscript : s.env.channel.script = [] := by obtain ⟨h, -⟩ := hsilent; exact h
  have hx := exec_eq_exchangeStep hi
  have hstart : exec i s = .next { s with lpState := .sending, point := .flushAvail } := by
    simp [hx, exchangeStep, hl, hp]
  have hflush := execFor_flushed hx (s := { s with lpState := .sending, point := .flushAvail }) rfl rfl hsilent.waits rfl
  have hsent := execFor_sent hx (s := State.onLine { s.env.channel with inbound := [] }
    (s.env.clock.afterAvails (s.env.channel.inbound.length + 1)) (flushEvents s.env.channel.inbound)
    { s with lpState := .sending, point := .flushAvail }) rfl hscript
  have hcount : 2 * s.env.channel.inbound.length + 2 + payload.length + s.cfg.lineTerm.length =
      (2 * s.env.channel.inbound.length + 1) + (payload.length + s.cfg.lineTerm.length) + 1 := by omega
  rw [hcount, execFor_succ _ hstart, execFor_add _ _ hflush]
  refine hsent.trans ?_
  simp only [State.onLine, List.append_assoc]
  rfl

end Sys2Proof.Machine
end

/-! # Proofs: the bursts, the hold for the bus, and the transport of each mode

A burst is a start, one transaction (`execFor_txn`) and a `Result`.  At `T_ACQ` every register command makes the bus step of its
transaction (`exec_eq_busStep_of_phase`), which waits or begins.  A step of a command keeps to its engine's transport
(`exec_keepsToTransport`), and the engine is the one of `MODE`, so a step of `SEQ` keeps to its mode's. -/

section

namespace Sys2Proof.Machine

open Sys2Proof

/-! ## The bursts -/

/-- Settles O25: its start, its transaction of `count` filler bytes, its `Result`. -/
theorem rdburstReadsExactlyCountBytes : Obligations.RdburstReadsExactlyCountBytes := by
  rintro addr count s tx r ⟨hr, -, hp⟩ ho rfl rfl
  refine ⟨by simp, ?_⟩
  have hstart : exec (.rdburst addr count) s =
      .next { s with rbPhase := .plain, rxdata := [], txnStep := .acq, point := .txn } := by
    simp [exec, execRdburst, hr, hp, State.openTxn]
  have hlen : (List.replicate count.toNat s.cfg.filler).length ≤ 65536 := by
    rw [List.length_replicate]
    exact count.isLt.le
  have htxn := execFor_txn (rdburst_stepsTxn addr count s.cfg s.new) hlen
    { s with rbPhase := .plain, rxdata := [], txnStep := .acq, point := .txn } rfl rfl rfl rfl rfl ho
  rw [List.length_replicate] at htxn
  refine (execFor_succ (count.toNat + 5 + 1) hstart).trans ((execFor_add _ 1 htxn).trans ?_)
  simp [execFor, exec, execRdburst, State.captureAll, State.owe, State.finish, State.ready, Status.code, idxAfter]

/-- Settles O26: its start, its transaction of the payload, its `Result`. -/
theorem wrburstWritesItsPayloadInOrder : Obligations.WrburstWritesItsPayloadInOrder := by
  rintro addr bytes s r hfits ⟨hr, -, hp⟩ ho rfl
  have hstart : exec (.wrburst addr bytes) s = .next { s with rbPhase := .plain, txnStep := .acq, point := .txn } := by
    simp [exec, execWrburst, hr, hp, State.openTxn]
  have hlen : bytes.length ≤ 65536 := (of_decide_eq_true hfits).le
  have htxn := execFor_txn (wrburst_stepsTxn addr bytes s.cfg s.new) hlen
    { s with rbPhase := .plain, txnStep := .acq, point := .txn } rfl rfl rfl rfl rfl ho
  refine (execFor_succ (bytes.length + 5 + 1) hstart).trans ((execFor_add _ 1 htxn).trans ?_)
  simp [execFor, exec, execWrburst, State.captureAll, State.owe, State.finish, State.ready, Status.code, idxAfter]

/-! ## The hold for the bus -/

/-- In each phase with a transaction a command of the phase makes a bus step at the point of one. -/
theorem exec_eq_busStep_of_phase {i : Instr} {s : State} (hp : s.point = .txn)
    (h : (s.rbPhase = .plain ∧ i.opcode ∈ [.rdreg, .wrreg, .rdburst, .wrburst]) ∨
      (s.rbPhase = .bfRead ∧ i.opcode ∈ [.getbf, .setbf]) ∨
      ((s.rbPhase = .bfWrite ∨ s.rbPhase = .bfPoll) ∧ i.opcode = .setbf)) :
    ∃ wire tx c released, exec i s = busStep wire tx c released s := by
  rcases h with ⟨hr, hi⟩ | ⟨hr, hi⟩ | ⟨hr, hi⟩
  · cases i with
    | rdreg addr => exact ⟨_, _, _, _, rdreg_stepsTxn addr s.cfg s.new s hp hr rfl rfl⟩
    | wrreg addr byte => exact ⟨_, _, _, _, wrreg_stepsTxn addr byte s.cfg s.new s hp hr rfl rfl⟩
    | rdburst addr count => exact ⟨_, _, _, _, rdburst_stepsTxn addr count s.cfg s.new s hp hr rfl rfl⟩
    | wrburst addr bytes => exact ⟨_, _, _, _, wrburst_stepsTxn addr bytes s.cfg s.new s hp hr rfl rfl⟩
    | getbf | setbf | flush | sendcmd | senddata => simp [Instr.opcode] at hi
  · cases i with
    | getbf addr msb lsb => exact ⟨_, _, _, _, getbf_stepsTxn addr msb lsb s.cfg s.new s hp hr rfl rfl⟩
    | setbf addr value msb lsb win =>
      exact ⟨_, _, _, _, setbf_read_stepsTxn addr value msb lsb win s.cfg s.new s hp hr rfl rfl⟩
    | rdreg | wrreg | rdburst | wrburst | flush | sendcmd | senddata => simp [Instr.opcode] at hi
  · cases i with
    | setbf addr value msb lsb win =>
      rcases hr with hr | hr
      · exact ⟨_, _, _, _, setbf_write_stepsTxn addr value msb lsb win s.cfg s.new s hp hr rfl rfl⟩
      · exact ⟨_, _, _, _, setbf_poll_stepsTxn addr value msb lsb win s.cfg s.new s hp hr rfl rfl⟩
    | rdreg | wrreg | rdburst | wrburst | getbf | flush | sendcmd | senddata => cases hi

section Acq

variable {wire : Byte} {tx : List Byte} {c : Capture} {released : State → State} {s : State}

theorem busStep_acq_held (ht : s.txnStep = .acq) (ho : s.env.otherOwns = true) :
    busStep wire tx c released s = .next s := by
  simp [busStep, ht, Env.busFree, ho]

theorem busStep_acq_free (ht : s.txnStep = .acq) (ho : s.env.otherOwns = false) :
    busStep wire tx c released s = .next { s with
      busOwned := true, txnStep := .sel, env := s.env.beginTxn, trace := s.trace ++ [.beginTxn] } := by
  simp [busStep, ht, Env.busFree, ho, State.emit]

end Acq

/-- A state that a step of the command does not change is left by no number of steps. -/
theorem execFor_of_exec_self {i : Instr} {s : State} (h : exec i s = .next s) (k : Nat) : execFor i k s = .next s := by
  induction k with
  | zero => rfl
  | succ k ih => rw [execFor_succ k h, ih]

/-- Another user's beginning is without effect while `SEQ` owns the bus. -/
theorem otherOwns_otherBegin_of_busOwned {s : State} (h : s.busOwned = true) :
    (s.environmentMove .otherBegin).env.otherOwns = s.env.otherOwns := by
  simp [State.environmentMove, Env.move, h]

/-- Settles O27: the command's step is the bus step at `T_ACQ`, which waits for a bus that is owned and takes a free one. -/
theorem transactionsWaitForTheBus : Obligations.TransactionsWaitForTheBus := by
  intro i s hp ht hphase
  obtain ⟨wire, tx, c, released, hexec⟩ := exec_eq_busStep_of_phase hp hphase
  refine ⟨fun ho => ?_, fun ho => ?_, fun u => otherOwns_otherBegin_of_busOwned⟩
  · exact execFor_of_exec_self (hexec.trans (busStep_acq_held ht ho))
  · exact hexec.trans (busStep_acq_free ht ho)

/-! ## The transport of each mode -/

/-- An event of the transport that the mode does not use. -/
def Event.isForeign : Mode → Event → Bool
  | .byte => Event.isSerial
  | .line => Event.isBus

/-- The state of the transport that the mode does not use is the same: the serial channel, or the bus with its device. -/
def SameForeign : Mode → State → State → Prop
  | .byte, s, t => t.env.channel = s.env.channel
  | .line, s, t => t.env.device = s.env.device ∧ SameBusState s t

/-- From `s` to `t` the transport that the mode does not use rests and has no event. -/
structure KeepsToTransport (m : Mode) (s t : State) : Prop where
  foreign : SameForeign m s t
  events  : ∃ es, t.trace = s.trace ++ es ∧ ∀ e ∈ es, e.isForeign m = false

theorem Event.isForeign_of_ofEngine {m : Mode} {e : Event} (h : e.ofEngine m = true) : e.isForeign m = false := by
  cases m with
  | byte =>
    cases e with
    | avail | rdByte | wrByte => exact nomatch h
    | _ => rfl
  | line =>
    cases e with
    | beginTxn | selAssert | xfer | selDeassert | endTxn => exact nomatch h
    | _ => rfl

/-- What leaves both transports as they are leaves the other mode's. -/
theorem SameForeign.of_both {s t : State} (m : Mode) (hc : t.env.channel = s.env.channel)
    (hd : t.env.device = s.env.device) (hb : SameBusState s t) : SameForeign m s t := by
  cases m with
  | byte => exact hc
  | line => exact ⟨hd, hb⟩

theorem SameForeign.trans {m : Mode} {s u t : State} (h : SameForeign m s u) (h' : SameForeign m u t) :
    SameForeign m s t := by
  cases m with
  | byte => exact Eq.trans h' h
  | line =>
    obtain ⟨hd, ht, ho, hs⟩ := h
    obtain ⟨hd', ht', ho', hs'⟩ := h'
    exact ⟨hd'.trans hd, ht'.trans ht, ho'.trans ho, hs'.trans hs⟩

theorem KeepsToTransport.quiet {m : Mode} {s t : State} (hf : SameForeign m s t) (ht : t.trace = s.trace) :
    KeepsToTransport m s t := ⟨hf, [], by simpa using ht, by simp⟩

theorem KeepsToTransport.event {m : Mode} {s t : State} (e : Event) (hf : SameForeign m s t)
    (ht : t.trace = s.trace ++ [e]) (he : e.isForeign m = false) : KeepsToTransport m s t :=
  ⟨hf, [e], ht, by simpa using he⟩

theorem KeepsToTransport.trans {m : Mode} {s u t : State} (h : KeepsToTransport m s u) (h' : KeepsToTransport m u t) :
    KeepsToTransport m s t := by
  obtain ⟨hf, es, htrace, hes⟩ := h
  obtain ⟨hf', es', htrace', hes'⟩ := h'
  refine ⟨hf.trans hf', es ++ es', by simp [htrace, htrace'], ?_⟩
  simpa [or_imp, forall_and] using ⟨hes, hes'⟩

/-- The acceptance of a command belongs to neither transport. -/
theorem KeepsToTransport.accept (m : Mode) (c : Command) (s : State) : KeepsToTransport m s (s.accept c) :=
  .event (.cmdAccept c.word c.payload) (.of_both m rfl rfl ⟨rfl, rfl, rfl⟩) rfl (by cases m <;> rfl)

/-- Nor does a `Result`. -/
theorem KeepsToTransport.finish (m : Mode) (st : Status) (v : Byte) (d : List Byte) (s : State) :
    KeepsToTransport m s (s.finish st v d) :=
  .event (.result st.code v d) (.of_both m rfl rfl ⟨rfl, rfl, rfl⟩) rfl (by cases m <;> rfl)

theorem SameOffByteEngine.channel {s t : State} (h : SameOffByteEngine s t) : t.env.channel = s.env.channel := by
  obtain ⟨-, -, -, hc, -⟩ := h.offBus
  exact hc

theorem exec_sameForeign {i : Instr} {s t : State} (h : exec i s = .next t) : SameForeign i.engine s t := by
  cases i with
  | rdreg addr => exact (execRdreg_frame h).channel
  | wrreg addr byte => exact (execWrreg_frame h).1.channel
  | rdburst addr count => exact (execRdburst_frame h).channel
  | wrburst addr bytes => exact (execWrburst_frame h).1.channel
  | getbf addr msb lsb => exact (execGetbf_frame h).channel
  | setbf addr value msb lsb win => exact (execSetbf_frame h).channel
  | flush => exact ⟨(execFlush_frame h).1.device, (execFlush_frame h).1.bus⟩
  | sendcmd text | senddata bytes => exact ⟨(exchangeStep_frame h).device, (exchangeStep_frame h).bus⟩

/-- A step of a command keeps to the transport of its engine. -/
theorem exec_keepsToTransport {i : Instr} {s t : State} (h : exec i s = .next t) : KeepsToTransport i.engine s t := by
  rcases exec_performs h with htrace | ⟨e, htrace, he⟩
  · exact .quiet (exec_sameForeign h) htrace
  · exact .event e (exec_sameForeign h) htrace (Event.isForeign_of_ofEngine he)

/-- Every command that `SEQ` runs is one of the engine of `MODE`. -/
theorem seqStep_keepsToTransport {s t : State} (h : seqStep s = .next t) : KeepsToTransport s.cfg.mode s t := by
  rcases seqStep_cases h with ⟨-, rfl⟩ | ⟨-, -, rfl⟩ | ⟨-, -, i, hl, he⟩ | ⟨-, c, rest, -, ⟨i, hd, he⟩ | ⟨r, -, rfl⟩⟩
  · exact .quiet (.of_both _ rfl rfl ⟨rfl, rfl, rfl⟩) rfl
  · exact .finish ..
  · have hi : i.engine = s.cfg.mode := engine_of_decode hl
    exact hi ▸ exec_keepsToTransport he
  · have hi : i.engine = s.cfg.mode := engine_of_decode hd
    exact (KeepsToTransport.accept _ c s).trans (hi ▸ exec_keepsToTransport he)
  · exact (KeepsToTransport.accept _ c s).trans (.quiet (.of_both _ rfl rfl ⟨rfl, rfl, rfl⟩) rfl)

/-- Settles O56: a step of `SEQ` keeps to its mode's transport; with `MODE = LINE` no transaction is open, so the bus is free. -/
theorem eachModeHasItsOwnTransport : Obligations.EachModeHasItsOwnTransport := by
  intro s t hi hturn h
  rw [step_of_seqTurn hturn] at h
  obtain ⟨hforeign, hevents⟩ : KeepsToTransport s.cfg.mode s.dropTurn t := seqStep_keepsToTransport h
  refine ⟨fun hm => ?_, fun hm => ?_⟩ <;> rw [hm] at hforeign hevents
  · exact ⟨hforeign, hevents⟩
  · obtain ⟨hdevice, -, howned, hsel⟩ := hforeign
    obtain ⟨-, hstep⟩ := hi.lineMode hm
    obtain ⟨hfree, hinactive⟩ := hi.bus.free hstep
    exact ⟨howned.trans hfree, hsel.trans hinactive, hdevice, hevents⟩

end Sys2Proof.Machine
end

/-! # Proofs: bit fields

The arithmetic is shown bit by bit, from the bits of the mask, of a field and of a merged byte (`fieldMask_getLsbD`,
`extractField_getLsbD`, `mergeField_getLsbD`).  The commands are read off the head of a bit-field command
(`fieldStart_cases`), the window test of the poll (`setbfWindow_cases`) and the run that fails (O33). -/

section

namespace Sys2Proof.Machine

open Sys2Proof

/-! ## The mask -/

theorem validRange_iff {msb lsb : Byte} :
    validRange msb lsb = true ↔ msb.toNat ≤ 7 ∧ lsb.toNat ≤ 7 ∧ lsb.toNat ≤ msb.toNat := by
  simp [validRange, and_assoc]

/-- The low `n` bits of a number are the sum of the powers of two that are set in it. -/
theorem mod_two_pow_eq_sum_bits (x n : Nat) :
    x % 2 ^ n = (((List.range n).filter (fun i => x.testBit i)).map (fun i => 2 ^ i)).sum := by
  induction n with
  | zero => simp [Nat.mod_one]
  | succ n ih =>
    rw [Nat.mod_pow_succ, ← Nat.toNat_testBit, ih, List.range_succ, List.filter_append, List.map_append, List.sum_append]
    cases h : x.testBit n <;> simp [h]

/-- The mask as a number: the sum of `2^i` over the bits of the range (spec/41_bitfield.md R111). -/
theorem fieldMask_toNat (msb lsb : Byte) :
    (fieldMask msb lsb).toNat =
      (((List.range 8).filter (fun i => decide (lsb.toNat ≤ i ∧ i ≤ msb.toNat))).map (fun i => 2 ^ i)).sum := by
  have hbits : ∀ i ∈ List.range 8,
      (fieldMask msb lsb).toNat.testBit i = decide (lsb.toNat ≤ i ∧ i ≤ msb.toNat) := fun i hi => by
    rw [BitVec.testBit_toNat, fieldMask_getLsbD msb lsb (List.mem_range.mp hi)]
  rw [← List.filter_congr hbits, ← mod_two_pow_eq_sum_bits, Nat.mod_eq_of_lt (fieldMask msb lsb).isLt]

/-- All bits above `msb`, none of them at `msb = 7` (spec/41_bitfield.md R112). -/
theorem bitsAbove_getLsbD (msb : Byte) {i : Nat} (hi : i < 8) :
    (trunc8 (0xFF <<< (msb.toNat + 1))).getLsbD i = decide (msb.toNat < i) := by
  have hones : (0xFF : Nat) = 2 ^ 8 - 1 := rfl
  have hshift : i - (msb.toNat + 1) < 8 := by omega
  simp only [trunc8, BitVec.getLsbD_ofNat, Nat.testBit_shiftLeft, hones, Nat.testBit_two_pow_sub_one, hi, hshift,
    decide_true, Bool.true_and, Bool.and_true, ge_iff_le, Nat.succ_le_iff]

/-- All bits below `lsb`, none of them at `lsb = 0` (spec/41_bitfield.md R112). -/
theorem bitsBelow_getLsbD {lsb : Byte} (h : lsb.toNat ≤ 7) {i : Nat} (hi : i < 8) :
    (trunc8 (0xFF >>> (8 - lsb.toNat))).getLsbD i = decide (i < lsb.toNat) := by
  have hones : (0xFF : Nat) = 2 ^ 8 - 1 := rfl
  have hshift : 8 - lsb.toNat + i < 8 ↔ i < lsb.toNat := by omega
  simp only [trunc8, BitVec.getLsbD_ofNat, Nat.testBit_shiftRight, hones, Nat.testBit_two_pow_sub_one, hi, hshift,
    decide_true, Bool.true_and]

/-- The mask in the source's form: the complement of the bits above the range and those below it. -/
theorem fieldMask_eq_complement (msb : Byte) {lsb : Byte} (h : lsb.toNat ≤ 7) :
    fieldMask msb lsb = ~~~ (trunc8 (0xFF <<< (msb.toNat + 1)) ||| trunc8 (0xFF >>> (8 - lsb.toNat))) := by
  apply BitVec.eq_of_getLsbD_eq
  intro i hi
  rw [fieldMask_getLsbD msb lsb hi, BitVec.getLsbD_not, BitVec.getLsbD_or, bitsAbove_getLsbD msb hi,
    bitsBelow_getLsbD h hi]
  simp only [hi, decide_true, Bool.true_and, Bool.not_or, ← decide_not, not_lt, Bool.decide_and, Bool.and_comm]

/-- Settles O15: by the bits of the mask, which its definition gives as the difference of two shifts. -/
theorem maskIsExactlyTheRange : Obligations.MaskIsExactlyTheRange := by
  intro msb lsb hv
  obtain ⟨-, hl, -⟩ := validRange_iff.mp hv
  exact ⟨fun i hi => fieldMask_getLsbD msb lsb hi, fieldMask_toNat msb lsb, rfl, fieldMask_eq_complement msb hl⟩

/-! ## Extraction and merge -/

/-- A field of `msb - lsb + 1` bits is below `2^(msb - lsb + 1)`. -/
theorem extractField_lt (cur : Byte) {msb lsb : Byte} (h : lsb.toNat ≤ msb.toNat) :
    (extractField cur msb lsb).toNat < 2 ^ (msb.toNat - lsb.toNat + 1) := by
  apply Nat.lt_pow_two_of_testBit
  intro i hi
  have hout : ¬ lsb.toNat + i ≤ msb.toNat := by omega
  rw [BitVec.testBit_toNat, extractField_getLsbD, decide_eq_false hout, Bool.and_false]

/-- Settles O16: by the bits of a field; a byte enters extraction masked. -/
theorem extractionReadsTheFieldAlone : Obligations.ExtractionReadsTheFieldAlone := by
  intro msb lsb cur hv
  obtain ⟨-, -, hle⟩ := validRange_iff.mp hv
  refine ⟨rfl, fun i _ => ?_, Nat.le_sub_one_of_lt (extractField_lt cur hle), fun cur' hmasked => ?_⟩
  · have hin : lsb.toNat + i ≤ msb.toNat ↔ i ≤ msb.toNat - lsb.toNat := by omega
    simp only [extractField_getLsbD, hin, Bool.and_comm]
  · rw [extractField, extractField, hmasked]

/-- A merge leaves the bits outside the field (spec/41_bitfield.md R126 (a)). -/
theorem mergeField_outside (cur value msb lsb : Byte) :
    mergeField cur value msb lsb &&& ~~~ fieldMask msb lsb = cur &&& ~~~ fieldMask msb lsb := by
  apply BitVec.eq_of_getLsbD_eq
  intro i hi
  simp only [BitVec.getLsbD_and, BitVec.getLsbD_not, mergeField_getLsbD cur value msb lsb hi, fieldMask_getLsbD msb lsb hi]
  by_cases h : lsb.toNat ≤ i ∧ i ≤ msb.toNat <;> simp [h]

/-- A field shifted back to its place is the masked byte (spec/41_bitfield.md R126 (d)). -/
theorem extractField_shiftLeft (cur msb lsb : Byte) :
    extractField cur msb lsb <<< lsb.toNat = cur &&& fieldMask msb lsb := by
  apply BitVec.eq_of_getLsbD_eq
  intro i hi
  rw [BitVec.getLsbD_shiftLeft, extractField_getLsbD, BitVec.getLsbD_and, fieldMask_getLsbD msb lsb hi]
  by_cases h : lsb.toNat ≤ i
  · simp [hi, h, Nat.add_sub_cancel' h]
  · simp [h]

/-- A merge into the whole byte is the value (spec/41_bitfield.md R126 (c)). -/
theorem mergeField_whole (cur value : Byte) : mergeField cur value 7 0 = value := by
  apply BitVec.eq_of_getLsbD_eq
  intro i hi
  rw [mergeField_getLsbD cur value 7 0 hi]
  exact if_pos ⟨Nat.zero_le i, Nat.le_of_lt_succ hi⟩

/-- The field of the whole byte is the byte (spec/41_bitfield.md R126 (c)). -/
theorem extractField_whole (cur : Byte) : extractField cur 7 0 = cur := by
  have hmask : fieldMask 7 0 = BitVec.allOnes 8 := by decide
  rw [extractField, hmask, BitVec.and_allOnes]
  exact BitVec.ushiftRight_zero cur

/-- Settles O17: R126 (a), (b) and (d) for every valid pair, (c) for the whole byte. -/
theorem mergeAndExtractAgree : Obligations.MergeAndExtractAgree :=
  ⟨fun msb lsb cur value hv =>
    ⟨mergeField_outside cur value msb lsb, extractField_mergeField cur value hv, extractField_shiftLeft cur msb lsb⟩,
   fun cur value => ⟨mergeField_whole cur value, extractField_whole cur⟩⟩

/-- Settles O18: the mask and the merge are evaluated. -/
theorem maskedMergeExample : Obligations.MaskedMergeExample := ⟨by decide, by decide⟩

/-! ## The commands -/

/-- The window of `SETBF` has elapsed where the time since `T0` has reached it. -/
theorem windowElapsed_setWidth (t t0 : Ticks) (win : Half) :
    windowElapsed t t0 (win.setWidth 32) = decide (win.toNat ≤ (t - t0).toNat) := by
  rw [windowElapsed, BitVec.toNat_setWidth, Nat.mod_eq_of_lt (by omega)]

/-- Settles O34: a window of zero has elapsed at the first test, so the poll fails before its first read (O33). -/
theorem windowZeroNeverPolls : Obligations.WindowZeroNeverPolls := by
  intro addr value msb lsb s r hv hs ho hr
  have helapsed : pollElapsed s.cfg addr 0 r.t0 r.env 0 = true := by
    rw [pollElapsed, windowElapsed_setWidth]
    exact decide_eq_true (Nat.zero_le _)
  have hfails := setbfFailsWhenTheWindowElapses addr value msb lsb 0 s 0 r 0x00 hv hs ho hr (by simp) (by simp) helapsed rfl
  exact ⟨_, _, hfails, rfl, rfl, rfl, by simp [pollEnv]⟩

/-- Settles O30: the head of the command owes the `Result`, and the next step delivers it. -/
theorem invalidRangesTouchNoPort : Obligations.InvalidRangesTouchNoPort := by
  rintro i addr value msb lsb win s hi hinvalid ⟨hr, hl, hp⟩
  have hfield : fieldStart msb lsb s = { s with point := .owe .invalidBitRange } := by
    rcases fieldStart_cases msb lsb s with ⟨hv, -⟩ | ⟨-, e⟩
    · exact absurd (validRange_iff.mp hv) hinvalid
    · exact e
  have hstart : exec i s = .next { s with point := .owe .invalidBitRange } := by
    rcases hi with rfl | rfl <;> simp [exec, execGetbf, execSetbf, hr, hp, hfield]
  have hraise : exec i { s with point := .owe .invalidBitRange } =
      .next (State.raise .invalidBitRange { s with point := .owe .invalidBitRange }) := by
    rcases hi with rfl | rfl <;> simp [exec, execGetbf, execSetbf, hr]
  refine (execFor_succ 1 hstart).trans ((execFor_succ 0 hraise).trans ?_)
  simp [State.finish, Status.code, hr, hl, hp]

/-- Settles O35: the two outcomes of the window test. -/
theorem windowTestComesBeforeThePollRead : Obligations.WindowTestComesBeforeThePollRead := by
  intro addr value msb lsb win s hr hp
  have hexec : exec (.setbf addr value msb lsb win) s = .next (setbfWindow win s) := by
    simp [exec, execSetbf, hr, hp]
  have hcases := setbfWindow_cases win s
  rw [windowElapsed_setWidth, decide_eq_true_eq, decide_eq_false_iff_not] at hcases
  rw [hexec]
  rcases hcases with ⟨hwin, hd, e⟩ | ⟨hwin, hd, e⟩ | ⟨hwin, e⟩
  · exact ⟨fun _ => by rw [e, hd]; rfl, fun hlt => absurd hwin hlt.not_ge⟩
  · exact ⟨fun _ => by rw [e, hd]; rfl, fun hlt => absurd hwin hlt.not_ge⟩
  · exact ⟨fun hle => absurd hle hwin, fun _ => by rw [e]⟩

end Sys2Proof.Machine
end

/-! # Proofs: the keyword search, the flush, and the wait step by step

`FLUSH` is a loop of two steps a byte: on a queue to which nothing arrives it is run with its steps counted, and against a device
that chatters that it is in its loop is the invariant (`Flushing`).  Each step of the wait has its equation (`exec_window_elapsed`,
`exec_window_open`, `exec_poll`, `exec_read`); a round of the wait is three or four of them. -/

section

namespace Sys2Proof.Machine

open Sys2Proof

/-! ## The keyword search -/

/-- Settles O19: the keyword found is a contiguous part of the sequence, which is read off its positions. -/
theorem containsIsSubstringSearch : Obligations.ContainsIsSubstringSearch := by
  intro s k
  rw [contains_iff_infix, List.infix_iff_getElem?]
  refine exists_congr fun i => and_congr (by rw [Nat.add_comm]) (forall₂_congr fun j hj => ?_)
  rw [Nat.add_comm j i, List.getElem?_eq_getElem hj]

/-! ## The steps of `FLUSH` -/

theorem exec_flush_start {s : State} (hl : s.lpState = .idle) (hp : s.point = .idle) :
    exec .flush s = .next { s with point := .flushAvail } := by
  simp [exec, execFlush, hl, hp]

/-- An `Avail` that answers 0 ends the flush. -/
theorem exec_flush_drained {s : State} (hl : s.lpState = .idle) (hp : s.point = .flushAvail) (h : s.env.avail.1 = 0) :
    exec .flush s = .next { s with env := s.env.avail.2, point := .owe .ok, trace := s.trace ++ [.avail 0] } := by
  simp [exec, execFlush, hl, hp, flushAvailStep, h, State.owe, State.emit]

/-- One that does not leads to `RdByte`. -/
theorem exec_flush_found {s : State} (hl : s.lpState = .idle) (hp : s.point = .flushAvail) (h : s.env.avail.1 ≠ 0) :
    exec .flush s = .next { s with
      env := s.env.avail.2, point := .flushRead, trace := s.trace ++ [.avail s.env.avail.1] } := by
  simp [exec, execFlush, hl, hp, flushAvailStep, h, State.emit]

theorem exec_flush_read {s : State} {b : Byte} {q : List Byte} (hl : s.lpState = .idle) (hp : s.point = .flushRead)
    (hq : s.env.channel.inbound = b :: q) :
    exec .flush s = .next { s with
      env := { s.env with channel := { s.env.channel with inbound := q } }
      point := .flushAvail, trace := s.trace ++ [.rdByte b] } := by
  simp [exec, execFlush, hl, hp, flushReadStep, Env.rdByte, hq, State.emit]

/-! ## `FLUSH` of a queue to which nothing arrives -/

/-- The loop takes two steps a byte, and the last `Avail` one more. -/
theorem execFor_flush_drained {q : List Byte} {s : State} (hl : s.lpState = .idle) (hw : s.env.channel.Waits)
    (hq : s.env.channel.inbound = q) :
    execFor .flush (2 * q.length + 1) { s with point := .flushAvail } = .next (State.owe .ok
      (s.onLine { s.env.channel with inbound := [] } (s.env.clock.afterAvails (q.length + 1)) (flushEvents q))) := by
  induction q generalizing s with
  | nil =>
    have hch : { s.env.channel with inbound := [] } = s.env.channel := by rw [← hq]
    have havail := exec_flush_drained (s := { s with point := .flushAvail }) hl rfl (by simp [Env.avail_of_waits hw, hq])
    rw [Env.avail_of_waits hw] at havail
    rw [hch]
    exact execFor_succ 0 havail
  | cons b q ih =>
    have havail := exec_flush_found (s := { s with point := .flushAvail }) hl rfl (by simp [Env.avail_of_waits hw, hq])
    rw [Env.avail_of_waits hw, hq] at havail
    have hread := exec_flush_read (s := { s.onLine s.env.channel s.env.clock.afterAvail [.avail (q.length + 1)] with
      point := .flushRead }) hl rfl hq
    have hrest := ih (s := (s.onLine s.env.channel s.env.clock.afterAvail [.avail (q.length + 1)]).onLine
      { s.env.channel with inbound := q } s.env.clock.afterAvail [.rdByte b]) hl hw rfl
    refine (execFor_succ _ havail).trans ((execFor_succ _ hread).trans (hrest.trans ?_))
    rw [State.onLine_onLine, State.onLine_onLine]
    rfl

/-- Settles O38: the start, the loop, the `Result`. -/
theorem flushEmptiesTheQueue : Obligations.FlushEmptiesTheQueue := by
  intro s hl hp hsilent
  have hloop := execFor_flush_drained hl hsilent.waits rfl
  have hcount : 2 * s.env.channel.inbound.length + 3 = (2 * s.env.channel.inbound.length + 1) + 1 + 1 := by omega
  rw [hcount, execFor_succ _ (exec_flush_start hl hp)]
  refine (execFor_add _ 1 hloop).trans ?_
  simp [execFor, exec, execFlush, State.onLine, State.owe, State.finish, Status.code, hl]

/-! ## `FLUSH` of a device that never falls silent -/

/-- `FLUSH` is at its start or in its loop, the device chatters, and no `Result` has joined the trace `old`. -/
structure Flushing (old : List Event) (s : State) : Prop where
  busy     : s.busy = true
  lpState  : s.lpState = .idle
  point    : s.point = .idle ∨ s.point = .flushAvail ∨ (s.point = .flushRead ∧ s.env.channel.inbound ≠ [])
  chatter  : s.env.channel.chatter ≠ []
  noResult : ∀ e ∈ s.trace, e.isResult = true → e ∈ old

/-- The chatter joins the queue before every `Avail`. -/
theorem Env.avail_ne_zero_of_chatter {e : Env} (h : e.channel.chatter ≠ []) : e.avail.1 ≠ 0 := by
  simp [Env.avail, Channel.receive, h]

/-- An event that is no `Result` adds none. -/
theorem noResult_concat {old trace : List Event} {e : Event} (h : ∀ x ∈ trace, x.isResult = true → x ∈ old)
    (he : e.isResult = false) : ∀ x ∈ trace ++ [e], x.isResult = true → x ∈ old := by
  intro x hx hr
  rcases List.mem_append.mp hx with hx | hx
  · exact h x hx hr
  · rw [List.mem_singleton.mp hx, he] at hr
    cases hr

/-- The loop never leaves itself. -/
theorem Flushing.step {old : List Event} {s : State} (h : Flushing old s) :
    ∃ t, exec .flush s = .next t ∧ Flushing old t := by
  obtain ⟨hb, hl, hpoint, hc, hn⟩ := h
  rcases hpoint with hp | hp | ⟨hp, hin⟩
  · exact ⟨_, exec_flush_start hl hp, hb, hl, .inr (.inl rfl), hc, hn⟩
  · have hne := Env.avail_ne_zero_of_chatter hc
    exact ⟨_, exec_flush_found hl hp hne, hb, hl, .inr (.inr ⟨rfl, s.env.avail_inbound hne⟩), hc, noResult_concat hn rfl⟩
  · obtain ⟨b, q, hq⟩ := List.exists_cons_of_ne_nil hin
    exact ⟨_, exec_flush_read hl hp hq, hb, hl, .inr (.inl rfl), hc, noResult_concat hn rfl⟩

/-- What a step of a command always leads to again, any number of its steps does. -/
theorem execFor_of_invariant {i : Instr} {P : State → Prop} (hstep : ∀ u, P u → ∃ v, exec i u = .next v ∧ P v) (k : Nat)
    {s : State} (h : P s) : ∃ t, execFor i k s = .next t ∧ P t := by
  induction k generalizing s with
  | zero => exact ⟨s, rfl, h⟩
  | succ k ih =>
    obtain ⟨u, hu, hPu⟩ := hstep s h
    obtain ⟨t, ht, hPt⟩ := ih hPu
    exact ⟨t, (execFor_succ k hu).trans ht, hPt⟩

/-- Settles O39: every `Avail` finds the chatter, so the loop never ends. -/
theorem flushOfAChatteringDeviceNeverEnds : Obligations.FlushOfAChatteringDeviceNeverEnds := by
  intro s hb hl hp hc k
  obtain ⟨t, ht, h⟩ := execFor_of_invariant (fun _ => Flushing.step) k
    (⟨hb, hl, .inl hp, hc, fun _ he _ => he⟩ : Flushing s.trace s)
  exact ⟨t, ht, h.busy, h.noResult⟩

/-! ## The steps of the wait -/

section Wait

variable {i : Instr} {payload : List Byte} (hx : ∀ u, exec i u = exchangeStep payload u)

include hx

/-- A window that has elapsed leads to no `Avail` but to the failure. -/
theorem exec_window_elapsed {s : State} (hl : s.lpState = .awaiting) (hp : s.point = .window)
    (hw : windowElapsed s.env.clock.nowMs s.t0 s.cfg.responseTimeoutMs = true) :
    exec i s = .next { s with
      lpState := .failure, rbuf := [], point := .owe .lineFailure, env := s.env.nowMs.2
      trace := s.trace ++ [.nowMs s.env.clock.nowMs] } := by
  simp [hx, exchangeStep, hl, hp, awaitWindowStep, hw, State.emit]

/-- One that has not leads to `Avail`. -/
theorem exec_window_open {s : State} (hl : s.lpState = .awaiting) (hp : s.point = .window)
    (hw : windowElapsed s.env.clock.nowMs s.t0 s.cfg.responseTimeoutMs = false) :
    exec i s = .next { s with
      env := s.env.nowMs.2, point := .poll, trace := s.trace ++ [.nowMs s.env.clock.nowMs] } := by
  simp [hx, exchangeStep, hl, hp, awaitWindowStep, hw, State.emit]

/-- `Avail` leads back to the test or to `RdByte`. -/
theorem exec_poll {s : State} (hl : s.lpState = .awaiting) (hp : s.point = .poll) :
    exec i s = .next { s with
      env := s.env.avail.2, point := if s.env.avail.1 = 0 then .window else .read
      trace := s.trace ++ [.avail s.env.avail.1] } := by
  by_cases h : s.env.avail.1 = 0 <;> simp [hx, exchangeStep, hl, hp, awaitPollStep, h, State.emit]

/-- `RdByte` and, with `DEBUG_EN`, the mirror, up to the verdict on the byte. -/
theorem execFor_read {s : State} {b : Byte} {q : List Byte} {debug : Bool} (hd : s.cfg.debugEn = debug)
    (hl : s.lpState = .awaiting) (hp : s.point = .read) (hq : s.env.channel.inbound = b :: q) :
    execFor i (if debug then 2 else 1) s = .next (State.receive b
      (s.onLine { s.env.channel with inbound := q } s.env.clock (.rdByte b :: if debug then [.dbgByte b] else []))) := by
  cases debug with
  | false => simp [execFor, hx, exchangeStep, hl, hp, awaitReadStep, Env.rdByte, hq, hd, State.onLine, State.emit]
  | true =>
    have hread : exec i s = .next { s.onLine { s.env.channel with inbound := q } s.env.clock [.rdByte b] with
        point := .mirror b } := by
      simp [hx, exchangeStep, hl, hp, awaitReadStep, Env.rdByte, hq, hd, State.onLine, State.emit]
    refine (execFor_succ 1 hread).trans ?_
    rw [← State.receive_point b (.mirror b)]
    simp [execFor, hx, exchangeStep, hl, State.onLine, State.emit]

/-- The steps of a round of the wait that finds a byte: test, `Avail`, `RdByte`, and the mirror with `DEBUG_EN`. -/
theorem execFor_received {s : State} {b : Byte} {q : List Byte} (hl : s.lpState = .awaiting) (hp : s.point = .window)
    (hw : windowElapsed s.env.clock.nowMs s.t0 s.cfg.responseTimeoutMs = false) (hwaits : s.env.channel.Waits)
    (hq : s.env.channel.inbound = b :: q) :
    execFor i (if s.cfg.debugEn then 4 else 3) s = .next ((s.received s.env.channel b q).receive b) := by
  have hpoll := exec_poll hx (s := { s with
    env := s.env.nowMs.2, point := .poll, trace := s.trace ++ [.nowMs s.env.clock.nowMs] }) hl rfl
  rw [Env.avail_of_waits (e := s.env.nowMs.2) hwaits] at hpoll
  have hread := execFor_read hx (s := { s.onLine s.env.channel s.env.clock.afterNowMs.afterAvail
    [.nowMs s.env.clock.nowMs, .avail (q.length + 1)] with point := .read }) (debug := s.cfg.debugEn) rfl hl rfl hq
  have hcount : (if s.cfg.debugEn then 4 else 3) = (if s.cfg.debugEn then 2 else 1) + 1 + 1 := by split <;> rfl
  rw [hcount, execFor_succ _ (exec_window_open hx hl hp hw), execFor_succ _ hpoll,
    ← State.receive_point b .read]
  simpa [State.onLine, State.received, hq] using hread

/-- The wait reads a queue up to its last byte, each byte before it without a verdict. -/
theorem execFor_replied {before behind : List Byte} {b : Byte} {s : State} (hl : s.lpState = .awaiting)
    (hp : s.point = .window) (hsilent : s.env.channel.silent) (hin : s.env.channel.inbound = before ++ b :: behind)
    (hw : ∀ k ≤ before.length, windowElapsed (waitClock s.env.clock k).nowMs s.t0 s.cfg.responseTimeoutMs = false)
    (hpend : classify (s.rbuf ++ before) = .pending) :
    execFor i ((before.length + 1) * if s.cfg.debugEn then 4 else 3) s = .next (State.receive b
      { s.onLine { s.env.channel with inbound := behind } (waitClock s.env.clock (before.length + 1))
          (waitEvents s.cfg.debugEn behind.length s.env.clock (before ++ [b])) with rbuf := s.rbuf ++ before }) := by
  induction before generalizing s with
  | nil =>
    have hround := execFor_received hx hl hp (hw 0 le_rfl) hsilent.waits hin
    simpa [State.received, State.onLine, waitClock, waitEvents, Nat.add_comm] using hround
  | cons b' before ih =>
    have hgoes : classify (s.rbuf ++ [b']) = .pending :=
      classify_pending_of_append (s.rbuf ++ [b']) before (by simpa using hpend)
    have hround := execFor_received hx hl hp (hw 0 (Nat.zero_le _)) hsilent.waits hin
    rw [State.receive_of_pending (s := s.received _ b' _) hgoes] at hround
    have hrest := ih (s := { s.received s.env.channel b' (before ++ b :: behind) with
      rbuf := s.rbuf ++ [b'], point := .window }) hl rfl hsilent rfl (fun k hk => hw (k + 1) (Nat.succ_le_succ hk))
      (by simpa using hpend)
    rw [List.length_cons, Nat.succ_mul, Nat.add_comm, execFor_add _ _ hround]
    refine hrest.trans ?_
    have hcount : (before ++ [b]).length + 1 + behind.length = (before ++ b :: behind).length + 1 := by simp; omega
    rw [List.cons_append, waitEvents, hcount]
    simp [State.received, State.onLine, waitClock, hp]

/-- A verdict leads to the `Result`. -/
theorem exec_receive_of_verdict {s : State} {b : Byte} (h : classify (s.rbuf ++ [b]) ≠ .pending) :
    exec i (s.receive b) = .next
      (s.finish (if classify (s.rbuf ++ [b]) = .success then .ok else .lineFailure) 0x00 []) := by
  rcases s.receive_cases b with ⟨hv, e⟩ | ⟨hv, e⟩ | ⟨hv, -⟩
  · rw [e, hv, hx]
    rfl
  · rw [e, hv, hx]
    rfl
  · exact absurd hv h

end Wait

/-- Settles O41: `T0`, a round a byte, and the `Result` of the verdict. -/
theorem waitEndsAtTheFirstKeyword : Obligations.WaitEndsAtTheFirstKeyword := by
  rintro i payload before behind b c t s hi hl hp hr hsilent hin rfl rfl hw hpend hdone
  have hx := exec_eq_exchangeStep hi
  have hsample : exec i s = .next { s.onLine s.env.channel s.env.clock.afterNowMs [.nowMs s.env.clock.nowMs] with
      point := .window, t0 := s.env.clock.nowMs } := by
    simp [hx, exchangeStep, hl, hp, State.sampleMs, State.emit, State.onLine, Env.nowMs]
  have hread := execFor_replied hx (before := before) (behind := behind) (b := b) (s := { s.onLine s.env.channel
    s.env.clock.afterNowMs [.nowMs s.env.clock.nowMs] with point := .window, t0 := s.env.clock.nowMs })
    hl rfl hsilent hin hw (by simpa [State.onLine, hr] using hpend)
  have hcode : (if classify (before ++ [b]) = .success then Status.ok else .lineFailure).code =
      if classify (before ++ [b]) = .success then 0x00 else 0x03 := by split <;> rfl
  have hcount (m : Nat) : 2 + m = m + 1 + 1 := by omega
  rw [hcount, execFor_succ _ hsample]
  refine (execFor_add _ _ hread).trans ?_
  rw [execFor_succ 0 (exec_receive_of_verdict hx (by simpa [State.onLine, hr] using hdone))]
  simp [State.onLine, State.finish, hr, hcode]

/-- Settles O43: the equations of the window test and of `Avail`. -/
theorem timeoutComesBeforeAvail : Obligations.TimeoutComesBeforeAvail := by
  intro i payload s hi hl
  have hx := exec_eq_exchangeStep hi
  refine ⟨fun hp hle => ?_, fun hp hlt => ?_, fun hp h0 => ?_, fun hp h0 => ?_⟩
  · rw [execFor_succ 1 (exec_window_elapsed hx hl hp (decide_eq_true hle))]
    simp [execFor, hx, exchangeStep, State.finish, Status.code]
  · exact exec_window_open hx hl hp (decide_eq_false hlt.not_ge)
  · rw [exec_poll hx hl hp, if_pos h0, h0]
  · rw [exec_poll hx hl hp, if_neg h0]

end Sys2Proof.Machine
end

/-! # Proofs: the debug sink

A machine away from the debug sink without its debug events is the machine muted (`State.muted`), and a step of a command is then
the step of the muted machine; at the sink the step is the debug event alone, which the machine without debug has passed already.
So each step of a run is one step or none of the run without debug, whatever `DEBUG_EN` is.  The two steps at which the flag counts
are the read of the wait (`awaitReadStep_withoutDebug`) and the window test of the poll (`setbfWindow_withoutDebug`). -/

section

namespace Sys2Proof.Machine

open Sys2Proof

/-! ## The muted machine -/

/-- The machine with `DEBUG_EN` clear and the debug events gone from its trace. -/
def State.muted (s : State) : State :=
  { s with cfg := { s.cfg with debugEn := false }, trace := s.trace.filter (fun e => !e.isDebug) }

/-- A debug event is next. -/
def Point.atSink : Point → Bool
  | .mirror _ | .diag => true
  | .idle | .txn | .sample | .window | .flushAvail | .flushRead | .send _ | .term _ | .poll | .read | .owe _ => false

section

variable {s t : State}

/-- Away from the sink the machine without debug is the muted one. -/
theorem State.withoutDebug_eq_muted (h : s.point.atSink = false) : s.withoutDebug = s.muted := by
  unfold State.withoutDebug
  split
  · next hp => simp [hp, Point.atSink] at h
  · next hp => simp [hp, Point.atSink] at h
  · rfl

/-- Before the mirror of a byte the machine without debug has judged it. -/
theorem State.withoutDebug_of_mirror {b : Byte} (h : s.point = .mirror b) : s.withoutDebug = s.muted.receive b := by
  simp only [State.withoutDebug, h]
  rfl

/-- Before the diagnosis the machine without debug owes the `Result`. -/
theorem State.withoutDebug_of_diag (h : s.point = .diag) : s.withoutDebug = s.muted.owe .writeVerificationFailed := by
  simp only [State.withoutDebug, h]
  rfl

@[simp] theorem State.muted_cur : s.muted.cur = s.cur := rfl
@[simp] theorem State.muted_mask : s.muted.mask = s.mask := rfl
@[simp] theorem State.muted_new : s.muted.new = s.new := rfl
@[simp] theorem State.muted_rxdata : s.muted.rxdata = s.rxdata := rfl
@[simp] theorem State.muted_rbuf : s.muted.rbuf = s.rbuf := rfl
@[simp] theorem State.muted_rbPhase : s.muted.rbPhase = s.rbPhase := rfl
@[simp] theorem State.muted_lpState : s.muted.lpState = s.lpState := rfl
@[simp] theorem State.muted_point : s.muted.point = s.point := rfl
@[simp] theorem State.muted_cfg : s.muted.cfg = { s.cfg with debugEn := false } := rfl

/-- An event of another port stays. -/
theorem State.muted_emit {e : Event} (h : e.isDebug = false) : (s.emit e).muted = s.muted.emit e := by
  simp [State.muted, State.emit, h]

/-- A debug event leaves no mark. -/
theorem State.muted_emit_debug {e : Event} (h : e.isDebug = true) : (s.emit e).muted = s.muted := by
  simp [State.muted, State.emit, h]

@[simp] theorem State.sendByte_muted (whole rest : List Byte) (b : Byte) :
    (s.sendByte whole rest b).muted = s.muted.sendByte whole rest b := State.muted_emit rfl

@[simp] theorem readStep_muted (addr : Byte) (n : Nat) (c : Capture) (released : State → State) :
    readStep addr n c released s.muted = busStep (wireRead s.cfg addr) (fillers s.cfg n) c released s.muted := rfl

@[simp] theorem writeStep_muted (addr : Byte) (v : List Byte) (released : State → State) :
    writeStep addr v released s.muted = busStep (wireWrite s.cfg addr) v .discard released s.muted := rfl

/-- The end of a command. -/
@[simp] theorem State.finish_withoutDebug (st : Status) (v : Byte) (d : List Byte) :
    (s.finish st v d).withoutDebug = s.muted.finish st v d := by
  simp [State.withoutDebug, State.finish, State.muted, Event.isDebug]

/-- The verdict on a byte. -/
@[simp] theorem State.receive_withoutDebug (b : Byte) : (s.receive b).withoutDebug = s.muted.receive b := by
  rcases s.receive_cases b with ⟨hv, e⟩ | ⟨hv, e⟩ | ⟨hv, e⟩ <;> rw [e] <;> simp [State.receive, hv] <;> rfl

/-- The next byte to send, or the wait. -/
@[simp] theorem State.toSend_withoutDebug (payload term : List Byte) :
    (s.toSend payload term).withoutDebug = s.muted.toSend payload term := by
  rcases s.toSend_cases payload term with ⟨hp, e⟩ | ⟨rfl, ht, e⟩ | ⟨rfl, rfl, e⟩ <;> rw [e]
  · simp [State.toSend, hp]; rfl
  · simp [State.toSend, ht]; rfl
  · rfl

/-- The head of a bit-field command. -/
@[simp] theorem fieldStart_withoutDebug (msb lsb : Byte) :
    (fieldStart msb lsb s).withoutDebug = fieldStart msb lsb s.muted := by
  rcases fieldStart_cases msb lsb s with ⟨hv, e⟩ | ⟨hv, e⟩ <;> rw [e] <;> simp [fieldStart, hv] <;> rfl

/-! ## The shared steps -/

/-- A bus step of the muted machine. -/
theorem busStep_withoutDebug {wire : Byte} {tx : List Byte} {c : Capture} {released : State → State}
    (hp : s.point = .txn) (h : busStep wire tx c released s = .next t)
    (hr : ∀ u, (released u).withoutDebug = released u.muted) :
    busStep wire tx c released s.muted = .next t.withoutDebug := by
  rcases busStep_cases h with ⟨h1, ho, rfl⟩ | ⟨h1, ho, rfl⟩ | ⟨h1, rfl⟩ | ⟨h1, hx, rfl⟩ | ⟨h1, hx, rfl⟩ |
    ⟨h1, b, hb, rfl⟩ | ⟨h1, rfl⟩ | ⟨h1, rfl⟩
  case inr.inr.inr.inr.inr.inr.inr =>
    rw [hr]
    simp [busStep, h1, State.muted, State.emit, Event.isDebug]
  case inr.inr.inr.inr.inr.inl =>
    by_cases hl : s.idx.toNat + 1 < tx.length <;> cases c <;>
      simp [busStep, h1, hb, hl, hp, State.capture, State.withoutDebug, State.muted, State.emit, Event.isDebug]
  all_goals simp [busStep, Env.busFree, State.withoutDebug, State.muted, State.emit, Event.isDebug, *]

/-- `Avail` of the flush. -/
theorem flushAvailStep_withoutDebug {drained : State → State} (h : flushAvailStep drained s = .next t)
    (hd : ∀ u, (drained u).withoutDebug = drained u.muted) : flushAvailStep drained s.muted = .next t.withoutDebug := by
  rcases flushAvailStep_cases h with ⟨hn, rfl⟩ | ⟨hn, rfl⟩
  · rw [hd]
    simp [flushAvailStep, hn, State.muted, State.emit, Event.isDebug]
  · simp [flushAvailStep, hn, State.withoutDebug, State.muted, State.emit, Event.isDebug]

/-- `RdByte` of the flush. -/
theorem flushReadStep_withoutDebug (h : flushReadStep s = .next t) :
    flushReadStep s.muted = .next t.withoutDebug := by
  obtain ⟨b, rest, hq, rfl⟩ := flushReadStep_cases h
  simp [flushReadStep, Env.rdByte, hq, State.withoutDebug, State.muted, State.emit, Event.isDebug]

/-- The timeout test of the wait. -/
theorem awaitWindowStep_withoutDebug (h : awaitWindowStep s = .next t) :
    awaitWindowStep s.muted = .next t.withoutDebug := by
  rcases awaitWindowStep_cases h with ⟨hw, rfl⟩ | ⟨hw, rfl⟩ <;>
    simp [awaitWindowStep, hw, State.withoutDebug, State.muted, State.emit, Event.isDebug]

/-- `Avail` of the wait. -/
theorem awaitPollStep_withoutDebug (h : awaitPollStep s = .next t) :
    awaitPollStep s.muted = .next t.withoutDebug := by
  rcases awaitPollStep_cases h with ⟨hn, rfl⟩ | ⟨hn, rfl⟩ <;>
    simp [awaitPollStep, hn, State.withoutDebug, State.muted, State.emit, Event.isDebug]

/-- `RdByte` of the wait: the mirror that is next with `DEBUG_EN` set has been passed. -/
theorem awaitReadStep_withoutDebug (h : awaitReadStep s = .next t) :
    awaitReadStep s.muted = .next t.withoutDebug := by
  obtain ⟨b, rest, hq, ⟨-, rfl⟩ | ⟨-, rfl⟩⟩ := awaitReadStep_cases h
  · rw [State.withoutDebug_of_mirror rfl]
    simp [awaitReadStep, Env.rdByte, hq, State.muted, State.emit, Event.isDebug]
    rfl
  · rw [State.receive_withoutDebug]
    simp [awaitReadStep, Env.rdByte, hq, State.muted, State.emit, Event.isDebug]

/-- The window test of the poll: the diagnosis that is next with `DEBUG_EN` set has been passed. -/
@[simp] theorem setbfWindow_withoutDebug (win : Half) : (setbfWindow win s).withoutDebug = setbfWindow win s.muted := by
  rcases setbfWindow_cases win s with ⟨hw, -, e⟩ | ⟨hw, -, e⟩ | ⟨hw, e⟩ <;> rw [e] <;>
    simp [setbfWindow, hw, State.withoutDebug, State.muted, State.emit, State.owe, State.openTxn, Event.isDebug]

/-- The comparison of the poll. -/
@[simp] theorem setbfCompare_withoutDebug : (setbfCompare s).withoutDebug = setbfCompare s.muted := by
  rcases setbfCompare_cases s with ⟨hm, e⟩ | ⟨hm, e⟩ <;> rw [e] <;>
    simp [setbfCompare, hm, State.owe, State.withoutDebug, State.muted]

/-! ## The commands -/

/-- Without debug the machine makes the same step, or it has passed the debug event. -/
def GoesWithoutDebug (i : Instr) (s t : State) : Prop :=
  t.withoutDebug = s.withoutDebug ∨ exec i s.withoutDebug = .next t.withoutDebug

/-- Away from the sink the step is the muted machine's. -/
theorem GoesWithoutDebug.of_muted {i : Instr} {p : Point} (hp : s.point = p) (hsink : p.atSink = false)
    (h : exec i s.muted = .next t.withoutDebug) : GoesWithoutDebug i s t :=
  .inr (by rwa [State.withoutDebug_eq_muted (hp ▸ hsink)])

theorem execRdreg_withoutDebug {addr : Byte} (h : execRdreg addr s = .next t) : GoesWithoutDebug (.rdreg addr) s t := by
  rcases execRdreg_cases h with ⟨hr, hp, rfl⟩ | ⟨hr, hp, h⟩ | ⟨hr, hp, b, rest, hb, rfl⟩ <;> refine .of_muted hp rfl ?_
  · simp [exec, execRdreg, hr, hp]; rfl
  · simpa [exec, execRdreg, hr, hp] using busStep_withoutDebug hp h fun _ => rfl
  · simp [exec, execRdreg, hr, hp, hb]

theorem execWrreg_withoutDebug {addr byte : Byte} (h : execWrreg addr byte s = .next t) :
    GoesWithoutDebug (.wrreg addr byte) s t := by
  rcases execWrreg_cases h with ⟨hr, hp, rfl⟩ | ⟨hr, hp, h⟩ | ⟨hr, hp, rfl⟩ <;> refine .of_muted hp rfl ?_
  · simp [exec, execWrreg, hr, hp]; rfl
  · simpa [exec, execWrreg, hr, hp] using busStep_withoutDebug hp h fun _ => rfl
  · simp [exec, execWrreg, hr, hp]

theorem execRdburst_withoutDebug {addr : Byte} {count : Half} (h : execRdburst addr count s = .next t) :
    GoesWithoutDebug (.rdburst addr count) s t := by
  rcases execRdburst_cases h with ⟨hr, hp, rfl⟩ | ⟨hr, hp, h⟩ | ⟨hr, hp, rfl⟩ <;> refine .of_muted hp rfl ?_
  · simp [exec, execRdburst, hr, hp]; rfl
  · simpa [exec, execRdburst, hr, hp] using busStep_withoutDebug hp h fun _ => rfl
  · simp [exec, execRdburst, hr, hp]

theorem execWrburst_withoutDebug {addr : Byte} {bytes : List Byte} (h : execWrburst addr bytes s = .next t) :
    GoesWithoutDebug (.wrburst addr bytes) s t := by
  rcases execWrburst_cases h with ⟨hr, hp, rfl⟩ | ⟨hr, hp, h⟩ | ⟨hr, hp, rfl⟩ <;> refine .of_muted hp rfl ?_
  · simp [exec, execWrburst, hr, hp]; rfl
  · simpa [exec, execWrburst, hr, hp] using busStep_withoutDebug hp h fun _ => rfl
  · simp [exec, execWrburst, hr, hp]

theorem execGetbf_withoutDebug {addr msb lsb : Byte} (h : execGetbf addr msb lsb s = .next t) :
    GoesWithoutDebug (.getbf addr msb lsb) s t := by
  rcases execGetbf_cases h with ⟨hr, hp, rfl⟩ | ⟨hr, hp, rfl⟩ | ⟨hr, hp, h⟩ | ⟨hr, hp, rfl⟩ <;>
    refine .of_muted hp rfl ?_
  · simp [exec, execGetbf, hr, hp]
  · simp [exec, execGetbf, hr, hp]
  · simpa [exec, execGetbf, hr, hp] using busStep_withoutDebug hp h fun _ => rfl
  · simp [exec, execGetbf, hr, hp]

/-- The diagnosis of `SETBF` is the one step it makes with debug alone. -/
theorem execSetbf_withoutDebug {addr value msb lsb : Byte} {win : Half}
    (h : execSetbf addr value msb lsb win s = .next t) : GoesWithoutDebug (.setbf addr value msb lsb win) s t := by
  rcases execSetbf_cases h with ⟨hr, hp, rfl⟩ | ⟨hr, hp, rfl⟩ | ⟨hr, hp, h⟩ | ⟨hr, hp, h⟩ | ⟨hr, hp, rfl⟩ |
    ⟨hr, hp, rfl⟩ | ⟨hr, hp, h⟩ | ⟨-, hp, rfl⟩ | ⟨hr, hp, rfl⟩ | ⟨hr, hp, rfl⟩
  · exact .of_muted hp rfl (by simp [exec, execSetbf, hr, hp])
  · exact .of_muted hp rfl (by simp [exec, execSetbf, hr, hp])
  · exact .of_muted hp rfl (by simpa [exec, execSetbf, hr, hp] using busStep_withoutDebug hp h fun _ => rfl)
  · exact .of_muted hp rfl (by simpa [exec, execSetbf, hr, hp] using busStep_withoutDebug hp h fun _ => rfl)
  · exact .of_muted hp rfl (by simp [exec, execSetbf, hr, hp, setbfSample, State.sampleUs, State.emit,
      State.withoutDebug, State.muted, Event.isDebug])
  · exact .of_muted hp rfl (by simp [exec, execSetbf, hr, hp])
  · exact .of_muted hp rfl (by
      simpa [exec, execSetbf, hr, hp] using busStep_withoutDebug hp h fun _ => setbfCompare_withoutDebug)
  · left
    rw [State.withoutDebug_of_diag hp]
    simp [State.withoutDebug, State.muted, State.owe, Event.isDebug]
  · exact .of_muted hp rfl (by simp [exec, execSetbf, hr, hp])
  · exact .of_muted hp rfl (by simp [exec, execSetbf, hr, hp])

theorem execFlush_withoutDebug (h : execFlush s = .next t) : GoesWithoutDebug .flush s t := by
  rcases execFlush_cases h with ⟨hl, hp, rfl⟩ | ⟨hl, hp, h⟩ | ⟨hl, hp, h⟩ | ⟨hl, hp, rfl⟩ <;> refine .of_muted hp rfl ?_
  · simp [exec, execFlush, hl, hp]; rfl
  · simpa [exec, execFlush, hl, hp] using flushAvailStep_withoutDebug h fun _ => rfl
  · simpa [exec, execFlush, hl, hp] using flushReadStep_withoutDebug h
  · simp [exec, execFlush, hl, hp]

/-- The mirror of a byte is the one step an exchange makes with debug alone. -/
theorem exchangeStep_withoutDebug {i : Instr} {payload : List Byte} (hx : ∀ u, exec i u = exchangeStep payload u)
    (h : exchangeStep payload s = .next t) : GoesWithoutDebug i s t := by
  rcases exchangeStep_cases h with ⟨hl, hp, rfl⟩ | ⟨hl, hp, h⟩ | ⟨hl, hp, h⟩ | ⟨hl, b, rest, hp, rfl⟩ |
    ⟨hl, b, rest, hp, rfl⟩ | ⟨hl, hp, rfl⟩ | ⟨hl, hp, h⟩ | ⟨hl, hp, h⟩ | ⟨hl, hp, h⟩ | ⟨-, b, hp, rfl⟩ | ⟨hl, hp, rfl⟩ |
    ⟨hl, hp, rfl⟩
  · exact .of_muted hp rfl (by simp [hx, exchangeStep, hl, hp]; rfl)
  · exact .of_muted hp rfl (by simpa [hx, exchangeStep, hl, hp] using
      flushAvailStep_withoutDebug h fun _ => State.toSend_withoutDebug _ _)
  · exact .of_muted hp rfl (by simpa [hx, exchangeStep, hl, hp] using flushReadStep_withoutDebug h)
  · exact .of_muted hp rfl (by simp [hx, exchangeStep, hl, hp])
  · exact .of_muted hp rfl (by simp [hx, exchangeStep, hl, hp])
  · exact .of_muted hp rfl (by simp [hx, exchangeStep, hl, hp, State.sampleMs, State.emit, State.withoutDebug,
      State.muted, Event.isDebug])
  · exact .of_muted hp rfl (by simpa [hx, exchangeStep, hl, hp] using awaitWindowStep_withoutDebug h)
  · exact .of_muted hp rfl (by simpa [hx, exchangeStep, hl, hp] using awaitPollStep_withoutDebug h)
  · exact .of_muted hp rfl (by simpa [hx, exchangeStep, hl, hp] using awaitReadStep_withoutDebug h)
  · left
    rw [State.withoutDebug_of_mirror hp, State.receive_withoutDebug, State.muted_emit_debug rfl]
  · exact .of_muted hp rfl (by simp [hx, exchangeStep, hl, hp])
  · exact .of_muted hp rfl (by simp [hx, exchangeStep, hl, hp])

/-! ## Every command -/

theorem exec_withoutDebug {i : Instr} (h : exec i s = .next t) : GoesWithoutDebug i s t := by
  cases i with
  | rdreg addr => exact execRdreg_withoutDebug h
  | wrreg addr byte => exact execWrreg_withoutDebug h
  | rdburst addr count => exact execRdburst_withoutDebug h
  | wrburst addr bytes => exact execWrburst_withoutDebug h
  | getbf addr msb lsb => exact execGetbf_withoutDebug h
  | setbf addr value msb lsb win => exact execSetbf_withoutDebug h
  | flush => exact execFlush_withoutDebug h
  | sendcmd text | senddata bytes => exact exchangeStep_withoutDebug (fun _ => rfl) h

/-- A run without debug makes the steps that are no debug event. -/
theorem execFor_withoutDebug {i : Instr} {n : Nat} (h : execFor i n s = .next t) :
    ∃ m ≤ n, execFor i m s.withoutDebug = .next t.withoutDebug := by
  induction n generalizing s with
  | zero =>
    obtain rfl := Host.Outcome.next.inj h
    exact ⟨0, le_rfl, rfl⟩
  | succ n ih =>
    obtain ⟨u, he, hrest⟩ := execFor_succ_cases h
    obtain ⟨m, hm, hrun⟩ := ih hrest
    rcases exec_withoutDebug he with hpassed | hstep
    · exact ⟨m, Nat.le_succ_of_le hm, hpassed ▸ hrun⟩
    · exact ⟨m + 1, Nat.succ_le_succ hm, (execFor_succ m hstep).trans hrun⟩

end

/-- Settles O59: each step is the step without debug, or the debug event that the machine without debug has passed. -/
theorem debugIsASideChannel : Obligations.DebugIsASideChannel := by
  rintro i n s t - h
  exact execFor_withoutDebug h

end Sys2Proof.Machine
end

/-! # Proofs: the sequencer under reset

A turn of `SEQ` is a step of `SEQ` from the state whose turn is taken (`step_of_seqTurn`), and taking a turn leaves the reset line as
it was. -/

section

namespace Sys2Proof.Machine

open Sys2Proof

/-- While reset is asserted a step of `SEQ` does nothing (R185). -/
theorem seqStep_of_reset {s : State} (hr : s.env.resetLine = true) : seqStep s = .next s := by
  simp [seqStep, hr]

/-- Settles O4: with a turn of `SEQ` the turn is taken, and the step that follows does nothing. -/
theorem resetHoldsTheSequencer : Obligations.ResetHoldsTheSequencer := by
  refine fun s hr => ⟨fun h => ?_, fun rest h => ?_⟩
  · rw [step_of_noTurn h, seqStep_of_reset hr]
  · have hdrop : s.dropTurn.env.resetLine = true := hr
    rw [step_of_seqTurn (.inr ⟨rest, h⟩), seqStep_of_reset hdrop, State.dropTurn_of_turns h]

end Sys2Proof.Machine
end
